-- ==== Sys2Proof/Word.lean ====
section
/-! DEFINITION. The widths of the block (00_scope.md R9): bytes, 16-bit checksums and reason ids, 32-bit
argument words, and the constants of R7. -/

namespace Sys2Proof

/-- A byte is 8 bits, unsigned (R9). -/
abbrev Byte := BitVec 8

/-- The CRC and a shutdown reason id are 16 bits, unsigned (R9). -/
abbrev Half := BitVec 16

/-- A VLQ value and an argument word are 32 bits (R9, R27). -/
abbrev Word := BitVec 32

/-- `MESSAGE_MIN` (R7): the smallest legal LEN. -/
abbrev messageMin : Nat := 5

/-- `MESSAGE_MAX` (R7): the largest legal LEN. -/
abbrev messageMax : Nat := 64

/-- `SYNC` (R7): the last byte of every frame. -/
abbrev syncByte : Byte := 0x7E#8

/-- `DEST` (R7): the destination tag as it sits in the SEQ byte. -/
abbrev destTag : Byte := 0x10#8

/-- `SEQ_MASK` (R7): the sequence number bits of the SEQ byte. -/
abbrev seqMask : Byte := 0x0F#8

/-- `CRC_INIT` (R7): the initial value of the CRC register. -/
abbrev crcInit : Half := 0xFFFF#16

end Sys2Proof
end

