-- ==== Sys2Proof/Config.lean ====
section
/-! DEFINITION. What an implementation fixes (00_scope.md R8): the schema (20_memory.md R48 to R51), the choice of
CRC16 (R104), the reason ids RID (R241); and the free values, constants with no body, that stand for what the spec
leaves to the environment (93_implementation_defined.md U11, U13; 92_eei_decisions.md D17). -/

namespace Sys2Proof

/-- The eight argument types and, for the unknown-type errors, a ninth constructor (R51, D12). -/
inductive ArgType where
  | uint32 | int32 | uint16 | int16 | byte
  | string | buffer | progmemBuffer
  | unknown (code : Nat)
  deriving DecidableEq, Repr

/-- A parser descriptor (R48). `num_params` is the length of `paramTypes` (log 20). `handler` names the external
routine, `none` when it is missing (R50(d)). `inShutdown` is the flag `IN_SHUTDOWN`. -/
structure Parser where
  paramTypes : List ArgType
  numArgs    : Nat
  handler    : Option Nat
  inShutdown : Bool
  deriving DecidableEq, Repr

/-- An encoder descriptor (R49). -/
structure Encoder where
  msgId      : Byte
  paramTypes : List ArgType
  maxSize    : Nat
  deriving DecidableEq, Repr

/-- The schema (R31, R48, R49): `command_index` with its null entries, `command_encoders`, and the encoder of the
`is_shutdown` message. `command_index_size` is the length of `commandIndex`. -/
structure Schema where
  commandIndex    : List (Option Parser)
  commandEncoders : List Encoder
  encIsShutdown   : Nat
  deriving DecidableEq, Repr

/-- Which function CRC16 is (R104): R100's default, the reflected CCITT alternative R104 warns of, or some other
function the reader supplies. -/
inductive CrcKind where
  | standard
  | reflected
  | custom (k : Nat)
  deriving DecidableEq, Repr

/-- A shutdown reason: the block's three strings (R243), or a handler's own reason given by its id (R225). -/
inductive Reason where
  | invalidCommand
  | parserError
  | encodeError
  | other (id : Half)
  deriving DecidableEq, Repr

/-- One thing a handler does while it runs (R225, D17). -/
inductive HandlerAction where
  /-- invoke FRAME_TX -/
  | send (encoderId : Nat) (args : List Word)
  /-- change its own memory: write bytes to DATA -/
  | store (addr : Word) (bytes : List Byte)
  /-- read `n` bytes of `IN` from index `src` through a pointer word, and keep the copy in DATA at `dst` -/
  | copyIn (dst : Word) (src n : Nat)
  /-- request a shutdown, with a reason of its own or one of the block's three (DESIGN CHOICE, log 30) -/
  | raise (reason : Reason)
  deriving DecidableEq, Repr

/-- The configuration of one device (R8). No operation changes it. -/
structure Config where
  schema           : Schema
  crc              : CrcKind
  ridInvalidCommand : Half
  ridParserError    : Half
  ridEncodeError    : Half
  deriving DecidableEq, Repr

/-- `RID` (R241, D27): the 16-bit id of a reason. -/
def Config.rid (c : Config) : Reason → Half
  | .invalidCommand => c.ridInvalidCommand
  | .parserError    => c.ridParserError
  | .encodeError    => c.ridEncodeError
  | .other id       => id

/-- The test schema of 95_test_vectors.md section 4, which R8 names as the default. -/
def Schema.test : Schema where
  commandIndex :=
    [none, none,
     some { paramTypes := [], numArgs := 0, handler := some 2, inShutdown := true },
     none, none, none, none,
     some { paramTypes := [.uint32], numArgs := 1, handler := some 7, inShutdown := false },
     some { paramTypes := [.byte, .buffer], numArgs := 3, handler := some 8, inShutdown := false }]
  commandEncoders :=
    [{ msgId := 3, paramTypes := [.uint16], maxSize := 4 },
     { msgId := 9, paramTypes := [.uint32, .int16, .string], maxSize := 12 },
     { msgId := 10, paramTypes := [.buffer], maxSize := 6 }]
  encIsShutdown := 0

/-- The configuration State.reset carries: the defaults R8 names (DESIGN CHOICE, log 2). -/
def Config.default : Config where
  schema := Schema.test
  crc := .standard
  ridInvalidCommand := 1
  ridParserError := 2
  ridEncodeError := 3

/-! ### Free values: nothing is known of them -/

/-- The transport's answer to the `draw`-th unscripted `OutReserve(n)` (U11, log 5). -/
opaque Config.grantAnswer (draw n : Nat) : Bool

/-- What the handler of `cmdid` does when no run is scripted (D17, log 6). -/
opaque Config.handlerRun (draw : Nat) (cmdid : Byte) (args : List Word) (inline : List (List Byte)) :
    List HandlerAction

/-- Whether a shutdown raised in shutdown leaves the reason reported before it standing (U13; DESIGN CHOICE, log 7). -/
opaque Config.keepsFirstReason (draw : Nat) : Bool

/-- A CRC16 that is neither the default nor the reflected alternative (R104, log 8). -/
opaque Config.customCrc (k : Nat) (bytes : List Byte) : Half

end Sys2Proof
end

