-- ==== Sys2Proof/Syntax.lean ====
section
/-! DEFINITION. The instructions: one constructor per row of spec/opcode_table.json (30_encoding.md R88 for the nine
operations, R70 to R83 for the 23 wire forms), and the names of the wire forms. -/

namespace Sys2Proof

/-- The rows of spec/opcode_table.json. An operation carries its operands (R88); a wire form carries its fields. -/
inductive Instr where
  /-- CRC16(bytes), R100 -/
  | crc16 (bytes : List Byte)
  /-- VLQ_ENC(v), or in place VLQ_ENC(OUT, p, v) when `pos` is some `p`, R114 -/
  | vlqEnc (v : Word) (pos : Option Nat)
  /-- VLQ_DEC(s, p), or its bounded form when `bound` is some `end`, R110, R111 -/
  | vlqDec (bytes : List Byte) (p : Nat) (bound : Option Nat)
  /-- FRAME_RX(), R130 -/
  | frameRx
  /-- ACKNAK(), R167 -/
  | ackNak
  /-- FRAME_TX(encoder_id, args), R160 -/
  | frameTx (encoderId : Nat) (args : List Word)
  /-- PARSE(p, end, parser) on the current input view, R180 -/
  | parse (p stop : Nat) (parser : Parser)
  /-- ENCODE(t, args, OUT, p, cap_end) on the open reservation, R207 -/
  | encodeArg (t : ArgType) (args : List Word) (p capEnd : Nat)
  /-- POLL(), R220 -/
  | poll
  /-- FRAME, R70: the sequence number, the payload and the CRC field; LEN is 5 plus the payload's length (R71) -/
  | frame (seq : BitVec 4) (payload : List Byte) (crc : Half)
  /-- FRAME.LEN, R71 -/
  | frameLen (len : Byte)
  /-- FRAME.SEQ, R72 -/
  | frameSeq (seq : BitVec 4)
  /-- FRAME.CRC, R74 -/
  | frameCrc (crc : Half)
  /-- FRAME.SYNC, R75 -/
  | frameSync
  /-- ACK_NAK_FRAME, R83 -/
  | ackNakFrame (seq : BitVec 4) (crc : Half)
  /-- COMMAND, R76: MSG_ID and the argument bytes -/
  | command (msgId : Byte) (args : List Byte)
  /-- VLQ.LAST_BYTE, R77 -/
  | vlqLastByte (d : BitVec 7)
  /-- VLQ.CONT_BYTE, R77 -/
  | vlqContByte (d : BitVec 7)
  /-- VLQ.SIGN, R77: the continuation bit and the data bits below `11` -/
  | vlqSign (more : Bool) (d : BitVec 5)
  /-- VLQ1, R78 -/
  | vlq1 (v : BitVec 7)
  /-- VLQ2, R78 -/
  | vlq2 (v : BitVec 14)
  /-- VLQ3, R78 -/
  | vlq3 (v : BitVec 21)
  /-- VLQ4, R78 -/
  | vlq4 (v : BitVec 28)
  /-- VLQ5, R78 -/
  | vlq5 (v : BitVec 32)
  /-- ARG.uint32, R79: the bytes of one VLQ -/
  | argUint32 (vlq : List Byte)
  /-- ARG.int32, R79 -/
  | argInt32 (vlq : List Byte)
  /-- ARG.uint16, R79 -/
  | argUint16 (vlq : List Byte)
  /-- ARG.int16, R79 -/
  | argInt16 (vlq : List Byte)
  /-- ARG.byte, R79 -/
  | argByte (vlq : List Byte)
  /-- ARG.buffer, R80: the data bytes after the length byte -/
  | argBuffer (data : List Byte)
  /-- ARG.string, R81: the characters after the length byte -/
  | argString (data : List Byte)
  /-- ARG.progmem_buffer, R82: the data bytes after the length byte -/
  | argProgmemBuffer (data : List Byte)
  deriving DecidableEq, Repr

/-- The wire forms: what the bytes of a presented form are to be read as (R87: the bytes alone do not say). -/
inductive Form where
  | frame | frameLen | frameSeq | frameCrc | frameSync | ackNakFrame | command
  | vlqLastByte | vlqContByte | vlqSign | vlq1 | vlq2 | vlq3 | vlq4 | vlq5
  | argUint32 | argInt32 | argUint16 | argInt16 | argByte | argBuffer | argString | argProgmemBuffer
  deriving DecidableEq, Repr

/-- The wire form an instruction is written in; an operation has none (R88). -/
def Instr.form? : Instr → Option Form
  | .crc16 _            => none
  | .vlqEnc _ _         => none
  | .vlqDec _ _ _       => none
  | .frameRx            => none
  | .ackNak             => none
  | .frameTx _ _        => none
  | .parse _ _ _        => none
  | .encodeArg _ _ _ _  => none
  | .poll               => none
  | .frame _ _ _        => some .frame
  | .frameLen _         => some .frameLen
  | .frameSeq _         => some .frameSeq
  | .frameCrc _         => some .frameCrc
  | .frameSync          => some .frameSync
  | .ackNakFrame _ _    => some .ackNakFrame
  | .command _ _        => some .command
  | .vlqLastByte _      => some .vlqLastByte
  | .vlqContByte _      => some .vlqContByte
  | .vlqSign _ _        => some .vlqSign
  | .vlq1 _             => some .vlq1
  | .vlq2 _             => some .vlq2
  | .vlq3 _             => some .vlq3
  | .vlq4 _             => some .vlq4
  | .vlq5 _             => some .vlq5
  | .argUint32 _        => some .argUint32
  | .argInt32 _         => some .argInt32
  | .argUint16 _        => some .argUint16
  | .argInt16 _         => some .argInt16
  | .argByte _          => some .argByte
  | .argBuffer _        => some .argBuffer
  | .argString _        => some .argString
  | .argProgmemBuffer _ => some .argProgmemBuffer

end Sys2Proof
end

