-- ==== Sys2Proof/WellFormed.lean ====
section
/-! DEFINITION. Well-formedness: the six conditions on a schema (20_memory.md R50) and, per instruction, the range of
its operands or fields (30_encoding.md R70 to R83, and the operand lists of the operations). -/

namespace Sys2Proof

/-- The five integer types (R51). -/
def ArgType.isInt : ArgType → Bool
  | .uint32        => true
  | .int32         => true
  | .uint16        => true
  | .int16         => true
  | .byte          => true
  | .string        => false
  | .buffer        => false
  | .progmemBuffer => false
  | .unknown _     => false

/-- The words of ARGS a parameter fills: one for an integer, two for a buffer (R27). -/
def ArgType.argWords (t : ArgType) : Nat :=
  if t.isInt then 1 else if t = .buffer then 2 else 0

/-- R50(c) and (d). A parser that lists an encode-only or unknown type is well-formed (R50(b)). -/
def Parser.wf (p : Parser) : Bool :=
  p.numArgs == (p.paramTypes.map ArgType.argWords).sum && p.handler.isSome

/-- R50(e). -/
def Encoder.wf (e : Encoder) : Bool :=
  decide (1 ≤ e.maxSize) && decide (e.maxSize ≤ 59)

/-- R50 (a) to (f). -/
def Schema.wf (s : Schema) : Bool :=
  decide (s.commandIndex.length ≤ 256)
    && s.commandIndex.all (fun o => match o with | none => true | some p => p.wf)
    && s.commandEncoders.all Encoder.wf
    && match s.commandEncoders[s.encIsShutdown]? with
       | none => false
       | some e => e.paramTypes == [.uint16]

/-- The configuration check of R50: "a model should check once at configuration time and refuse a schema that fails". -/
def Config.wf (c : Config) : Bool := c.schema.wf

/-- The bytes of one VLQ: bit 7 set on all but the last (R77). -/
def isVlq : List Byte → Bool
  | []      => false
  | [b]     => !b.msb
  | b :: bs => b.msb && isVlq bs

/-- The signed value of `k` seven-bit groups read as one number: negative when the two top bits are both 1 (R78). -/
def groupsValue (k v : Nat) : Int :=
  if 3 * 2 ^ (7 * k - 2) ≤ v then (v : Int) - 2 ^ (7 * k) else v

/-- A value of the row of R78 with `k` bytes: `-2^(7k-2) … 3·2^(7k-2) - 1`. -/
def inVlqRow (k : Nat) (x : Int) : Bool :=
  decide (-(2 ^ (7 * k - 2) : Int) ≤ x) && decide (x < 3 * 2 ^ (7 * k - 2))

/-- An instruction whose operands or fields are in the range the spec gives them. For VLQ2 to VLQ5 this is the range
of R78, "outside the rows above". -/
def Instr.wf : Instr → Bool
  | .crc16 _            => true
  | .vlqEnc _ _         => true
  | .vlqDec bs p bound  => decide (p ≤ bs.length) && match bound with | none => true | some e => decide (e ≤ bs.length)
  | .frameRx            => true
  | .ackNak             => true
  | .frameTx _ _        => true
  | .parse p stop _     => decide (2 < p) && decide (p ≤ stop) && decide (stop ≤ 61)
  | .encodeArg _ _ p c  => decide (3 ≤ p) && decide (p ≤ c) && decide (c ≤ 61)
  | .poll               => true
  | .frame _ payload _  => decide (payload.length ≤ 59)
  | .frameLen len       => decide (messageMin ≤ len.toNat) && decide (len.toNat ≤ messageMax)
  | .frameSeq _         => true
  | .frameCrc _         => true
  | .frameSync          => true
  | .ackNakFrame _ _    => true
  | .command _ args     => decide (args.length ≤ 58)
  | .vlqLastByte _      => true
  | .vlqContByte _      => true
  | .vlqSign _ _        => true
  | .vlq1 _             => true
  | .vlq2 v             => !inVlqRow 1 (groupsValue 2 v.toNat)
  | .vlq3 v             => !inVlqRow 2 (groupsValue 3 v.toNat)
  | .vlq4 v             => !inVlqRow 3 (groupsValue 4 v.toNat)
  | .vlq5 v             => !inVlqRow 4 v.toInt
  | .argUint32 vlq      => isVlq vlq
  | .argInt32 vlq       => isVlq vlq
  | .argUint16 vlq      => isVlq vlq
  | .argInt16 vlq       => isVlq vlq
  | .argByte vlq        => isVlq vlq
  | .argBuffer data     => decide (data.length ≤ 255)
  | .argString data     => decide (data.length ≤ 255) && data.all (fun b => b != 0)
  | .argProgmemBuffer d => decide (d.length ≤ 255)

end Sys2Proof
end

