-- ==== Sys2Proof/Decode.lean ====
section
/-! DEFINITION. Reading the wire forms from bytes and writing them (30_encoding.md R70 to R83). The bytes alone do not
say which form they are (R87), so the decoder is told the form; `classify` names the most specific form of a bare
byte list, for a reader that has the bytes only (log 18). The operations have no bit pattern (R88). -/

namespace Sys2Proof

/-- Why bytes are not of the form they are to be read as. -/
inductive DecodeError where
  | tooShort        -- the bytes end before the form does
  | badLength       -- LEN outside 5 to 64 (R71)
  | badTag          -- (SEQ and 0xF0) is not 0x10 (R72)
  | badSync         -- the byte at LEN-1 is not 0x7E (R75)
  | notEmptyPayload -- an ACK_NAK_FRAME whose LEN is not 5 (R83)
  | badPattern      -- a fixed bit of the form differs (R77, R78)
  | trailing        -- bytes are left after the form
  deriving DecidableEq, Repr

/-! ### Fields -/

/-- `(SEQ and 0xF0) == 0x10` (R72). -/
def tagOk (b : Byte) : Bool := b &&& 0xF0#8 == destTag

/-- The SEQ byte of a sequence number: `0x10 | n` (R72). -/
def seqByte (n : BitVec 4) : Byte := destTag ||| n.setWidth 8

/-- Bits 15:8 of the CRC, sent first (R74). -/
def hiByte (c : Half) : Byte := (c >>> 8).setWidth 8

/-- Bits 7:0 of the CRC (R74). -/
def loByte (c : Half) : Byte := c.setWidth 8

/-- `(hi << 8) | lo`, both bytes unsigned (R52, R137). -/
def halfOf (hi lo : Byte) : Half := (hi.setWidth 16 <<< 8) ||| lo.setWidth 16

/-- Seven-bit group `i` of a value, counted from the low end (R78). -/
def group7 {w : Nat} (v : BitVec w) (i : Nat) : Byte := (v >>> (7 * i)).setWidth 8 &&& 0x7F#8

/-- The low `k` groups of a value, most significant first, bit 7 set on all but the last (R77, R78, R114). -/
def groupBytes {w : Nat} (v : BitVec w) : Nat → List Byte
  | 0     => []
  | 1     => [group7 v 0]
  | k + 2 => (group7 v (k + 1) ||| 0x80#8) :: groupBytes v (k + 1)

/-- The groups of bytes joined, most significant first. -/
def joinGroups (w : Nat) (bs : List Byte) : BitVec w :=
  bs.foldl (fun acc b => (acc <<< 7) ||| (b &&& 0x7F#8).setWidth w) 0

/-! ### Encoding -/

/-- The bytes of a length-prefixed form (R80 to R82). Of data above 255 bytes, which is no well-formed form, the length
byte is the length modulo 256 (DESIGN CHOICE, log 34). -/
def lengthPrefixed (data : List Byte) : List Byte := BitVec.ofNat 8 data.length :: data

/-- The bytes of a frame (R70): LEN, SEQ, payload, CRC high byte first, SYNC. Of a payload above 59 bytes, which is no
well-formed frame, LEN is the length modulo 256 (DESIGN CHOICE, log 34). -/
def frameBytes (seq : Byte) (payload : List Byte) (crc : Half) : List Byte :=
  BitVec.ofNat 8 (payload.length + 5) :: seq :: (payload ++ [hiByte crc, loByte crc, syncByte])

/-- The bytes of a wire form; an operation has none (R88). -/
def encode : Instr → List Byte
  | .crc16 _             => []
  | .vlqEnc _ _          => []
  | .vlqDec _ _ _        => []
  | .frameRx             => []
  | .ackNak              => []
  | .frameTx _ _         => []
  | .parse _ _ _         => []
  | .encodeArg _ _ _ _   => []
  | .poll                => []
  | .frame n payload crc => frameBytes (seqByte n) payload crc
  | .frameLen len        => [len]
  | .frameSeq n          => [seqByte n]
  | .frameCrc crc        => [hiByte crc, loByte crc]
  | .frameSync           => [syncByte]
  | .ackNakFrame n crc   => frameBytes (seqByte n) [] crc
  | .command id args     => id :: args
  | .vlqLastByte d       => [d.setWidth 8]
  | .vlqContByte d       => [0x80#8 ||| d.setWidth 8]
  | .vlqSign more d      => [(if more then 0xE0#8 else 0x60#8) ||| d.setWidth 8]
  | .vlq1 v              => groupBytes v 1
  | .vlq2 v              => groupBytes v 2
  | .vlq3 v              => groupBytes v 3
  | .vlq4 v              => groupBytes v 4
  | .vlq5 v              => groupBytes v 5
  | .argUint32 vlq       => vlq
  | .argInt32 vlq        => vlq
  | .argUint16 vlq       => vlq
  | .argInt16 vlq        => vlq
  | .argByte vlq         => vlq
  | .argBuffer data      => lengthPrefixed data
  | .argString data      => lengthPrefixed data
  | .argProgmemBuffer d  => lengthPrefixed d

/-! ### Decoding -/

/-- What a decoder answers: the instruction and the bytes after it, or the reason the bytes are not of the form. -/
abbrev Decoded := Except DecodeError (Instr × List Byte)

/-- One byte that satisfies a test (R71, R72, R75, R77). -/
def decodeByte (e : DecodeError) (ok : Byte → Bool) (mk : Byte → Instr) : List Byte → Decoded
  | []      => .error .tooShort
  | b :: bs => if ok b then .ok (mk b, bs) else .error e

/-- A whole frame (R70): LEN, tag, completeness, SYNC, in FRAME_RX's order (R251). The CRC field is taken as it
stands; whether it matches is FRAME_RX's test (R137). -/
def decodeFrame (mk : BitVec 4 → List Byte → Half → Instr) : List Byte → Decoded
  | l :: s :: rest =>
    if l.toNat < messageMin || messageMax < l.toNat then .error .badLength
    else if !tagOk s then .error .badTag
    else
      match rest.drop (l.toNat - 5) with
      | hi :: lo :: sync :: after =>
        if sync == syncByte then .ok (mk (s.setWidth 4) (rest.take (l.toNat - 5)) (halfOf hi lo), after)
        else .error .badSync
      | _ => .error .tooShort
  | _ => .error .tooShort

/-- A frame whose LEN is 5 (R83). -/
def decodeAckNak : List Byte → Decoded
  | []      => .error .tooShort
  | l :: bs =>
    if l == 5#8 then decodeFrame (fun n _ crc => .ackNakFrame n crc) (l :: bs) else .error .notEmptyPayload

/-- A canonical VLQ row of `k` bytes (R78): the continuation bits as the row shows them. -/
def decodeVlqRow (k : Nat) (mk : List Byte → Instr) (bs : List Byte) : Decoded :=
  if bs.length < k then .error .tooShort
  else if isVlq (bs.take k) then .ok (mk (bs.take k), bs.drop k)
  else .error .badPattern

/-- VLQ5: the row's first byte has bits 6:4 clear (R78). -/
def decodeVlq5 : List Byte → Decoded
  | []      => .error .tooShort
  | b :: bs =>
    if b &&& 0x70#8 == 0 then decodeVlqRow 5 (fun gs => .vlq5 (joinGroups 32 gs)) (b :: bs) else .error .badPattern

/-- Bytes up to and including the first whose bit 7 is clear (R87). -/
def splitVlq : List Byte → Option (List Byte × List Byte)
  | []      => none
  | b :: bs =>
    if b.msb then
      match splitVlq bs with
      | none         => none
      | some (v, r)  => some (b :: v, r)
    else some ([b], bs)

/-- An integer argument: one VLQ (R79). -/
def decodeVlqArg (mk : List Byte → Instr) (bs : List Byte) : Decoded :=
  match splitVlq bs with
  | none        => .error .tooShort
  | some (v, r) => .ok (mk v, r)

/-- A length byte, then that many bytes (R80 to R82). -/
def decodePrefixed (mk : List Byte → Instr) : List Byte → Decoded
  | []      => .error .tooShort
  | n :: bs => if bs.length < n.toNat then .error .tooShort else .ok (mk (bs.take n.toNat), bs.drop n.toNat)

/-- Two CRC bytes, high first (R74). -/
def decodeCrc : List Byte → Decoded
  | hi :: lo :: bs => .ok (.frameCrc (halfOf hi lo), bs)
  | _              => .error .tooShort

/-- A command stores no length (R76, R87): it is all the bytes it is given. -/
def decodeCommand : List Byte → Decoded
  | []         => .error .tooShort
  | id :: args => .ok (.command id args, [])

/-- Reads bytes as the wire form `f`: total on any bytes, rejecting by name. -/
def decodeAs (f : Form) (bs : List Byte) : Decoded :=
  match f with
  | .frame       => decodeFrame .frame bs
  | .frameLen    =>
    decodeByte .badLength (fun b => decide (messageMin ≤ b.toNat) && decide (b.toNat ≤ messageMax)) .frameLen bs
  | .frameSeq    => decodeByte .badTag tagOk (fun b => .frameSeq (b.setWidth 4)) bs
  | .frameCrc    => decodeCrc bs
  | .frameSync   => decodeByte .badSync (fun b => b == syncByte) (fun _ => .frameSync) bs
  | .ackNakFrame => decodeAckNak bs
  | .command     => decodeCommand bs
  | .vlqLastByte => decodeByte .badPattern (fun b => !b.msb) (fun b => .vlqLastByte (b.setWidth 7)) bs
  | .vlqContByte => decodeByte .badPattern (fun b => b.msb) (fun b => .vlqContByte (b.setWidth 7)) bs
  | .vlqSign     =>
    decodeByte .badPattern (fun b => b &&& 0x60#8 == 0x60#8) (fun b => .vlqSign b.msb (b.setWidth 5)) bs
  | .vlq1        => decodeVlqRow 1 (fun gs => .vlq1 (joinGroups 7 gs)) bs
  | .vlq2        => decodeVlqRow 2 (fun gs => .vlq2 (joinGroups 14 gs)) bs
  | .vlq3        => decodeVlqRow 3 (fun gs => .vlq3 (joinGroups 21 gs)) bs
  | .vlq4        => decodeVlqRow 4 (fun gs => .vlq4 (joinGroups 28 gs)) bs
  | .vlq5        => decodeVlq5 bs
  | .argUint32   => decodeVlqArg .argUint32 bs
  | .argInt32    => decodeVlqArg .argInt32 bs
  | .argUint16   => decodeVlqArg .argUint16 bs
  | .argInt16    => decodeVlqArg .argInt16 bs
  | .argByte     => decodeVlqArg .argByte bs
  | .argBuffer   => decodePrefixed .argBuffer bs
  | .argString   => decodePrefixed .argString bs
  | .argProgmemBuffer => decodePrefixed .argProgmemBuffer bs

/-! ### Bare bytes (log 18) -/

/-- The most specific form a single bare byte has (R71, R72, R75, R77, R90). -/
def classifyByte (b : Byte) : Form :=
  if b == syncByte then .frameSync
  else if tagOk b then .frameSeq
  else if b &&& 0x60#8 == 0x60#8 then .vlqSign
  else if b.msb then .vlqContByte
  else .vlq1

/-- The form a bare byte list is read as: the VLQ row it fits, else a whole frame, else the CRC pair, else a command. -/
def classify (bs : List Byte) : Form :=
  match bs with
  | [b]             => classifyByte b
  | [_, _]          => if isVlq bs then .vlq2 else .frameCrc
  | [_, _, _]       => if isVlq bs then .vlq3 else .command
  | [_, _, _, _]    => if isVlq bs then .vlq4 else .command
  | b :: _ :: _ :: _ :: _ :: _ =>
    if bs.length == 5 && b == 5#8 then .ackNakFrame
    else if bs.length == 5 && isVlq bs then .vlq5
    else if b.toNat == bs.length then .frame
    else .command
  | []              => .command

/-- An instruction of `nbits` bits as the table numbers it: one number, its most significant byte first on the wire
(R52, 98_reader.md). -/
def wordBytes (nbits w : Nat) : List Byte :=
  (List.range ((nbits + 7) / 8)).reverse.map fun i => BitVec.ofNat 8 (w / 2 ^ (8 * i))

/-- The instruction the decoder reads from the table word `w`, when the bytes hold one instruction and no more. -/
def decodeTableWord (nbits w : Nat) : Option Instr :=
  match decodeAs (classify (wordBytes nbits w)) (wordBytes nbits w) with
  | .ok (i, []) => some i
  | .ok (_, _ :: _) => none
  | .error _ => none

end Sys2Proof
end

