-- ==== Sys2Proof/Machine/State.lean ====
section
/-! DEFINITION. The state of the block and of what it is connected to, as plain data (10_state.md R20 to R33), the
faults and refusals, the moves of the outside world (20_memory.md R57), the events (00_scope.md R11), the result of a
call, and the state after reset (R33, R281). -/

namespace Sys2Proof.Machine

/-- A fault: the machine stops. Each is safe: the model stops where the spec says a read has no value. -/
inductive Fault where
  /-- A pointer word read after the POLL that produced it (R292, U15). Raised by the move `usePointer`. Safe. -/
  | deadPointer
  /-- A handler read `IN` outside the inline bytes its pointer words name (R225). Raised by a handler's `copyIn`. Safe. -/
  | pointerOutsideInline
  /-- DATA or PROGMEM accessed at 2^32 or above, where no address word reaches (R43, log 10). Raised by ENCODE, by
  a handler's `store` and `copyIn` and by the move `store`. Safe. -/
  | addressOutsideSpace
  deriving DecidableEq, Repr

/-- A refusal: the call or the configuration is outside the domain the spec gives it a meaning on. Each is safe. -/
inductive Refusal where
  /-- An instruction without a meaning yet. Raised by `exec`'s refused arms only. Safe. -/
  | notModelled (mnemonic : String)
  /-- The schema fails R50 (U8). Raised by the step, before anything else. Safe. -/
  | schemaIllFormed
  /-- `encoder_id >= M` (R170, U8). Raised by FRAME_TX. Safe. -/
  | noSuchEncoder
  /-- A buffer length above 255 given to the encoder (R204, U7). Raised by ENCODE and FRAME_TX. Safe. -/
  | bufferTooLong
  /-- The argument list is shorter than the parameter types ask for (R207, D16). Raised by ENCODE and FRAME_TX. Safe. -/
  | argumentMissing
  /-- An unbounded VLQ_DEC on a list that ends while the continuation bit is set (U1, log 24). Raised by VLQ_DEC and by
  the VLQ forms presented with such bytes. Safe. -/
  | vlqRunsOffList
  /-- A byte read past the end of the sequence or view and below the bound, which no rule gives a value: such a read
  "never happens under the rules of this spec" (R41), and a VLQ that runs off its list has no result (U1). Raised by
  VLQ_DEC bounded and PARSE called alone. Safe. -/
  | readPastView
  /-- An in-place write with no reservation open (R46). Raised by ENCODE and VLQ_ENC called alone. Safe. -/
  | noReservation
  /-- An in-place write past the reservation, which the caller must exclude (R42, R114). Raised by ENCODE and VLQ_ENC
  called alone. Safe. -/
  | outsideReservation
  deriving DecidableEq, Repr

/-- DATA or PROGMEM (R40, R43): the listed bytes, addresses strictly rising, no listed byte 0x00; an unlisted address
reads 0x00 (DESIGN CHOICE, log 9). -/
abbrev Memory := List Host.Cell

/-- The observable events (R11). -/
inductive Event where
  | pop (n : Nat)
  | commit (bytes : List Byte)
  | drop
  | dispatch (cmdid : Byte) (args : List Word) (inline : List (List Byte))
  | shutdown (reason : Reason)
  deriving DecidableEq, Repr

/-- What a call returned (R10: `return x` ends an operation with result `x`). The model's own field (log 3). -/
inductive Result where
  /-- nothing called yet, or an operation whose result is empty -/
  | none
  /-- CRC16 -/
  | crc (c : Half)
  /-- VLQ_ENC -/
  | bytes (bs : List Byte)
  /-- VLQ_DEC: the value and the cursor after it -/
  | vlq (v : Word) (p : Nat)
  /-- ENCODE, VLQ_ENC in place, one command: the cursor after it -/
  | cursor (p : Nat)
  /-- FRAME_RX: a frame -/
  | frame (msglen : Nat)
  /-- FRAME_RX: none -/
  | noFrame
  /-- PARSE: the cursor and ARGS -/
  | parsed (p : Nat) (args : List Word)
  /-- PARSE: skip -/
  | skip
  /-- what VLQ_DEC reads from one byte: the accumulator it seeds as a first byte, its seven data bits, whether
  another byte follows -/
  | vlqByte (seed : Word) (data : BitVec 7) (more : Bool)
  /-- the operation ended in a shutdown and returned nothing -/
  | shutdown (reason : Reason)
  deriving DecidableEq, Repr

/-- A move of the world around the block: what happens next (R57, R285, log 1). -/
inductive Move where
  /-- an operation is called (R57(a), (b)), or a wire form is executed -/
  | call (i : Instr)
  /-- bytes are presented to the reader of a wire form, to be decoded and executed (logs 14, 33) -/
  | present (f : Form) (bytes : List Byte)
  /-- the transport appends received bytes to the input FIFO -/
  | arrive (bytes : List Byte)
  /-- the transport drains committed bytes from the output FIFO -/
  | drain (n : Nat)
  /-- the shutdown subsystem changes its flag and its reason -/
  | setShutdown (on : Bool) (reason : Half)
  /-- a firmware task writes its own memory -/
  | store (addr : Word) (bytes : List Byte)
  /-- a firmware task calls OutReserve and keeps the reservation open (R46) -/
  | reserve (n : Nat)
  /-- a firmware task reads `IN` through a pointer word it kept (R292) -/
  | usePointer (p : Nat)
  deriving DecidableEq, Repr

/-- Everything the spec gives the machine, and the model's own fields, each named in INVENTORY.md. -/
structure State where
  /-- `NEXT_SEQ` (R21) -/
  nextSeq        : Byte
  /-- `NEED_SYNC` (R22) -/
  needSync       : Bool
  /-- `NEED_VALID` (R23) -/
  needValid      : Bool
  /-- the input FIFO, oldest byte first (R41) -/
  input          : List Byte
  /-- the committed bytes the transport has not drained (R47) -/
  output         : List Byte
  /-- the open reservation `OUT` (R29(b), R42) -/
  reservation    : Option (List Byte)
  /-- what `IsShutdown()` answers (R240) -/
  shutdown       : Bool
  /-- what `ShutdownReason()` answers (R241) -/
  shutdownReason : Half
  /-- the callers' memory (R43) -/
  data           : Memory
  /-- the read-only memory (R43) -/
  progmem        : Memory
  /-- the configuration (R8, R31), which no step changes (log 2) -/
  config         : Config
  /-- what the last call returned (log 3) -/
  result         : Result
  /-- the events so far, oldest first (R11) -/
  trace          : List Event
  /-- the outside world's next moves; when empty, the scheduler polls (log 1) -/
  agenda         : List Move
  /-- the transport's answers to the next OutReserve calls (U11, log 5) -/
  grants         : List Bool
  /-- what the next dispatched handlers do (D17, log 6) -/
  handlerRuns    : List (List HandlerAction)
  /-- the counter the free values are applied to (log 28) -/
  draws          : Nat
  deriving DecidableEq, Repr

/-- The machine right after reset (R33, R281; the values of what the block does not own: logs 2, 9, 12, 28). -/
def State.reset : State where
  nextSeq := 0x10
  needSync := false
  needValid := false
  input := []
  output := []
  reservation := none
  shutdown := false
  shutdownReason := 0
  data := []
  progmem := []
  config := Config.default
  result := .none
  trace := []
  agenda := []
  grants := []
  handlerRuns := []
  draws := 0

end Sys2Proof.Machine
end

