-- ==== Sys2Proof/Machine/Memory.lean ====
section
/-! DEFINITION. DATA and PROGMEM (20_memory.md R43): byte memories addressed by a 32-bit word, kept as a list of cells
in one canonical form. -/

namespace Sys2Proof.Machine

/-- What an address that is not listed reads as (DESIGN CHOICE, log 9). -/
def Memory.unlisted : Byte := 0

/-- The number of addresses a 32-bit word reaches. -/
def Memory.size : Nat := 2 ^ 32

/-- The byte at an address, listed or not. -/
def Memory.get : Memory → Nat → Byte
  | [], _ => Memory.unlisted
  | (a, b) :: m, x => if x = a then b else Memory.get m x

/-- Reading one byte; an address past the space has none (log 10). -/
def Memory.read (m : Memory) (x : Nat) : Option Byte :=
  if x < Memory.size then some (Memory.get m x) else none

/-- Writing one byte, keeping the addresses rising and listing no byte equal to `Memory.unlisted`. -/
def Memory.set : Memory → Nat → Byte → Memory
  | [], x, v => if v = Memory.unlisted then [] else [(x, v)]
  | (a, b) :: m, x, v =>
    if x < a then (if v = Memory.unlisted then (a, b) :: m else (x, v) :: (a, b) :: m)
    else if x = a then (if v = Memory.unlisted then m else (x, v) :: m)
    else (a, b) :: Memory.set m x v

/-- Writing consecutive bytes; `none` if any address is past the space, and then nothing is written. -/
def Memory.write (m : Memory) (x : Nat) (bs : List Byte) : Option Memory :=
  if x + bs.length ≤ Memory.size then
    some ((bs.zipIdx x).foldl (fun acc c => Memory.set acc c.2 c.1) m)
  else none

/-- Every listed address is at least `lo`, they rise strictly, are inside the space, and no listed byte is the
unlisted one. -/
def Memory.wfFrom (lo : Nat) : Memory → Bool
  | [] => true
  | (a, b) :: m => decide (lo ≤ a) && decide (a < Memory.size) && b != Memory.unlisted && Memory.wfFrom (a + 1) m

/-- The canonical form. -/
def Memory.wf (m : Memory) : Bool := Memory.wfFrom 0 m

end Sys2Proof.Machine
end

