-- ==== Sys2Proof/Machine/Operands.lean ====
section
/-! DEFINITION. The pure part of the block: CRC16 (40_crc.md), the VLQ codec (41_vlq.md), the frame functions
(30_encoding.md R84), the operand forms an encode takes (45_command_encode.md R200 to R208) and the parameter loop of
a parse (44_command_parse.md R182 to R187). Nothing here reads or writes a register. -/

namespace Sys2Proof.Machine

/-- Why a pure operation has no result: the shutdown its caller raises, a fault, or a refusal. -/
inductive Stop where
  | shutdown (r : Reason)
  | fault (f : Fault)
  | refused (r : Refusal)
  deriving DecidableEq, Repr

/-- `s[i]`. Under the rules no read is out of bounds (R41); there the value is 0. -/
def byteAt (s : List Byte) (i : Nat) : Byte := s.getD i 0

/-! ### CRC16 -/

/-- One inner step of R100: the register shifts left, most significant bit first. -/
def crcShift (c : Half) : Half := if c.msb then (c <<< 1) ^^^ 0x1021#16 else c <<< 1

/-- `n` inner steps. -/
def crcShifts : Nat → Half → Half
  | 0, c     => c
  | n + 1, c => crcShifts n (crcShift c)

/-- One byte of R100. -/
def crcByte (c : Half) (b : Byte) : Half := crcShifts 8 (c ^^^ (b.setWidth 16 <<< 8))

/-- R100: initial value 0xFFFF, no final XOR (PRESUMED polynomial 0x1021, log 8). -/
def crcStandard (bytes : List Byte) : Half := bytes.foldl crcByte crcInit

/-- One inner step of the reflected alternative (R104; PRESUMED, log 8). -/
def crcShiftReflected (c : Half) : Half := if c.getLsbD 0 then (c >>> 1) ^^^ 0x8408#16 else c >>> 1

/-- `n` inner steps of the reflected alternative. -/
def crcShiftsReflected : Nat → Half → Half
  | 0, c     => c
  | n + 1, c => crcShiftsReflected n (crcShiftReflected c)

/-- The reflected alternative: each byte enters least significant bit first (R104). -/
def crcReflected (bytes : List Byte) : Half :=
  bytes.foldl (fun c b => crcShiftsReflected 8 (c ^^^ b.setWidth 16)) crcInit

/-- CRC16 as the device is configured (R104). -/
def crc16 (k : CrcKind) (bytes : List Byte) : Half :=
  match k with
  | .standard  => crcStandard bytes
  | .reflected => crcReflected bytes
  | .custom n  => Config.customCrc n bytes

/-! ### The VLQ codec -/

/-- VLQ_LEN (R115), on the signed reading of `v`. -/
def vlqLen (v : Word) : Nat :=
  if -32 ≤ v.toInt ∧ v.toInt < 96 then 1
  else if -4096 ≤ v.toInt ∧ v.toInt < 12288 then 2
  else if -524288 ≤ v.toInt ∧ v.toInt < 1572864 then 3
  else if -67108864 ≤ v.toInt ∧ v.toInt < 201326592 then 4
  else 5

/-- VLQ_ENC (R114): VLQ_LEN(v) groups, most significant first. -/
def vlqEnc (v : Word) : List Byte := groupBytes v (vlqLen v)

/-- Bit 7 of a VLQ byte: another byte follows (R77, R90). -/
def vlqMore (c : Byte) : Bool := c &&& 0x80#8 != 0#8

/-- The accumulator after a first byte: seven data bits, filled with ones when bits 6:5 are both 1 (R110). -/
def vlqSeed (c : Byte) : Word :=
  if c &&& 0x60#8 == 0x60#8 then (c &&& 0x7F#8).setWidth 32 ||| 0xFFFFFFE0#32 else (c &&& 0x7F#8).setWidth 32

/-- The accumulator after a later byte, modulo 2^32 (R110, R118). -/
def vlqShiftIn (v : Word) (c : Byte) : Word := (v <<< 7) ||| (c &&& 0x7F#8).setWidth 32

/-- The loop of R110 after a byte with bit 7 set; the count is of the bytes consumed. -/
def vlqRest (v : Word) (n : Nat) : List Byte → Option (Word × Nat)
  | []      => none
  | c :: cs => if vlqMore c then vlqRest (vlqShiftIn v c) (n + 1) cs else some (vlqShiftIn v c, n + 1)

/-- VLQ_DEC (R110, R111) on the bytes from the cursor to the bound: the value and the number of bytes consumed, `none`
when the bound is met before a byte with bit 7 clear. -/
def vlqDec : List Byte → Option (Word × Nat)
  | []      => none
  | c :: cs => if vlqMore c then vlqRest (vlqSeed c) 1 cs else some (vlqSeed c, 1)

/-! ### Frames -/

/-- `BuildFrame(payload, seq)` (R84), for the configured CRC16. -/
def buildFrame (k : CrcKind) (payload : List Byte) (seq : Byte) : List Byte :=
  frameBytes seq payload (crc16 k (BitVec.ofNat 8 (payload.length + 5) :: seq :: payload))

/-- The CRC field of the frame at the head of `b`: offsets LEN-3 and LEN-2, high byte first, unsigned (R52, R137). -/
def frameCrcField (b : List Byte) : Half :=
  halfOf (byteAt b ((byteAt b 0).toNat - 3)) (byteAt b ((byteAt b 0).toNat - 2))

/-- The CRC computed over the first `LEN - 3` bytes (R74, R102). -/
def frameCrcComputed (k : CrcKind) (b : List Byte) : Half := crc16 k (b.take ((byteAt b 0).toNat - 3))

/-- LEN is in 5 to 64 (R71, R133). -/
def lenOk (b : List Byte) : Bool := decide (messageMin ≤ (byteAt b 0).toNat) && decide ((byteAt b 0).toNat ≤ messageMax)

/-- `FrameValid(b)` (R84). -/
def frameValid (k : CrcKind) (b : List Byte) : Bool :=
  decide (messageMin ≤ b.length) && lenOk b && tagOk (byteAt b 1) && decide ((byteAt b 0).toNat ≤ b.length)
    && byteAt b ((byteAt b 0).toNat - 1) == syncByte
    && frameCrcComputed k b == frameCrcField b

/-! ### Encode -/

/-- `take()` (R208). -/
def takeWord : List Word → Except Stop (Word × List Word)
  | []      => .error (.refused .argumentMissing)
  | w :: ws => .ok (w, ws)

/-- The tail of R201 and R202: the VLQ whole, or "Message encode error" (R200). -/
def encodeVlq (v : Word) (rest : List Word) (p capEnd : Nat) : Except Stop (List Byte × List Word) :=
  if capEnd < p + vlqLen v then .error (.shutdown .encodeError) else .ok (vlqEnc v, rest)

/-- The characters of a string: up to `room` of them, stopping at a NUL; the byte past the room is not read (R203). -/
def readString (m : Memory) : Nat → Nat → Except Stop (List Byte)
  | 0, _        => .ok []
  | room + 1, a =>
    match m.read a with
    | none   => .error (.fault .addressOutsideSpace)
    | some b =>
      if b = 0 then .ok []
      else match readString m room (a + 1) with
        | .ok bs   => .ok (b :: bs)
        | .error e => .error e

/-- `n` bytes from address `a` (R204, R205). -/
def readBytes (m : Memory) : Nat → Nat → Except Stop (List Byte)
  | 0, _     => .ok []
  | n + 1, a =>
    match m.read a with
    | none   => .error (.fault .addressOutsideSpace)
    | some b =>
      match readBytes m n (a + 1) with
      | .ok bs   => .ok (b :: bs)
      | .error e => .error e

/-- `string` (R203). -/
def encodeString (m : Memory) (args : List Word) (p capEnd : Nat) : Except Stop (List Byte × List Word) :=
  match takeWord args with
  | .error e => .error e
  | .ok (a, rest) =>
    if capEnd < p + 1 then .error (.shutdown .encodeError)
    else match readString m (capEnd - (p + 1)) a.toNat with
      | .error e => .error e
      | .ok bs   => .ok (lengthPrefixed bs, rest)

/-- `buffer` and `progmem_buffer` (R204, R205): the length, then the address; a length above 255 is refused (U7). -/
def encodeBuffer (m : Memory) (args : List Word) (p capEnd : Nat) : Except Stop (List Byte × List Word) :=
  match takeWord args with
  | .error e => .error e
  | .ok (n, rest) =>
    match takeWord rest with
    | .error e => .error e
    | .ok (a, rest') =>
      if 255 < n.toNat then .error (.refused .bufferTooLong)
      else if capEnd < p + 1 then .error (.shutdown .encodeError)
      else match readBytes m (min n.toNat (capEnd - (p + 1))) a.toNat with
        | .error e => .error e
        | .ok bs   => .ok (lengthPrefixed bs, rest')

/-- The 16-bit mask of R202. -/
def mask16 (v : Word) : Word := v &&& 0xFFFF#32

/-- `uint32` and `int32` (R201). -/
def encodeFull (args : List Word) (p capEnd : Nat) : Except Stop (List Byte × List Word) :=
  match takeWord args with
  | .error e      => .error e
  | .ok (v, rest) => encodeVlq v rest p capEnd

/-- `uint16`, `int16` and `byte` (R202). -/
def encodeShort (args : List Word) (p capEnd : Nat) : Except Stop (List Byte × List Word) :=
  match takeWord args with
  | .error e      => .error e
  | .ok (v, rest) => encodeVlq (mask16 v) rest p capEnd

/-- ENCODE (R207, R208): the bytes written at the cursor `p`, all below `capEnd`, and the words left. -/
def encodeParam (data progmem : Memory) (t : ArgType) (args : List Word) (p capEnd : Nat) :
    Except Stop (List Byte × List Word) :=
  match t with
  | .uint32        => encodeFull args p capEnd
  | .int32         => encodeFull args p capEnd
  | .uint16        => encodeShort args p capEnd
  | .int16         => encodeShort args p capEnd
  | .byte          => encodeShort args p capEnd
  | .string        => encodeString data args p capEnd
  | .buffer        => encodeBuffer data args p capEnd
  | .progmemBuffer => encodeBuffer progmem args p capEnd
  | .unknown _     => .error (.shutdown .encodeError)

/-- The parameter loop of FRAME_TX (R163): the bytes of all parameters, from the cursor `p`. -/
def encodeParams (data progmem : Memory) : List ArgType → List Word → Nat → Nat → Except Stop (List Byte)
  | [], _, _, _ => .ok []
  | t :: ts, args, p, capEnd =>
    match encodeParam data progmem t args p capEnd with
    | .error e       => .error e
    | .ok (bs, rest) =>
      match encodeParams data progmem ts rest (p + bs.length) capEnd with
      | .error e => .error e
      | .ok bs'  => .ok (bs ++ bs')

/-! ### Parse -/

/-- What PARSE returns (R180): the cursor, ARGS, and for each buffer parameter the pointer word's index with the
inline bytes it names (R27, R225). -/
structure Parsed where
  cursor : Nat
  args   : List Word
  inline : List (Nat × List Byte)
  deriving DecidableEq, Repr

/-- What a read at the bound does (R111, R185): it raises. A read below the bound but past the view, with `missing`
indices between the two, has no value (R41, log 25). -/
def pastEnd (missing : Nat) : Stop := if missing = 0 then .shutdown .parserError else .refused .readPastView

/-- An integer parameter before the rest (R183). -/
def Parsed.consInt (v : Word) (r : Parsed) : Parsed := { r with args := v :: r.args }

/-- A buffer parameter of length `n` before the rest: length word, pointer word (R184). -/
def Parsed.consBuffer (p n : Nat) (bs : List Byte) (r : Parsed) : Parsed :=
  { r with args := BitVec.ofNat 32 n :: BitVec.ofNat 32 p :: r.args, inline := (p, bs) :: r.inline }

/-- The loop of PARSE (R182 to R187). `p` is the cursor, the list holds the bytes of the view from it to `end`, and
`missing` indices lie past the view and below `end` (none in a POLL, R186). Only VLQ bytes and length bytes are read;
inline bytes are not (R184). -/
def parseParams : List ArgType → Nat → Nat → List Byte → Except Stop Parsed
  | [], p, _, _ => .ok { cursor := p, args := [], inline := [] }
  | t :: ts, p, missing, bs =>
    if t.isInt then
      match vlqDec bs with
      | none        => .error (pastEnd missing)
      | some (v, k) =>
        match parseParams ts (p + k) missing (bs.drop k) with
        | .error e => .error e
        | .ok r    => .ok (r.consInt v)
    else if t = .buffer then
      match bs with
      | []        => .error (pastEnd missing)
      | n :: rest =>
        if rest.length + missing < n.toNat then .error (.shutdown .parserError)
        else match parseParams ts (p + 1 + n.toNat) (missing - (n.toNat - rest.length)) (rest.drop n.toNat) with
          | .error e => .error e
          | .ok r    => .ok (r.consBuffer (p + 1) n.toNat (rest.take n.toNat))
    else .error (.shutdown .parserError)

end Sys2Proof.Machine
end

