-- ==== Sys2Proof/Machine/Ops.lean ====
section
/-! DEFINITION. The named operations over the state that the meanings share: the transport calls (20_memory.md R44 to
R47), the shutdown calls and taking the shutdown (60_exceptions.md R240 to R248), the handler's actions (46_dispatcher.md
R225), the memories. There is no return from a shutdown (R252), so no operation for one. -/

namespace Sys2Proof.Machine

/-- How an operation inside another one ends: with a value, or by `raise Shutdown` after which no statement of any
caller runs (R246), or by a fault or refusal. -/
inductive Ran (α : Type) where
  | ok (a : α) (s : State)
  | ended (r : Reason) (s : State)
  | fault (f : Fault)
  | refused (r : Refusal)
  deriving Repr

/-- An event at the end of the trace (R11). -/
def State.emit (e : Event) (s : State) : State := { s with trace := s.trace ++ [e] }

/-- What a call returned (log 3). -/
def State.answer (r : Result) (s : State) : State := { s with result := r }

/-! ### Transport -/

/-- `InPeek()` (R44): the view of all received and not yet consumed bytes. -/
def State.inPeek (s : State) : List Byte := s.input

/-- `InPop(n)` (R45). -/
def State.inPop (n : Nat) (s : State) : State := { s with input := s.input.drop n }.emit (.pop n)

/-- The transport appends received bytes (R57(c)). -/
def State.arrive (bs : List Byte) (s : State) : State := { s with input := s.input ++ bs }

/-- The transport drains committed bytes (R57(c)). -/
def State.drain (n : Nat) (s : State) : State := { s with output := s.output.drop n }

/-- The transport's answer to the next `OutReserve(n)`: the scripted one, else a free value (U11, log 5). -/
def State.granted (n : Nat) (s : State) : Bool :=
  match s.grants with
  | g :: _ => g
  | []     => Config.grantAnswer s.draws n

/-- The state with that answer used up. -/
def State.useGrant (s : State) : State :=
  { s with grants := s.grants.tail, draws := if s.grants.isEmpty then s.draws + 1 else s.draws }

/-- `OutReserve(n)` (R46): on success the new reservation is the last one; its bytes are zero until written (log 11). -/
def State.outReserve (n : Nat) (s : State) : State :=
  if s.granted n then { s.useGrant with reservation := some (List.replicate n 0) } else s.useGrant

/-- Bytes written into a buffer at an index, nothing else changed. -/
def writeAt (buf : List Byte) (p : Nat) (bs : List Byte) : List Byte :=
  buf.take p ++ bs ++ buf.drop (p + bs.length)

/-- `OUT[p ..) <- bs` on the last reservation (R42). -/
def State.outWrite (p : Nat) (bs : List Byte) (s : State) : State :=
  { s with reservation := s.reservation.map fun r => writeAt r p bs }

/-- `OutCommit(n)` (R47): the first `n` bytes of the last reservation are published, whole, after every byte committed
earlier, and the reservation is closed. -/
def State.outCommit (n : Nat) (s : State) : State :=
  match s.reservation with
  | none   => s
  | some r => { s with reservation := none, output := s.output ++ r.take n }.emit (.commit (r.take n))

/-- A frame written at `OUT[0]` and committed (R164 to R167). -/
def State.sendFrame (bs : List Byte) (s : State) : State := (s.outWrite 0 bs).outCommit bs.length

/-! ### Shutdown -/

/-- `IsShutdown()` (R240). -/
def State.isShutdown (s : State) : Bool := s.shutdown

/-- The reason reported after `raise Shutdown(r)`: `RID(r)`, and in shutdown one of the first and the latest (U13). Of
three or more requests the first is taken to be the reason reported just before (DESIGN CHOICE, log 7). -/
def State.reasonAfter (r : Reason) (s : State) : Half :=
  if s.shutdown && Config.keepsFirstReason s.draws then s.shutdownReason else s.config.rid r

/-- Taking the exception, `raise Shutdown(r)` (R242, R246): the event, the flag, the reason; an open reservation is
abandoned; every register keeps its value and nothing is popped or committed. -/
def State.raiseShutdown (r : Reason) (s : State) : State :=
  { s with
    shutdown := true
    shutdownReason := s.reasonAfter r
    draws := if s.shutdown then s.draws + 1 else s.draws
    reservation := none }.emit (.shutdown r)

/-- The shutdown subsystem changes its flag and reason on its own account (R57(c), R257). -/
def State.setShutdown (on : Bool) (reason : Half) (s : State) : State :=
  { s with shutdown := on, shutdownReason := reason }

/-- A pure operation's stop, taken in a state. -/
def Ran.ofStop {α : Type} (s : State) : Stop → Ran α
  | .shutdown r => .ended r (s.raiseShutdown r)
  | .fault f    => .fault f
  | .refused r  => .refused r

/-- The end of a call: its result stands in `result`, and a shutdown is a next state like any other (R246). -/
def Ran.outcome {α : Type} (f : α → Result) : Ran α → Host.Outcome State Fault Refusal
  | .ok a s    => .next (s.answer (f a))
  | .ended r s => .next (s.answer (.shutdown r))
  | .fault e   => .fault e
  | .refused r => .refused r

/-- The end of a call that needs no state of its own but stops like one. -/
def Ran.ofExcept {α : Type} (s : State) : Except Stop α → Ran α
  | .ok a    => .ok a s
  | .error e => Ran.ofStop s e

/-! ### Memory -/

/-- A write to DATA by its owner (R40, R225). -/
def State.storeData (a : Word) (bs : List Byte) (s : State) : Option State :=
  match s.data.write a.toNat bs with
  | none   => none
  | some m => some { s with data := m }

/-! ### Sending -/

/-- ACKNAK (R167): five bytes stamped with `NEXT_SEQ`, or `Drop`. -/
def State.ackNak (s : State) : State :=
  if s.granted 5 then (s.outReserve 5).sendFrame (buildFrame s.config.crc [] s.nextSeq)
  else (s.outReserve 5).emit .drop

/-- FRAME_TX from the granted reservation on (R162 to R166). -/
def State.frameTxGranted (e : Encoder) (args : List Word) (s : State) : Ran Unit :=
  if e.maxSize < 1 then .ended .encodeError (s.raiseShutdown .encodeError)
  else
    match encodeParams s.data s.progmem e.paramTypes args 3 (2 + e.maxSize) with
    | .error k => Ran.ofStop s k
    | .ok bs   => .ok () (s.sendFrame (buildFrame s.config.crc (e.msgId :: bs) s.nextSeq))

/-- FRAME_TX (R160 to R170): reservation, then the command, header and trailer; a refused reservation is `Drop`. -/
def State.frameTx (encoderId : Nat) (args : List Word) (s : State) : Ran Unit :=
  match s.config.schema.commandEncoders[encoderId]? with
  | none   => .refused .noSuchEncoder
  | some e =>
    if s.granted (e.maxSize + 5) then (s.outReserve (e.maxSize + 5)).frameTxGranted e args
    else .ok () ((s.outReserve (e.maxSize + 5)).emit .drop)

/-! ### Parsing -/

/-- The bytes of a view from the cursor to the bound. -/
def window (view : List Byte) (p stop : Nat) : List Byte := (view.take stop).drop p

/-- How many indices from the cursor to the bound lie past the view. -/
def beyond (view : List Byte) (p stop : Nat) : Nat := stop - max p view.length

/-- PARSE (R180 to R189) on a view: `none` is Skip. -/
def State.parse (view : List Byte) (p stop : Nat) (parser : Parser) (s : State) : Ran (Option Parsed) :=
  if s.isShutdown && !parser.inShutdown then
    match s.frameTx s.config.schema.encIsShutdown [s.shutdownReason.setWidth 32] with
    | .ok _ s'    => .ok none s'
    | .ended r s' => .ended r s'
    | .fault f    => .fault f
    | .refused r  => .refused r
  else
    match parseParams parser.paramTypes p (beyond view p stop) (window view p stop) with
    | .error k => Ran.ofStop s k
    | .ok r    => .ok (some r) s

/-! ### Handlers -/

/-- Whether `n` bytes from index `src` lie inside the inline bytes some pointer word names (R225). -/
def inlineCovers (inline : List (Nat × List Byte)) (src n : Nat) : Bool :=
  inline.any fun w => decide (w.1 ≤ src) && decide (src + n ≤ w.1 + w.2.length)

/-- What a handler does, in order (R225). -/
def State.runHandler (view : List Byte) (inline : List (Nat × List Byte)) : List HandlerAction → State → Ran Unit
  | [], s => .ok () s
  | .send id args :: as, s =>
    match s.frameTx id args with
    | .ok _ s'    => State.runHandler view inline as s'
    | .ended r s' => .ended r s'
    | .fault f    => .fault f
    | .refused r  => .refused r
  | .store a bs :: as, s =>
    match s.storeData a bs with
    | none    => .fault .addressOutsideSpace
    | some s' => State.runHandler view inline as s'
  | .copyIn dst src n :: as, s =>
    if inlineCovers inline src n then
      match s.storeData dst ((view.drop src).take n) with
      | none    => .fault .addressOutsideSpace
      | some s' => State.runHandler view inline as s'
    else .fault .pointerOutsideInline
  | .raise r :: _, s => .ended r (s.raiseShutdown r)

/-- What the handler of a dispatched command does: the next scripted run, else a free value (D17, log 6). -/
def State.handlerOf (cmdid : Byte) (r : Parsed) (s : State) : List HandlerAction :=
  match s.handlerRuns with
  | h :: _ => h
  | []     => Config.handlerRun s.draws cmdid r.args (r.inline.map Prod.snd)

/-- The state with that run used up. -/
def State.useHandler (s : State) : State :=
  { s with handlerRuns := s.handlerRuns.tail, draws := if s.handlerRuns.isEmpty then s.draws + 1 else s.draws }

/-- `Dispatch(cmdid, ARGS)` (R225): the event, then the handler runs inside the step. It may read the inline bytes of
its own command and those of the commands before it in this POLL, `live`, whose pointer words are valid until the
frame is popped (R29(c), R61, R292). -/
def State.dispatch (view : List Byte) (live : List (Nat × List Byte)) (cmdid : Byte) (r : Parsed) (s : State) :
    Ran Unit :=
  State.runHandler view (live ++ r.inline) (s.handlerOf cmdid r)
    (s.emit (.dispatch cmdid r.args (r.inline.map Prod.snd))).useHandler

/-! ### The command loop -/

/-- The parser of a command id: none when `cmdid >= command_index_size` or the entry is null (R223). -/
def Schema.parserOf (c : Schema) (cmdid : Byte) : Option Parser :=
  match c.commandIndex[cmdid.toNat]? with
  | some (some parser) => some parser
  | some none          => none
  | none               => none

/-- One turn of POLL's loop (R223 to R226): what PARSE read of the command, or `none` for a skip. `live` is what the
pointer words of the commands before it name. -/
def State.commandTurn (view : List Byte) (live : List (Nat × List Byte)) (p stop : Nat) (s : State) :
    Ran (Option Parsed) :=
  match Schema.parserOf s.config.schema (byteAt view p) with
  | none        => .ended .invalidCommand (s.raiseShutdown .invalidCommand)
  | some parser =>
    match s.parse view (p + 1) stop parser with
    | .ok none s'     => .ok none s'
    | .ok (some r) s' =>
      match s'.dispatch view live (byteAt view p) r with
      | .ok _ s''    => .ok (some r) s''
      | .ended k s'' => .ended k s''
      | .fault f     => .fault f
      | .refused k   => .refused k
    | .ended k s'     => .ended k s'
    | .fault f        => .fault f
    | .refused k      => .refused k

/-- The loop (R222). Each turn consumes at least the MSG_ID, so `stop - p` turns are enough fuel. -/
def State.commandLoop (view : List Byte) (stop : Nat) :
    Nat → Nat → List (Nat × List Byte) → State → Ran Unit
  | 0, _, _, s => .ok () s
  | fuel + 1, p, live, s =>
    if p < stop then
      match s.commandTurn view live p stop with
      | .ok none s'     => .ok () s'
      | .ok (some r) s' => State.commandLoop view stop fuel r.cursor (live ++ r.inline) s'
      | .ended k s'     => .ended k s'
      | .fault f        => .fault f
      | .refused k      => .refused k
    else .ok () s

end Sys2Proof.Machine
end

