-- ==== Sys2Proof/Machine/Flags.lean ====
section
/-! DEFINITION. The sync flags and the sequence number (10_state.md R21 to R23): FRAME_RX (42_frame_rx.md R130 to
R147), the only operation that writes them, and POLL's frame walk on top of it (46_dispatcher.md R221 to R227). -/

namespace Sys2Proof.Machine

/-- `0x10 | ((msgseq + 1) & 0x0F)` (R140). -/
def nextSeqAfter (msgseq : Byte) : Byte := destTag ||| ((msgseq + 1) &&& seqMask)

/-- The NAK latch (R145, R146): after resync, one NAK unless `NEED_VALID` was already set. -/
def State.nakOnce (s : State) : State :=
  if s.needValid then s else { s with needValid := true }.ackNak

/-- The scan (R144): pop through the first SYNC of the whole view and clear `NEED_SYNC`, else pop everything. -/
def State.resyncScan (s : State) : State :=
  match s.inPeek.findIdx? (fun b => b == syncByte) with
  | some i => { s.inPop (i + 1) with needSync := false }
  | none   => s.inPop s.inPeek.length

/-- Resync (R144 to R146). -/
def State.resync (s : State) : State := s.resyncScan.nakOnce

/-- The fail path (R142, R143): a leading SYNC is swallowed quietly; anything else starts a resync. -/
def State.frameFail (s : State) : State :=
  if byteAt s.inPeek 0 == syncByte then s.inPop 1 else { s with needSync := true }.resync

/-- A valid frame (R138 to R141): the latch is cleared, then the sequence test. -/
def State.frameValidated (msglen : Nat) (msgseq : Byte) (s : State) : Option Nat × State :=
  if msgseq == s.nextSeq then
    (some msglen, { s with needValid := false, nextSeq := nextSeqAfter msgseq }.ackNak)
  else
    (none, ({ s with needValid := false }.inPop msglen).ackNak)

/-- FRAME_RX (R147): `some msglen` is `Frame(msglen)`. -/
def State.frameRx (s : State) : Option Nat × State :=
  if s.needSync then (none, s.resync)
  else if s.inPeek.length < messageMin then (none, s)
  else if !lenOk s.inPeek then (none, s.frameFail)
  else if !tagOk (byteAt s.inPeek 1) then (none, s.frameFail)
  else if s.inPeek.length < (byteAt s.inPeek 0).toNat then (none, s)
  else if byteAt s.inPeek ((byteAt s.inPeek 0).toNat - 1) != syncByte then (none, s.frameFail)
  else if frameCrcComputed s.config.crc s.inPeek != frameCrcField s.inPeek then (none, s.frameFail)
  else s.frameValidated (byteAt s.inPeek 0).toNat (byteAt s.inPeek 1)

/-- The walk of an accepted frame and its pop (R221 to R227): `p` from 2 to `msglen - 3`; no pop after a shutdown. -/
def State.walkFrame (view : List Byte) (msglen : Nat) (s : State) : Ran Unit :=
  match State.commandLoop view (msglen - 3) (msglen - 5) 2 [] s with
  | .ok _ s'    => .ok () (s'.inPop msglen)
  | .ended r s' => .ended r s'
  | .fault f    => .fault f
  | .refused r  => .refused r

/-- POLL (R228): one FRAME_RX, then at most one frame, on the one view FRAME_RX peeked (R44). -/
def State.pollOnce (s : State) : Ran Unit :=
  match s.frameRx with
  | (none, s')        => .ok () s'
  | (some msglen, s') => s'.walkFrame s.inPeek msglen

end Sys2Proof.Machine
end

