-- ==== Sys2Proof/Machine/Codec.lean ====
section
/-! DEFINITION. The meanings of CRC16 (40_crc.md), VLQ_ENC and VLQ_DEC (41_vlq.md). -/

namespace Sys2Proof.Machine

/-- CRC16 (R100): pure; the result is the checksum. -/
def execCrc16 (bytes : List Byte) (s : State) : Host.Outcome State Fault Refusal :=
  .next (s.answer (.crc (crc16 s.config.crc bytes)))

/-- VLQ_ENC (R114): pure, or in place in the open reservation, where the capacity test is the caller's (log 25). -/
def execVlqEnc (v : Word) (pos : Option Nat) (s : State) : Host.Outcome State Fault Refusal :=
  match pos with
  | none   => .next (s.answer (.bytes (vlqEnc v)))
  | some p =>
    match s.reservation with
    | none   => .refused .noReservation
    | some r =>
      if r.length < p + vlqLen v then .refused .outsideReservation
      else .next ((s.outWrite p (vlqEnc v)).answer (.cursor (p + vlqLen v)))

/-- VLQ_DEC (R110): unbounded, where a list that ends too soon has no result (U1). -/
def vlqDecUnbounded (bytes : List Byte) (p : Nat) (s : State) : Host.Outcome State Fault Refusal :=
  match vlqDec (bytes.drop p) with
  | none        => .refused .vlqRunsOffList
  | some (v, k) => .next (s.answer (.vlq v (p + k)))

/-- VLQ_DEC bounded (R111): the bound is tested before each read, and meeting it raises "Command parser error"; a read
below the bound and past the list has no value (R41, U1, log 25). -/
def vlqDecBounded (bytes : List Byte) (p stop : Nat) (s : State) : Host.Outcome State Fault Refusal :=
  match vlqDec (window bytes p stop) with
  | none        => (Ran.ofStop s (pastEnd (beyond bytes p stop)) : Ran Unit).outcome fun _ => .none
  | some (v, k) => .next (s.answer (.vlq v (p + k)))

/-- VLQ_DEC (R110, R111). -/
def execVlqDec (bytes : List Byte) (p : Nat) (bound : Option Nat) (s : State) : Host.Outcome State Fault Refusal :=
  match bound with
  | none      => vlqDecUnbounded bytes p s
  | some stop => vlqDecBounded bytes p stop s

end Sys2Proof.Machine
end

