-- ==== Sys2Proof/Machine/Command.lean ====
section
/-! DEFINITION. The meanings of PARSE (44_command_parse.md), ENCODE (45_command_encode.md) and POLL
(46_dispatcher.md). -/

namespace Sys2Proof.Machine

/-- PARSE's result (R180). -/
def parseResult : Option Parsed → Result
  | none   => .skip
  | some r => .parsed r.cursor r.args

/-- PARSE called alone on the current input view (R180 to R190). A byte read below the bound and past the view has no
value (R41, log 25). A cursor or a bound that no POLL gives (a cursor below 3 or past the bound, a bound above 61) is run
by the same rules, and so is any parser descriptor, in `command_index` or not, well-formed (R50(c), R50(d)) or not: only
its types and its flag are read, and as many words result as the types name (DESIGN CHOICE, log 34). -/
def execParse (p stop : Nat) (parser : Parser) (s : State) : Host.Outcome State Fault Refusal :=
  (s.parse s.inPeek p stop parser).outcome parseResult

/-- ENCODE called alone on the open reservation (R207, R208); a write past the reservation is outside its domain (R42,
log 25). A cursor or a capacity that no FRAME_TX gives (a cursor below 3 or past the capacity, a capacity above 61) is run
by the same rules: past the capacity no type finds room, and a length above 255 stands in its one byte modulo 256 (DESIGN
CHOICE, log 34). -/
def execEncodeArg (t : ArgType) (args : List Word) (p capEnd : Nat) (s : State) : Host.Outcome State Fault Refusal :=
  match s.reservation with
  | none   => .refused .noReservation
  | some r =>
    match encodeParam s.data s.progmem t args p capEnd with
    | .error k    => (Ran.ofStop s k : Ran Unit).outcome fun _ => .none
    | .ok (bs, _) =>
      if r.length < p + bs.length then .refused .outsideReservation
      else .next ((s.outWrite p bs).answer (.cursor (p + bs.length)))

/-- POLL (R220 to R229). -/
def execPoll (s : State) : Host.Outcome State Fault Refusal :=
  s.pollOnce.outcome fun _ => .none

end Sys2Proof.Machine
end

