-- ==== Sys2Proof/Machine/Link.lean ====
section
/-! DEFINITION. The meanings of FRAME_RX (42_frame_rx.md), ACKNAK and FRAME_TX (43_frame_tx.md). -/

namespace Sys2Proof.Machine

/-- FRAME_RX's result (R130). -/
def rxResult : Option Nat → Result
  | none        => .noFrame
  | some msglen => .frame msglen

/-- FRAME_RX (R130 to R147). It never raises and never stops. -/
def execFrameRx (s : State) : Host.Outcome State Fault Refusal :=
  .next (s.frameRx.2.answer (rxResult s.frameRx.1))

/-- ACKNAK (R167). It never raises and never stops. -/
def execAckNak (s : State) : Host.Outcome State Fault Refusal :=
  .next (s.ackNak.answer .none)

/-- FRAME_TX (R160 to R170). -/
def execFrameTx (encoderId : Nat) (args : List Word) (s : State) : Host.Outcome State Fault Refusal :=
  (s.frameTx encoderId args).outcome fun _ => .none

end Sys2Proof.Machine
end

