-- ==== Sys2Proof/Machine/WireArg.lean ====
section
/-! DEFINITION. The meanings of the argument wire forms (30_encoding.md R79 to R82): each is read by PARSE's parameter
loop under a parameter of its own type (44_command_parse.md R183, R184, R187). Where a form executed alone has no input
view, its first byte stands at index 0, so the pointer word of `buffer` is 1 (DESIGN CHOICE, log 17).
The device sends these forms by ENCODE; `string` and `progmem_buffer` are used only for encoding, so reading one
raises "Command parser error" (R187; DEDUCED, log 16). -/

namespace Sys2Proof.Machine

/-- One parameter of type `t` read from the bytes of its form (R182), the first at index 0 (DESIGN CHOICE, log 17). -/
def State.readArg (t : ArgType) (bytes : List Byte) (s : State) : Host.Outcome State Fault Refusal :=
  (Ran.ofExcept s (parseParams [t] 0 0 bytes)).outcome fun r => .parsed r.cursor r.args

/-- ARG.uint32 (R79, R183). -/
def execArgUint32 (vlq : List Byte) (s : State) : Host.Outcome State Fault Refusal := s.readArg .uint32 vlq

/-- ARG.int32 (R79, R183). -/
def execArgInt32 (vlq : List Byte) (s : State) : Host.Outcome State Fault Refusal := s.readArg .int32 vlq

/-- ARG.uint16 (R79, R183). -/
def execArgUint16 (vlq : List Byte) (s : State) : Host.Outcome State Fault Refusal := s.readArg .uint16 vlq

/-- ARG.int16 (R79, R183). -/
def execArgInt16 (vlq : List Byte) (s : State) : Host.Outcome State Fault Refusal := s.readArg .int16 vlq

/-- ARG.byte (R79, R183). -/
def execArgByte (vlq : List Byte) (s : State) : Host.Outcome State Fault Refusal := s.readArg .byte vlq

/-- ARG.buffer (R80, R184). -/
def execArgBuffer (data : List Byte) (s : State) : Host.Outcome State Fault Refusal :=
  s.readArg .buffer (lengthPrefixed data)

/-- ARG.string (R81, R187). -/
def execArgString (data : List Byte) (s : State) : Host.Outcome State Fault Refusal :=
  s.readArg .string (lengthPrefixed data)

/-- ARG.progmem_buffer (R82, R187). -/
def execArgProgmemBuffer (data : List Byte) (s : State) : Host.Outcome State Fault Refusal :=
  s.readArg .progmemBuffer (lengthPrefixed data)

end Sys2Proof.Machine
end

