-- ==== Sys2Proof/Machine/WireFrame.lean ====
section
/-! DEFINITION. The meanings of the frame-layer wire forms and of COMMAND (30_encoding.md R70 to R76, R83). FRAME_RX
reads the frame-layer forms and takes them from the input FIFO, so executing one delivers its bytes to the tail of the
FIFO (R57(c)) and polls (R57(a)) (DESIGN CHOICE, log 14). COMMAND is read by one turn of POLL's loop (R222; log 15). -/

namespace Sys2Proof.Machine

/-- Bytes arrive, and the scheduler polls. -/
def State.deliver (bs : List Byte) (s : State) : Host.Outcome State Fault Refusal :=
  (s.arrive bs).pollOnce.outcome fun _ => .none

/-- FRAME (R70). -/
def execFrame (seq : BitVec 4) (payload : List Byte) (crc : Half) (s : State) : Host.Outcome State Fault Refusal :=
  s.deliver (frameBytes (seqByte seq) payload crc)

/-- FRAME.LEN (R71): a frame's first byte. -/
def execFrameLen (len : Byte) (s : State) : Host.Outcome State Fault Refusal :=
  s.deliver [len]

/-- FRAME.SEQ (R72): a frame's second byte. -/
def execFrameSeq (seq : BitVec 4) (s : State) : Host.Outcome State Fault Refusal :=
  s.deliver [seqByte seq]

/-- FRAME.CRC (R74): high byte first. -/
def execFrameCrc (crc : Half) (s : State) : Host.Outcome State Fault Refusal :=
  s.deliver [hiByte crc, loByte crc]

/-- FRAME.SYNC (R75): ends a frame; in resync it is the byte the scan stops at (R144). -/
def execFrameSync (s : State) : Host.Outcome State Fault Refusal :=
  s.deliver [syncByte]

/-- ACK_NAK_FRAME (R83): an empty frame; received, it is a frame with zero commands (R86, R222). -/
def execAckNakFrame (seq : BitVec 4) (crc : Half) (s : State) : Host.Outcome State Fault Refusal :=
  s.deliver (frameBytes (seqByte seq) [] crc)

/-- The view in which a presented command stands first in a payload: two header bytes, then the command (R55). -/
def commandView (seq : Byte) (payload : List Byte) : List Byte :=
  BitVec.ofNat 8 (payload.length + 5) :: seq :: payload

/-- A turn's result: the cursor after the command, or a skip. -/
def turnResult : Option Parsed → Result
  | none   => .skip
  | some r => .cursor r.cursor

/-- COMMAND (R76): looked up, parsed and dispatched by one turn of POLL's loop (R223 to R226). More than 58 argument bytes,
which no frame holds (R71, R73), are run by the same turn, its bound above 61 (DESIGN CHOICE, log 34). -/
def execCommand (msgId : Byte) (args : List Byte) (s : State) : Host.Outcome State Fault Refusal :=
  (s.commandTurn (commandView s.nextSeq (msgId :: args)) [] 2 (args.length + 3)).outcome turnResult

end Sys2Proof.Machine
end

