-- ==== Sys2Proof/Machine/WireVlq.lean ====
section
/-! DEFINITION. The meanings of the VLQ wire forms (30_encoding.md R77, R78): a canonical form is read by VLQ_DEC
(41_vlq.md R110); a single byte is read by one turn of VLQ_DEC's loop, which takes its data bits, its continuation bit
and, as a first byte, the accumulator it seeds (R90, R110; DESIGN CHOICE, log 17). -/

namespace Sys2Proof.Machine

/-- VLQ_DEC on the bytes of one form. -/
def State.readVlq (bytes : List Byte) (s : State) : Host.Outcome State Fault Refusal :=
  match vlqDec bytes with
  | none        => .refused .vlqRunsOffList
  | some (v, k) => .next (s.answer (.vlq v k))

/-- One read of VLQ_DEC's loop (R110). -/
def State.readVlqByte (c : Byte) (s : State) : Host.Outcome State Fault Refusal :=
  .next (s.answer (.vlqByte (vlqSeed c) (c.setWidth 7) (vlqMore c)))

/-- VLQ.LAST_BYTE (R77). -/
def execVlqLastByte (d : BitVec 7) (s : State) : Host.Outcome State Fault Refusal :=
  s.readVlqByte (d.setWidth 8)

/-- VLQ.CONT_BYTE (R77). -/
def execVlqContByte (d : BitVec 7) (s : State) : Host.Outcome State Fault Refusal :=
  s.readVlqByte (0x80#8 ||| d.setWidth 8)

/-- VLQ.SIGN (R77): both sign bits set, so the accumulator is filled with ones. -/
def execVlqSign (more : Bool) (d : BitVec 5) (s : State) : Host.Outcome State Fault Refusal :=
  s.readVlqByte ((if more then 0xE0#8 else 0x60#8) ||| d.setWidth 8)

/-- VLQ1 (R78). -/
def execVlq1 (v : BitVec 7) (s : State) : Host.Outcome State Fault Refusal := s.readVlq (groupBytes v 1)

/-- VLQ2 (R78). -/
def execVlq2 (v : BitVec 14) (s : State) : Host.Outcome State Fault Refusal := s.readVlq (groupBytes v 2)

/-- VLQ3 (R78). -/
def execVlq3 (v : BitVec 21) (s : State) : Host.Outcome State Fault Refusal := s.readVlq (groupBytes v 3)

/-- VLQ4 (R78). -/
def execVlq4 (v : BitVec 28) (s : State) : Host.Outcome State Fault Refusal := s.readVlq (groupBytes v 4)

/-- VLQ5 (R78). -/
def execVlq5 (v : BitVec 32) (s : State) : Host.Outcome State Fault Refusal := s.readVlq (groupBytes v 5)

end Sys2Proof.Machine
end

