-- ==== Sys2Proof/Machine/Dispatch.lean ====
section
/-! DEFINITION. The meaning of every instruction: one arm per constructor, each one call of a meaning. -/

namespace Sys2Proof.Machine

def exec (i : Instr) (s : State) : Host.Outcome State Fault Refusal :=
  match i with
  | .crc16 bytes => Sys2Proof.Machine.execCrc16 bytes s
  | .vlqEnc v pos => Sys2Proof.Machine.execVlqEnc v pos s
  | .vlqDec bytes p bound => Sys2Proof.Machine.execVlqDec bytes p bound s
  | .frameRx => Sys2Proof.Machine.execFrameRx s
  | .ackNak => Sys2Proof.Machine.execAckNak s
  | .frameTx encoderId args => Sys2Proof.Machine.execFrameTx encoderId args s
  | .parse p stop parser => Sys2Proof.Machine.execParse p stop parser s
  | .encodeArg t args p capEnd => Sys2Proof.Machine.execEncodeArg t args p capEnd s
  | .poll => Sys2Proof.Machine.execPoll s
  | .frame seq payload crc => Sys2Proof.Machine.execFrame seq payload crc s
  | .frameLen len => Sys2Proof.Machine.execFrameLen len s
  | .frameSeq seq => Sys2Proof.Machine.execFrameSeq seq s
  | .frameCrc crc => Sys2Proof.Machine.execFrameCrc crc s
  | .frameSync => Sys2Proof.Machine.execFrameSync s
  | .ackNakFrame seq crc => Sys2Proof.Machine.execAckNakFrame seq crc s
  | .command msgId args => Sys2Proof.Machine.execCommand msgId args s
  | .vlqLastByte d => Sys2Proof.Machine.execVlqLastByte d s
  | .vlqContByte d => Sys2Proof.Machine.execVlqContByte d s
  | .vlqSign more d => Sys2Proof.Machine.execVlqSign more d s
  | .vlq1 v => Sys2Proof.Machine.execVlq1 v s
  | .vlq2 v => Sys2Proof.Machine.execVlq2 v s
  | .vlq3 v => Sys2Proof.Machine.execVlq3 v s
  | .vlq4 v => Sys2Proof.Machine.execVlq4 v s
  | .vlq5 v => Sys2Proof.Machine.execVlq5 v s
  | .argUint32 vlq => Sys2Proof.Machine.execArgUint32 vlq s
  | .argInt32 vlq => Sys2Proof.Machine.execArgInt32 vlq s
  | .argUint16 vlq => Sys2Proof.Machine.execArgUint16 vlq s
  | .argInt16 vlq => Sys2Proof.Machine.execArgInt16 vlq s
  | .argByte vlq => Sys2Proof.Machine.execArgByte vlq s
  | .argBuffer data => Sys2Proof.Machine.execArgBuffer data s
  | .argString data => Sys2Proof.Machine.execArgString data s
  | .argProgmemBuffer data => Sys2Proof.Machine.execArgProgmemBuffer data s

end Sys2Proof.Machine
end

