-- ==== Sys2Proof/Machine/Fetch.lean ====
section
/-! DEFINITION. What the next step does (20_memory.md R57, 70_reset_and_hazards.md R285): the configuration check
(R50), the next move of the outside world, and, when there is none, the scheduler's POLL. Bytes presented to the reader
of a form are decoded; bytes that are not of the form go to that reader all the same (R85, R86, R112; log 33). -/

namespace Sys2Proof.Machine

/-- What the step finds to do. -/
inductive Fetched where
  /-- an instruction to run, in this state -/
  | run (i : Instr) (s : State)
  /-- bytes that are not of the form they are presented as, for that form's reader -/
  | read (f : Form) (bs : List Byte) (s : State)
  /-- a move of the environment, done -/
  | moved (s : State)
  | fault (f : Fault)
  | refused (r : Refusal)
  deriving Repr

/-- One byte read by VLQ_DEC; of no byte it has nothing to read (U1). -/
def State.readFirstByte (bs : List Byte) (s : State) : Host.Outcome State Fault Refusal :=
  match bs with
  | []     => .refused .vlqRunsOffList
  | c :: _ => s.readVlqByte c

/-- COMMAND's reader: one turn of POLL's loop, or none on an empty payload (R222). -/
def State.readCommand (bs : List Byte) (s : State) : Host.Outcome State Fault Refusal :=
  match bs with
  | []         => .next (s.answer .none)
  | id :: args => execCommand id args s

/-- What the reader of a form does with any bytes: FRAME_RX takes those of a frame from the FIFO and rejects them by its
own rules (R85), VLQ_DEC reads what no encoder produces (R86, R112), PARSE raises on bytes that end too soon (R185). Log
33. -/
def State.readForm (f : Form) (bs : List Byte) (s : State) : Host.Outcome State Fault Refusal :=
  match f with
  | .frame            => s.deliver bs
  | .frameLen         => s.deliver bs
  | .frameSeq         => s.deliver bs
  | .frameCrc         => s.deliver bs
  | .frameSync        => s.deliver bs
  | .ackNakFrame      => s.deliver bs
  | .command          => s.readCommand bs
  | .vlqLastByte      => s.readFirstByte bs
  | .vlqContByte      => s.readFirstByte bs
  | .vlqSign          => s.readFirstByte bs
  | .vlq1             => s.readVlq bs
  | .vlq2             => s.readVlq bs
  | .vlq3             => s.readVlq bs
  | .vlq4             => s.readVlq bs
  | .vlq5             => s.readVlq bs
  | .argUint32        => s.readArg .uint32 bs
  | .argInt32         => s.readArg .int32 bs
  | .argUint16        => s.readArg .uint16 bs
  | .argInt16         => s.readArg .int16 bs
  | .argByte          => s.readArg .byte bs
  | .argBuffer        => s.readArg .buffer bs
  | .argString        => s.readArg .string bs
  | .argProgmemBuffer => s.readArg .progmemBuffer bs

/-- One move (R57), in the state whose agenda no longer holds it. -/
def State.takeMove (m : Move) (s : State) : Fetched :=
  match m with
  | .call i           => .run i s
  | .present f bs     =>
    match decodeAs f bs with
    | .ok (i, [])     => .run i s
    | .ok (_, _ :: _) => .read f bs s
    | .error _        => .read f bs s
  | .arrive bs        => .moved (s.arrive bs)
  | .drain n          => .moved (s.drain n)
  | .setShutdown b r  => .moved (s.setShutdown b r)
  | .store a bs       =>
    match s.storeData a bs with
    | none            => .fault .addressOutsideSpace
    | some s'         => .moved s'
  | .reserve n        => .moved (s.outReserve n)
  | .usePointer _     => .fault .deadPointer

/-- The next thing to do: a schema that fails R50 is refused first (U8); an empty agenda is a POLL (R57(a)). -/
def State.fetch (s : State) : Fetched :=
  if !s.config.wf then .refused .schemaIllFormed
  else
    match s.agenda with
    | []        => .run .poll s
    | m :: rest => State.takeMove m { s with agenda := rest }

end Sys2Proof.Machine
end

