-- ==== Sys2Proof/Machine/Step.lean ====
section
/-! DEFINITION. One step of the machine (70_reset_and_hazards.md R285) and placing an instruction for the next step. -/

namespace Sys2Proof.Machine

/-- One step: what the fetch finds is run (R57, R285). -/
def step (s : State) : Host.Outcome State Fault Refusal :=
  match s.fetch with
  | .run i s'  => exec i s'
  | .read f bs s' => s'.readForm f bs
  | .moved s'  => .next s'
  | .fault f   => .fault f
  | .refused r => .refused r

/-- The instruction whose table word is `w`, placed as the next move, to be decoded by the step (log 18). -/
def State.withFetchWord (s : State) (nbits w : Nat) : State :=
  { s with agenda := .present (classify (wordBytes nbits w)) (wordBytes nbits w) :: s.agenda }

end Sys2Proof.Machine
end

