-- ==== Sys2Proof/Safety.lean ====
section
/-! DEFINITION. The terms claims are stated in: the invariants of 10_state.md R32 and the canonical form of the
memories, the three kinds of input view FRAME_RX meets (42_frame_rx.md R147), what a send leaves behind, and the closed
forms claims compare the codec with. -/

namespace Sys2Proof.Machine

/-! ### Invariants -/

/-- R32(a): the high nibble of `NEXT_SEQ` is 0x1 (R21). -/
def State.seqTagged (s : State) : Bool := tagOk s.nextSeq

/-- R32(b): `NEED_SYNC` set implies `NEED_VALID` set. -/
def State.latched (s : State) : Bool := !s.needSync || s.needValid

/-- The invariant: R32, and both memories in canonical form. -/
def State.Inv (s : State) : Bool :=
  s.seqTagged && s.latched && Memory.wf s.data && Memory.wf s.progmem

/-- The block's registers and the input FIFO are the same (R20, R30). -/
def State.sameRegs (s t : State) : Prop :=
  t.nextSeq = s.nextSeq ∧ t.needSync = s.needSync ∧ t.needValid = s.needValid ∧ t.input = s.input

/-! ### Input views -/

/-- Too little has arrived (R132, R135): fewer than five bytes, or a good header and an incomplete frame. -/
def viewWaits (v : List Byte) : Bool :=
  decide (v.length < 5) || (lenOk v && tagOk (byteAt v 1) && decide (v.length < (byteAt v 0).toNat))

/-- "Invalid" (R147): five or more bytes are present and one of R133, R134, R136, R137 failed. -/
def viewInvalid (k : CrcKind) (v : List Byte) : Bool :=
  decide (5 ≤ v.length)
    && (!lenOk v || !tagOk (byteAt v 1)
        || (decide ((byteAt v 0).toNat ≤ v.length)
            && (byteAt v ((byteAt v 0).toNat - 1) != syncByte || frameCrcComputed k v != frameCrcField v)))

/-- How many bytes a resync pops: through the first SYNC, or all (R144). -/
def syncScan (v : List Byte) : Nat :=
  (v.takeWhile (fun b => b != syncByte)).length + (if v.contains syncByte then 1 else 0)

/-- A state in which a POLL changes nothing (R285). -/
def State.quiescent (s : State) : Bool :=
  if s.needSync then s.input.isEmpty && s.needValid else viewWaits s.input

/-! ### What a send leaves behind -/

/-- One frame offered to the transport with a reservation of `n` bytes: committed whole after every byte committed
earlier, or dropped, as the transport answers (R46, R47, R168). -/
def State.offer (n : Nat) (f : List Byte) (s : State) : State :=
  if s.granted n then
    { s.useGrant with reservation := none, output := s.output ++ f, trace := s.trace ++ [.commit f] }
  else { s.useGrant with trace := s.trace ++ [.drop] }

/-- The ACK or NAK of a state: the empty frame stamped with its `NEXT_SEQ` (R83). -/
def State.emptyFrame (s : State) : List Byte := buildFrame s.config.crc [] s.nextSeq

/-- The bytes of the committed frames among some events, in order. -/
def committed : List Event → List Byte
  | []                 => []
  | .commit b :: es    => b ++ committed es
  | .pop _ :: es       => committed es
  | .drop :: es        => committed es
  | .dispatch _ _ _ :: es => committed es
  | .shutdown _ :: es  => committed es

/-- The state `t` is the end of an operation of `s` that raised `Shutdown(r)` (R242, R246): the registers, the input,
the output and the memories stand, the reservation is abandoned, the flag is set, the last event is the shutdown, and
the reason reported is that of `r`, or, when the device was in shutdown before, possibly the one reported till then (U13,
log 7). -/
structure State.Trapped (s : State) (r : Reason) (t : State) : Prop where
  nextSeq     : t.nextSeq = s.nextSeq
  needSync    : t.needSync = s.needSync
  needValid   : t.needValid = s.needValid
  input       : t.input = s.input
  output      : t.output = s.output
  data        : t.data = s.data
  progmem     : t.progmem = s.progmem
  config      : t.config = s.config
  agenda      : t.agenda = s.agenda
  reservation : t.reservation = none
  shutdown    : t.shutdown = true
  reason      : t.shutdownReason = s.config.rid r ∨ (s.shutdown = true ∧ t.shutdownReason = s.shutdownReason)
  trace       : t.trace = s.trace ++ [.shutdown r]
  result      : t.result = .shutdown r

/-! ### Frames and the commands in them -/

/-- The head of the input is a valid frame with the expected sequence number, and no resync is pending (R138, R139). -/
def State.accepts (s : State) : Bool :=
  !s.needSync && frameValid s.config.crc s.input && byteAt s.input 1 == s.nextSeq

/-- The state in which FRAME_RX returns the frame it accepted (R140): the number advanced, the ACK offered. -/
def State.accepted (s : State) : State :=
  State.offer 5
    (State.emptyFrame { s with needValid := false, nextSeq := 0x10#8 ||| ((byteAt s.input 1 + 1) &&& 0x0F#8) })
    { s with needValid := false, nextSeq := 0x10#8 ||| ((byteAt s.input 1 + 1) &&& 0x0F#8) }

/-- The state after the dispatches `es` of commands whose handlers do nothing, with `hs` the runs that are left (R225). -/
def State.dispatched (es : List Event) (hs : List (List HandlerAction)) (s : State) : State :=
  { s with handlerRuns := hs, trace := s.trace ++ es }

/-- The state after the scan of a resync (R144) of the whole input. -/
def State.scanned (s : State) : State :=
  { s with
    needSync := !s.input.contains syncByte
    input := s.input.drop (syncScan s.input)
    trace := s.trace ++ [.pop (syncScan s.input)] }

/-! ### Closed forms of the codec -/

/-- The integer a VLQ's bytes stand for (R110): the groups in base 128, the first one less 128 when it is 0x60 or more. -/
def vlqInt : List Byte → Int
  | []      => 0
  | b :: bs =>
    bs.foldl (fun acc c => acc * 128 + (c &&& 0x7F#8).toNat)
      (if 0x60 ≤ (b &&& 0x7F#8).toNat then ((b &&& 0x7F#8).toNat : Int) - 128 else (b &&& 0x7F#8).toNat)

/-- `Parses ts p bs args inline`: the bytes `bs`, the first at index `p` of the view, are one argument after another of
the types `ts`, and they put `args` into the argument vector and name the inline bytes `inline`, each with the index of
its first byte (R182 to R184, R27). -/
inductive Parses : List ArgType → Nat → List Byte → List Word → List (Nat × List Byte) → Prop
  | done (p : Nat) : Parses [] p [] [] []
  | integer {t : ArgType} {ts : List ArgType} {p : Nat} {v bs : List Byte} {args : List Word}
      {inline : List (Nat × List Byte)}
      (hint : t.isInt = true) (hv : isVlq v = true) (rest : Parses ts (p + v.length) bs args inline) :
      Parses (t :: ts) p (v ++ bs) (BitVec.ofInt 32 (vlqInt v) :: args) inline
  | buffer {ts : List ArgType} {p : Nat} {d bs : List Byte} {args : List Word} {inline : List (Nat × List Byte)}
      (hlen : d.length ≤ 255) (rest : Parses ts (p + 1 + d.length) bs args inline) :
      Parses (.buffer :: ts) p (BitVec.ofNat 8 d.length :: (d ++ bs))
        (BitVec.ofNat 32 d.length :: BitVec.ofNat 32 (p + 1) :: args) ((p + 1, d) :: inline)

/-- `Commands c on p payload es`: the payload, its first byte at index `p` of the view, is one command after another,
each known to the schema, allowed in the mode `on` (R181) and parsed without error; `es` are their dispatches in wire
order (R222 to R225). -/
inductive Commands (c : Schema) (on : Bool) : Nat → List Byte → List Event → Prop
  | done (p : Nat) : Commands c on p [] []
  | command {p : Nat} {id : Byte} {parser : Parser} {bs rest : List Byte} {args : List Word}
      {inline : List (Nat × List Byte)} {es : List Event}
      (known : Schema.parserOf c id = some parser) (allowed : on = true → parser.inShutdown = true)
      (parsed : Parses parser.paramTypes (p + 1) bs args inline)
      (next : Commands c on (p + 1 + bs.length) rest es) :
      Commands c on p (id :: (bs ++ rest)) (.dispatch id args (inline.map Prod.snd) :: es)

/-- VLQ_LEN by the ranges R115 writes in hexadecimal. -/
def vlqLenHex (v : Nat) : Nat :=
  if v ≤ 0x5F ∨ 0xFFFFFFE0 ≤ v then 1
  else if v ≤ 0x2FFF ∨ 0xFFFFF000 ≤ v then 2
  else if v ≤ 0x17FFFF ∨ 0xFFF80000 ≤ v then 3
  else if v ≤ 0xBFFFFFF ∨ 0xFC000000 ≤ v then 4
  else 5

/-- `T[i]` of R101: the register after the eight inner steps on `i << 8`. -/
def crcTable (i : Byte) : Half := crcShifts 8 (i.setWidth 16 <<< 8)

/-- One byte of the table-driven form of R101. -/
def crcTableByte (c : Half) (b : Byte) : Half := (c <<< 8) ^^^ crcTable ((c >>> 8).setWidth 8 ^^^ b)

/-- The most bytes one integer parameter takes on the wire (R209(c)). -/
def intArgMax : ArgType → Nat
  | .uint32        => 5
  | .int32         => 5
  | .uint16        => 3
  | .int16         => 3
  | .byte          => 3
  | .string        => 0
  | .buffer        => 0
  | .progmemBuffer => 0
  | .unknown _     => 0

/-- The bytes of a memory from an address on, as it reads them. -/
def Memory.bytes (m : Memory) (a n : Nat) : List Byte := (List.range n).map fun i => Memory.get m (a + i)

/-! ### Encoding arguments, running handlers -/

/-- `Encodes data progmem cap ts p args bs left`: with the capacity `cap`, parameters of the types `ts`, one after another
from the cursor `p`, take their words from `args` in order, leave `left`, and are written as `bs` (R163, R200 to R205,
the words each type takes by R207). A string above 255 characters, which no FRAME_TX writes, has its length modulo 256
(log 34). -/
inductive Encodes (data progmem : Memory) (cap : Nat) :
    List ArgType → Nat → List Word → List Byte → List Word → Prop
  | done (p : Nat) (left : List Word) : Encodes data progmem cap [] p left [] left
  | full {t : ArgType} {ts : List ArgType} {p : Nat} {v : Word} {args left : List Word} {bs : List Byte}
      (type : t = .uint32 ∨ t = .int32) (fits : p + vlqLen v ≤ cap)
      (rest : Encodes data progmem cap ts (p + vlqLen v) args bs left) :
      Encodes data progmem cap (t :: ts) p (v :: args) (vlqEnc v ++ bs) left
  | short {t : ArgType} {ts : List ArgType} {p : Nat} {v w : Word} {args left : List Word} {bs : List Byte}
      (type : t = .uint16 ∨ t = .int16 ∨ t = .byte) (masked : w = v &&& 0xFFFF#32) (fits : p + vlqLen w ≤ cap)
      (rest : Encodes data progmem cap ts (p + vlqLen w) args bs left) :
      Encodes data progmem cap (t :: ts) p (v :: args) (vlqEnc w ++ bs) left
  | string {ts : List ArgType} {p n : Nat} {a : Word} {args left : List Word} {bs : List Byte}
      (room : p < cap) (fits : n ≤ cap - (p + 1)) (space : a.toNat + min (n + 1) (cap - (p + 1)) ≤ 2 ^ 32)
      (chars : ∀ j, j < n → Memory.get data (a.toNat + j) ≠ 0)
      (ends : n = cap - (p + 1) ∨ Memory.get data (a.toNat + n) = 0)
      (rest : Encodes data progmem cap ts (p + 1 + n) args bs left) :
      Encodes data progmem cap (.string :: ts) p (a :: args)
        (BitVec.ofNat 8 n :: (Memory.bytes data a.toNat n ++ bs)) left
  | buffer {t : ArgType} {m : Memory} {ts : List ArgType} {p k : Nat} {n a : Word} {args left : List Word}
      {bs : List Byte} (source : (t = .buffer ∧ m = data) ∨ (t = .progmemBuffer ∧ m = progmem))
      (short : n.toNat ≤ 255) (room : p < cap) (clamped : k = min n.toNat (cap - (p + 1)))
      (space : a.toNat + k ≤ 2 ^ 32) (rest : Encodes data progmem cap ts (p + 1 + k) args bs left) :
      Encodes data progmem cap (t :: ts) p (n :: a :: args)
        (BitVec.ofNat 8 k :: (Memory.bytes m a.toNat k ++ bs)) left

/-- `NoRoom cap t p args`: a parameter of type `t`, its words at the head of `args`, does not fit from the cursor `p` to
the capacity (R200 to R205), or is of no type (R206). -/
inductive NoRoom (cap : Nat) : ArgType → Nat → List Word → Prop
  | full {t : ArgType} {p : Nat} {v : Word} {args : List Word} (type : t = .uint32 ∨ t = .int32)
      (exceeds : cap < p + vlqLen v) : NoRoom cap t p (v :: args)
  | short {t : ArgType} {p : Nat} {v : Word} {args : List Word} (type : t = .uint16 ∨ t = .int16 ∨ t = .byte)
      (exceeds : cap < p + vlqLen (v &&& 0xFFFF#32)) : NoRoom cap t p (v :: args)
  | string {p : Nat} {a : Word} {args : List Word} (exceeds : cap < p + 1) : NoRoom cap .string p (a :: args)
  | buffer {t : ArgType} {p : Nat} {n a : Word} {args : List Word} (type : t = .buffer ∨ t = .progmemBuffer)
      (short : n.toNat ≤ 255) (exceeds : cap < p + 1) : NoRoom cap t p (n :: a :: args)
  | unknown (c p : Nat) (args : List Word) : NoRoom cap (.unknown c) p args

/-- `HandlerRan live acts s t`: a handler that does `acts`, one after another, takes the state `s` to `t` (R225). A send
is FRAME_TX; a read of the input takes bytes of one of the pointer words `live`. -/
inductive HandlerRan (live : List (Nat × List Byte)) : List HandlerAction → State → State → Prop
  | done (s : State) : HandlerRan live [] s s
  | send {id : Nat} {args : List Word} {acts : List HandlerAction} {s u t : State}
      (sent : exec (.frameTx id args) s = .next u) (returned : u.result = .none)
      (rest : HandlerRan live acts { u with result := s.result } t) : HandlerRan live (.send id args :: acts) s t
  | store {a : Word} {bs : List Byte} {acts : List HandlerAction} {m : Memory} {s t : State}
      (wrote : Memory.write s.data a.toNat bs = some m)
      (rest : HandlerRan live acts { s with data := m } t) : HandlerRan live (.store a bs :: acts) s t
  | copyIn {a : Word} {q src n : Nat} {d : List Byte} {acts : List HandlerAction} {m : Memory} {s t : State}
      (pointer : (q, d) ∈ live) (low : q ≤ src) (high : src + n ≤ q + d.length)
      (wrote : Memory.write s.data a.toNat ((d.drop (src - q)).take n) = some m)
      (rest : HandlerRan live acts { s with data := m } t) : HandlerRan live (.copyIn a src n :: acts) s t

/-- `Served p payload live s live' t`: the payload, its first byte at index `p` of the view, is one known, allowed,
well-formed command after another, and dispatching them with their handlers, in wire order, takes the state `s` to `t`;
`live` and `live'` are what pointer words name before and after (R222 to R225, R229). -/
inductive Served : Nat → List Byte → List (Nat × List Byte) → State → List (Nat × List Byte) → State → Prop
  | done (p : Nat) (live : List (Nat × List Byte)) (s : State) : Served p [] live s live s
  | command {p : Nat} {id : Byte} {parser : Parser} {bs rest : List Byte} {args : List Word}
      {inline live live' : List (Nat × List Byte)} {acts : List HandlerAction} {hs : List (List HandlerAction)}
      {s u t : State} (known : Schema.parserOf s.config.schema id = some parser)
      (allowed : s.shutdown = true → parser.inShutdown = true) (parsed : Parses parser.paramTypes (p + 1) bs args inline)
      (scripted : s.handlerRuns = acts :: hs)
      (ran : HandlerRan (live ++ inline) acts (s.dispatched [.dispatch id args (inline.map Prod.snd)] hs) u)
      (next : Served (p + 1 + bs.length) rest (live ++ inline) u live' t) :
      Served p (id :: (bs ++ rest)) live s live' t

/-! ### Kinds of instructions -/

/-- Whether an instruction gives the input FIFO to FRAME_RX: FRAME_RX, POLL and the frame-layer forms (R60). -/
def pollsInput : Instr → Bool
  | .frameRx          => true
  | .poll             => true
  | .frame _ _ _      => true
  | .frameLen _       => true
  | .frameSeq _       => true
  | .frameCrc _       => true
  | .frameSync        => true
  | .ackNakFrame _ _  => true
  | .crc16 _            => false
  | .vlqEnc _ _         => false
  | .vlqDec _ _ _       => false
  | .ackNak             => false
  | .frameTx _ _        => false
  | .parse _ _ _        => false
  | .encodeArg _ _ _ _  => false
  | .command _ _        => false
  | .vlqLastByte _      => false
  | .vlqContByte _      => false
  | .vlqSign _ _        => false
  | .vlq1 _             => false
  | .vlq2 _             => false
  | .vlq3 _             => false
  | .vlq4 _             => false
  | .vlq5 _             => false
  | .argUint32 _        => false
  | .argInt32 _         => false
  | .argUint16 _        => false
  | .argInt16 _         => false
  | .argByte _          => false
  | .argBuffer _        => false
  | .argString _        => false
  | .argProgmemBuffer _ => false

/-- Whether an instruction can dispatch commands to handlers: POLL, the frame-layer forms and COMMAND (R225). -/
def dispatches : Instr → Bool
  | .frameRx          => false
  | .poll             => true
  | .frame _ _ _      => true
  | .frameLen _       => true
  | .frameSeq _       => true
  | .frameCrc _       => true
  | .frameSync        => true
  | .ackNakFrame _ _  => true
  | .crc16 _            => false
  | .vlqEnc _ _         => false
  | .vlqDec _ _ _       => false
  | .ackNak             => false
  | .frameTx _ _        => false
  | .parse _ _ _        => false
  | .encodeArg _ _ _ _  => false
  | .command _ _        => true
  | .vlqLastByte _      => false
  | .vlqContByte _      => false
  | .vlqSign _ _        => false
  | .vlq1 _             => false
  | .vlq2 _             => false
  | .vlq3 _             => false
  | .vlq4 _             => false
  | .vlq5 _             => false
  | .argUint32 _        => false
  | .argInt32 _         => false
  | .argUint16 _        => false
  | .argInt16 _         => false
  | .argByte _          => false
  | .argBuffer _        => false
  | .argString _        => false
  | .argProgmemBuffer _ => false

/-- The bytes an instruction delivers to the input FIFO before the poll: those of a frame-layer form (log 14). -/
def delivers (i : Instr) : List Byte := if pollsInput i then encode i else []

end Sys2Proof.Machine
end

