-- ==== Sys2Proof/Certificates/Slice0/Obligations.lean ====
section
/-! DEFINITION. The statements for the provers, in the order of the spec's files. Each docstring names the rules it
formalises; where a clause rests on a decision of the spec or on a choice of the model, it names the decision or the log
entry. -/

open Sys2Proof
open Sys2Proof.Machine

/-! ### Reset, the step, the configuration -/

/-- R281: `NEXT_SEQ` is 0x10 at reset; that both flags are clear and no reservation is open is the spec's decision
D3. -/
def Obligations.ResetRegistersAndFlags : Prop :=
  State.reset.nextSeq = 0x10#8 ∧ State.reset.needSync = false ∧ State.reset.needValid = false
    ∧ State.reset.reservation = none

/-- R32 from R281 on: reset meets the invariant that every step keeps. -/
def Obligations.ResetMeetsInvariant : Prop := State.reset.Inv = true

/-- R57, R285: a step runs the instruction the next move calls or presents, decoded, and polls when there is none; an
instruction placed by its table word is decoded and run by the very next step (the agenda: log 1, log 18). -/
def Obligations.StepRunsDecodedInstruction : Prop :=
  (∀ (s : State) (i : Instr) (rest : List Move), s.config.wf = true → s.agenda = .call i :: rest →
      step s = exec i { s with agenda := rest })
    ∧ (∀ (s : State) (f : Form) (bs : List Byte) (i : Instr) (rest : List Move), s.config.wf = true →
        s.agenda = .present f bs :: rest → decodeAs f bs = .ok (i, []) → step s = exec i { s with agenda := rest })
    ∧ (∀ s : State, s.config.wf = true → s.agenda = [] → step s = exec .poll s)
    ∧ (∀ (s : State) (nbits w : Nat) (i : Instr), s.config.wf = true → decodeTableWord nbits w = some i →
        step (s.withFetchWord nbits w) = exec i s)

/-- R57(c), R46, R292: what each move of the environment does, and that a pointer word read after its POLL faults
(U15). What a fresh reservation holds is log 11. -/
def Obligations.StepMakesEnvironmentMoves : Prop :=
  ∀ (s : State) (m : Move) (rest : List Move), s.config.wf = true → s.agenda = m :: rest →
    (∀ bs, m = .arrive bs → step s = .next { s with agenda := rest, input := s.input ++ bs })
      ∧ (∀ n, m = .drain n → step s = .next { s with agenda := rest, output := s.output.drop n })
      ∧ (∀ on r, m = .setShutdown on r →
          step s = .next { s with agenda := rest, shutdown := on, shutdownReason := r })
      ∧ (∀ n, m = .reserve n → s.granted n = true →
          step s = .next { s.useGrant with agenda := rest, reservation := some (List.replicate n 0) })
      ∧ (∀ n, m = .reserve n → s.granted n = false → step s = .next { s.useGrant with agenda := rest })
      ∧ (∀ p, m = .usePointer p → step s = .fault .deadPointer)

/-- R50 (the spec's decision D15) and U8: a schema is well-formed exactly when the conditions hold, and a step refuses
any other before it does anything. -/
def Obligations.SchemaCheckedBeforeEveryStep : Prop :=
  (∀ c : Config, c.wf = true ↔
      c.schema.commandIndex.length ≤ 256
        ∧ (∀ p, some p ∈ c.schema.commandIndex →
            p.numArgs = p.paramTypes.countP ArgType.isInt + 2 * p.paramTypes.count .buffer ∧ p.handler ≠ none)
        ∧ (∀ e ∈ c.schema.commandEncoders, 1 ≤ e.maxSize ∧ e.maxSize ≤ 59)
        ∧ (∃ e, c.schema.commandEncoders[c.schema.encIsShutdown]? = some e ∧ e.paramTypes = [.uint16]))
    ∧ (∀ s : State, s.config.wf = false → step s = .refused .schemaIllFormed)

/-- R43, R57: a task's store is read back, every other byte keeps its value, the memory keeps its canonical form; past
the 32-bit space the step faults (log 10). -/
def Obligations.StoreThenReadBack : Prop :=
  ∀ (s : State) (a : Word) (bs : List Byte) (rest : List Move), s.config.wf = true → Memory.wf s.data = true →
    s.agenda = .store a bs :: rest →
    (a.toNat + bs.length ≤ 2 ^ 32 →
        ∃ m, step s = .next { s with agenda := rest, data := m } ∧ Memory.wf m = true
          ∧ (∀ j, j < bs.length → Memory.get m (a.toNat + j) = byteAt bs j)
          ∧ (∀ x, x < a.toNat ∨ a.toNat + bs.length ≤ x → Memory.get m x = Memory.get s.data x))
      ∧ (2 ^ 32 < a.toNat + bs.length → step s = .fault .addressOutsideSpace)

/-! ### Encodings -/

/-- R70 to R83: words written out from the spec's encodings and its test vectors decode to what they stand for. The last
clause, a word as the opcode table numbers it, rests on the model's reading of that numbering and of bare bytes
(log 18). -/
def Obligations.DecodedSampleWords : Prop :=
  decodeAs .frame [0x07, 0x10, 0x07, 0x2A, 0x8A, 0x31, 0x7E] = .ok (.frame 0 [0x07, 0x2A] 0x8A31, [])
    ∧ decodeAs .ackNakFrame [0x05, 0x11, 0xE0, 0xEA, 0x7E] = .ok (.ackNakFrame 1 0xE0EA, [])
    ∧ decodeAs .frameSeq [0b00011111] = .ok (.frameSeq 15, [])
    ∧ decodeAs .frameSeq [0b10010000] = .error .badTag
    ∧ decodeAs .frameLen [0x41] = .error .badLength
    ∧ decodeAs .frameSync [0b01111110] = .ok (.frameSync, [])
    ∧ decodeAs .command [0x07, 0x2A] = .ok (.command 0x07 [0x2A], [])
    ∧ decodeAs .vlqSign [0b01111111] = .ok (.vlqSign false 31, [])
    ∧ decodeAs .vlq2 [0b10000111, 0b01101000] = .ok (.vlq2 1000, [])
    ∧ decodeAs .vlq5 [0x88, 0x80, 0x80, 0x80, 0x00] = .ok (.vlq5 0x80000000, [])
    ∧ decodeAs .argBuffer [0x02, 0xAA, 0xBB, 0x07] = .ok (.argBuffer [0xAA, 0xBB], [0x07])
    ∧ decodeTableWord 16 0x8768 = some (.vlq2 1000)

/-- R70 to R83, R87: for every well-formed wire form, whatever its fields, its bytes decode to it, and what follows them
is left over; a command stores no length, so it takes all the bytes it is given. -/
def Obligations.DecodeEncodeAgree : Prop :=
  ∀ (i : Instr) (f : Form) (rest : List Byte), i.wf = true → i.form? = some f → (f = .command → rest = []) →
    decodeAs f (encode i ++ rest) = .ok (i, rest)

/-- R70 to R83: the decoder drops no bit: whatever it reads, writing the instruction gives the same bytes back. -/
def Obligations.EncodeDecodeAgree : Prop :=
  ∀ (f : Form) (bs rest : List Byte) (i : Instr), decodeAs f bs = .ok (i, rest) →
    encode i ++ rest = bs ∧ i.form? = some f

/-- R84: a frame built from at most 59 payload bytes is valid, whatever follows it, and its payload and its sequence
byte are at offsets 2 and 1. -/
def Obligations.FrameRoundTrip : Prop :=
  ∀ (k : CrcKind) (payload rest : List Byte) (n : BitVec 4), payload.length ≤ 59 →
    frameValid k (buildFrame k payload (seqByte n) ++ rest) = true
      ∧ (buildFrame k payload (seqByte n)).length = payload.length + 5
      ∧ byteAt (buildFrame k payload (seqByte n)) 1 = 0x10#8 ||| n.setWidth 8
      ∧ ((buildFrame k payload (seqByte n)).drop 2).take payload.length = payload

/-! ### CRC16 and the VLQ codec -/

/-- R100, R101, R104: CRC16 is a pure function of its bytes, one fixed function for each configuration, and under the
default the table-driven form gives the same result for every input. That the polynomial is 0x1021 is the spec's own
general knowledge (D2, log 8). -/
def Obligations.CrcTableDriven : Prop :=
  (∀ (bytes : List Byte) (s : State),
      exec (.crc16 bytes) s = .next { s with result := .crc (crc16 s.config.crc bytes) })
    ∧ (∀ (bytes : List Byte) (s : State), s.config.crc = .standard →
      exec (.crc16 bytes) s = .next { s with result := .crc (bytes.foldl crcTableByte 0xFFFF#16) })
    ∧ crcTable 1 = 0x1021#16 ∧ crcTable 255 = 0x1EF0#16

/-- R103(a): appending a list's own CRC, high byte first, gives CRC zero. -/
def Obligations.CrcResidueIsZero : Prop :=
  ∀ h : List Byte, crcStandard (h ++ [hiByte (crcStandard h), loByte (crcStandard h)]) = 0#16

/-- R115: the length VLQ_ENC selects, by the signed tests and by the unsigned ranges of the rule. -/
def Obligations.VlqEncLengthByRange : Prop :=
  ∀ (v : Word) (s : State), ∃ bs, exec (.vlqEnc v none) s = .next { s with result := .bytes bs }
    ∧ bs.length = vlqLenHex v.toNat
    ∧ bs.length =
        if -2 ^ 5 ≤ v.toInt ∧ v.toInt < 3 * 2 ^ 5 then 1
        else if -2 ^ 12 ≤ v.toInt ∧ v.toInt < 3 * 2 ^ 12 then 2
        else if -2 ^ 19 ≤ v.toInt ∧ v.toInt < 3 * 2 ^ 19 then 3
        else if -2 ^ 26 ≤ v.toInt ∧ v.toInt < 3 * 2 ^ 26 then 4
        else 5

/-- R116: decoding what VLQ_ENC gives yields the value and the whole length, and the converse does not hold. -/
def Obligations.VlqRoundTrip : Prop :=
  (∀ (v : Word) (s : State), ∃ bs, exec (.vlqEnc v none) s = .next { s with result := .bytes bs }
      ∧ bs.length = vlqLen v
      ∧ ∀ t : State, exec (.vlqDec bs 0 none) t = .next { t with result := .vlq v (vlqLen v) })
    ∧ ∃ (bs : List Byte) (v : Word), isVlq bs = true
        ∧ (∀ t : State, exec (.vlqDec bs 0 none) t = .next { t with result := .vlq v bs.length }) ∧ vlqEnc v ≠ bs

/-- R110: wherever the cursor stands and whatever follows, VLQ_DEC gives the closed form of the bytes up to the first
one whose bit 7 is clear, and the cursor just past it. -/
def Obligations.VlqDecClosedForm : Prop :=
  ∀ (before v after : List Byte) (s : State), isVlq v = true →
    exec (.vlqDec (before ++ v ++ after) before.length none) s =
      .next { s with result := .vlq (BitVec.ofInt 32 (vlqInt v)) (before.length + v.length) }

/-- R111 (the spec's decision D8): a bounded decode tests the bound before each read. It gives the same value when a byte
with bit 7 clear comes before the bound, wherever the list ends, and raises when none does, the empty range included.
Unbounded, a list that ends too soon is refused (U1), and so is a read below the bound and past the list (log 25). -/
def Obligations.VlqDecBounded : Prop :=
  ∀ (bytes : List Byte) (p stop : Nat) (s : State),
    (∀ v after : List Byte, isVlq v = true → window bytes p stop = v ++ after →
        exec (.vlqDec bytes p (some stop)) s =
          .next { s with result := .vlq (BitVec.ofInt 32 (vlqInt v)) (p + v.length) })
      ∧ (stop ≤ bytes.length ∨ stop ≤ p → (∀ b ∈ window bytes p stop, b.msb = true) →
          ∃ t, exec (.vlqDec bytes p (some stop)) s = .next t ∧ State.Trapped s .parserError t)
      ∧ ((∀ b ∈ bytes.drop p, b.msb = true) → exec (.vlqDec bytes p none) s = .refused .vlqRunsOffList)
      ∧ (bytes.length < stop → p < stop → (∀ b ∈ bytes.drop p, b.msb = true) →
          exec (.vlqDec bytes p (some stop)) s = .refused .readPastView)

/-- R117: the values that some sequence of exactly `k` bytes decodes to, and VLQ_LEN is the least such `k`. -/
def Obligations.VlqRowsAreWhatDecodes : Prop :=
  ∀ (k : Nat) (v : Word), 1 ≤ k → k ≤ 5 →
    ((∃ bs, bs.length = k ∧ isVlq bs = true ∧ vlqDec bs = some (v, k)) ↔
        k = 5 ∨ (-(2 ^ (7 * k - 2) : Int) ≤ v.toInt ∧ v.toInt ≤ 3 * 2 ^ (7 * k - 2) - 1))
      ∧ ((∃ bs, bs.length = k ∧ isVlq bs = true ∧ vlqDec bs = some (v, k)) ↔ vlqLen v ≤ k)

/-- R78: each canonical form is read as the value its bits carry, with the sign of its two top data bits, and in the
row's own range it is what the encoder produces for that value. Bytes presented as any of the forms, canonical or not, are
what VLQ_DEC reads (R86, R112). That executing a form reads its own bytes from cursor 0 is log 17, that other bytes go to
the same reader log 33. -/
def Obligations.CanonicalVlqForms : Prop :=
  (∀ (v : BitVec 7) (s : State),
      exec (.vlq1 v) s = .next { s with result := .vlq (BitVec.ofInt 32 (groupsValue 1 v.toNat)) 1 }
        ∧ vlqEnc (BitVec.ofInt 32 (groupsValue 1 v.toNat)) = encode (.vlq1 v))
    ∧ (∀ (v : BitVec 14) (s : State),
        exec (.vlq2 v) s = .next { s with result := .vlq (BitVec.ofInt 32 (groupsValue 2 v.toNat)) 2 }
          ∧ (Instr.wf (.vlq2 v) = true → vlqEnc (BitVec.ofInt 32 (groupsValue 2 v.toNat)) = encode (.vlq2 v)))
    ∧ (∀ (v : BitVec 21) (s : State),
        exec (.vlq3 v) s = .next { s with result := .vlq (BitVec.ofInt 32 (groupsValue 3 v.toNat)) 3 }
          ∧ (Instr.wf (.vlq3 v) = true → vlqEnc (BitVec.ofInt 32 (groupsValue 3 v.toNat)) = encode (.vlq3 v)))
    ∧ (∀ (v : BitVec 28) (s : State),
        exec (.vlq4 v) s = .next { s with result := .vlq (BitVec.ofInt 32 (groupsValue 4 v.toNat)) 4 }
          ∧ (Instr.wf (.vlq4 v) = true → vlqEnc (BitVec.ofInt 32 (groupsValue 4 v.toNat)) = encode (.vlq4 v)))
    ∧ (∀ (v : BitVec 32) (s : State),
        exec (.vlq5 v) s = .next { s with result := .vlq v 5 }
          ∧ (Instr.wf (.vlq5 v) = true → vlqEnc v = encode (.vlq5 v)))
    ∧ (∀ (f : Form) (bs : List Byte) (s : State) (rest : List Move),
        f = .vlq1 ∨ f = .vlq2 ∨ f = .vlq3 ∨ f = .vlq4 ∨ f = .vlq5 → s.config.wf = true →
        s.agenda = .present f bs :: rest → step s = exec (.vlqDec bs 0 none) { s with agenda := rest })

/-- R77, R110: what one byte gives VLQ_DEC: the accumulator it seeds as a first byte (filled with ones when bits 6 and
5 are both 1), its seven data bits, and whether another byte follows. That a lone byte is read so is log 17, and
that a byte of another form is read alike log 33. -/
def Obligations.VlqByteForms : Prop :=
  (∀ (d : BitVec 7) (s : State), exec (.vlqLastByte d) s =
      .next { s with result := .vlqByte (BitVec.ofInt 32 (groupsValue 1 d.toNat)) d false })
    ∧ (∀ (d : BitVec 7) (s : State), exec (.vlqContByte d) s =
        .next { s with result := .vlqByte (BitVec.ofInt 32 (groupsValue 1 d.toNat)) d true })
    ∧ (∀ (more : Bool) (d : BitVec 5) (s : State), exec (.vlqSign more d) s =
        .next { s with result := .vlqByte (BitVec.ofInt 32 ((d.toNat : Int) - 32)) (3#2 ++ d) more })
    ∧ (∀ (f : Form) (c : Byte) (bs : List Byte) (s : State) (rest : List Move),
        f = .vlqLastByte ∨ f = .vlqContByte ∨ f = .vlqSign → s.config.wf = true →
        s.agenda = .present f (c :: bs) :: rest →
        step s = .next { s with
          agenda := rest
          result := .vlqByte (BitVec.ofInt 32 (groupsValue 1 (c.setWidth 7).toNat)) (c.setWidth 7) c.msb })

/-- R114, R121: in place, VLQ_ENC writes `OUT[p .. p+k)` and nothing else; without room or without a reservation the
call is outside its domain (log 25). -/
def Obligations.VlqEncInPlace : Prop :=
  ∀ (v : Word) (p : Nat) (s : State),
    (∀ r, s.reservation = some r → p + vlqLen v ≤ r.length →
        ∃ r', exec (.vlqEnc v (some p)) s =
            .next { s with reservation := some r', result := .cursor (p + vlqLen v) }
          ∧ r'.length = r.length ∧ (r'.drop p).take (vlqLen v) = vlqEnc v
          ∧ ∀ j, j < p ∨ p + vlqLen v ≤ j → r'[j]? = r[j]?)
      ∧ (∀ r, s.reservation = some r → r.length < p + vlqLen v →
          exec (.vlqEnc v (some p)) s = .refused .outsideReservation)
      ∧ (s.reservation = none → exec (.vlqEnc v (some p)) s = .refused .noReservation)

/-! ### FRAME_RX and ACKNAK -/

/-- R132, R135: fewer than five bytes, or a good header and an incomplete frame: nothing changes. -/
def Obligations.FrameRxWaitsForBytes : Prop :=
  ∀ s : State, s.needSync = false →
    s.input.length < 5 ∨ (lenOk s.input = true ∧ tagOk (byteAt s.input 1) = true
      ∧ s.input.length < (byteAt s.input 0).toNat) →
    exec .frameRx s = .next { s with result := .noFrame } ∧ exec .poll s = .next { s with result := .none }

/-- R142: with five bytes present and no resync pending, a leading SYNC is popped, and no flag, no number and no output
changes. -/
def Obligations.FrameRxSwallowsLeadingSync : Prop :=
  ∀ s : State, s.needSync = false → 5 ≤ s.input.length → byteAt s.input 0 = 0x7E#8 →
    exec .frameRx s =
        .next { s with input := s.input.drop 1, trace := s.trace ++ [.pop 1], result := .noFrame }
      ∧ exec .poll s = .next { s with input := s.input.drop 1, trace := s.trace ++ [.pop 1], result := .none }

/-- R131, R143 to R146: an invalid view not led by SYNC, or a pending resync: the input is popped through its first SYNC,
or whole, `NEED_SYNC` says whether one is still to be found (the spec's decisions D4, D18), and a NAK is offered only
when the latch was clear, which it then is not. -/
def Obligations.FrameRxResyncsAndNaksOnce : Prop :=
  ∀ s : State,
    s.needSync = true ∨ (viewInvalid s.config.crc s.input = true ∧ byteAt s.input 0 ≠ 0x7E#8) →
    (s.needValid = true →
        exec .frameRx s = .next (s.scanned.answer .noFrame) ∧ exec .poll s = .next (s.scanned.answer .none))
      ∧ (s.needValid = false →
          exec .frameRx s = .next ((State.offer 5 s.emptyFrame { s.scanned with needValid := true }).answer .noFrame)
            ∧ exec .poll s = .next ((State.offer 5 s.emptyFrame { s.scanned with needValid := true }).answer .none))

/-- R138, R140: a valid frame with the expected number: `NEED_VALID` is cleared, `NEXT_SEQ` advances modulo 16 before the
ACK that carries it is offered, nothing is popped, and the frame's length is returned, whether or not the ACK went
out. -/
def Obligations.FrameRxAcceptsExpectedFrame : Prop :=
  ∀ s : State, s.needSync = false → frameValid s.config.crc s.input = true → byteAt s.input 1 = s.nextSeq →
    exec .frameRx s = .next (s.accepted.answer (.frame (byteAt s.input 0).toNat))
      ∧ s.accepted.nextSeq = 0x10#8 ||| ((byteAt s.input 1 + 1) &&& 0x0F#8)
      ∧ s.accepted.needValid = false ∧ s.accepted.needSync = false ∧ s.accepted.input = s.input
      ∧ s.accepted.output =
          s.output ++ (if s.granted 5 then buildFrame s.config.crc [] s.accepted.nextSeq else [])

/-- R138, R141: a valid frame with another number is popped whole, a NAK carrying the unchanged `NEXT_SEQ` is offered
whatever the latch said, and the latch is cleared. -/
def Obligations.FrameRxDiscardsOutOfSequence : Prop :=
  ∀ s : State, s.needSync = false → frameValid s.config.crc s.input = true → byteAt s.input 1 ≠ s.nextSeq →
    ∀ t, t = State.offer 5 s.emptyFrame
        { s with needValid := false
                 input := s.input.drop (byteAt s.input 0).toNat
                 trace := s.trace ++ [.pop (byteAt s.input 0).toNat] } →
      exec .frameRx s = .next (t.answer .noFrame) ∧ exec .poll s = .next (t.answer .none) ∧ t.nextSeq = s.nextSeq

/-- R256, R258: FRAME_RX and ACKNAK do the same whatever the shutdown state is, and leave it as it is. -/
def Obligations.FrameLayerIgnoresShutdownMode : Prop :=
  ∀ (s : State) (on : Bool) (r : Half),
    (∃ t, exec .frameRx s = .next t
        ∧ exec .frameRx { s with shutdown := on, shutdownReason := r } =
            .next { t with shutdown := on, shutdownReason := r }
        ∧ t.shutdown = s.shutdown ∧ t.shutdownReason = s.shutdownReason)
      ∧ ∃ t, exec .ackNak s = .next t
        ∧ exec .ackNak { s with shutdown := on, shutdownReason := r } =
            .next { t with shutdown := on, shutdownReason := r }
        ∧ t.shutdown = s.shutdown ∧ t.shutdownReason = s.shutdownReason

/-- R167, R168 (the spec's decision D6): ACKNAK commits the five bytes stamped with `NEXT_SEQ`, or drops them, as the
transport answers, and changes nothing else of the block. -/
def Obligations.AckNakSendsEmptyFrame : Prop :=
  ∀ s : State,
    ∀ f, f = [0x05, s.nextSeq, hiByte (crc16 s.config.crc [0x05, s.nextSeq]),
        loByte (crc16 s.config.crc [0x05, s.nextSeq]), 0x7E] →
    (s.granted 5 = true → exec .ackNak s =
        .next { s.useGrant with
          reservation := none, output := s.output ++ f, trace := s.trace ++ [.commit f], result := .none })
      ∧ (s.granted 5 = false → exec .ackNak s =
        .next { s.useGrant with trace := s.trace ++ [.drop], result := .none })

/-! ### FRAME_TX and ENCODE -/

/-- R161, R168: a refused reservation drops the send; the arguments are not looked at. -/
def Obligations.FrameTxDropsWhenRefused : Prop :=
  ∀ (s : State) (id : Nat) (e : Encoder) (args : List Word),
    s.config.schema.commandEncoders[id]? = some e → s.granted (e.maxSize + 5) = false →
    exec (.frameTx id args) s = .next { s.useGrant with trace := s.trace ++ [.drop], result := .none }

/-- R164 to R166: the committed frame is header, message id, parameters, CRC high byte first, SYNC; its second byte is
`NEXT_SEQ`; its length is in the bounds of R164. -/
def Obligations.FrameTxCommitsOneFrame : Prop :=
  ∀ (s : State) (id : Nat) (e : Encoder) (args : List Word) (bs : List Byte),
    s.config.wf = true → s.config.schema.commandEncoders[id]? = some e → s.granted (e.maxSize + 5) = true →
    encodeParams s.data s.progmem e.paramTypes args 3 (2 + e.maxSize) = .ok bs →
    ∀ h f, h = BitVec.ofNat 8 (bs.length + 6) :: s.nextSeq :: e.msgId :: bs →
      f = h ++ [hiByte (crc16 s.config.crc h), loByte (crc16 s.config.crc h), 0x7E#8] →
      exec (.frameTx id args) s =
          .next { s.useGrant with
            reservation := none, output := s.output ++ f, trace := s.trace ++ [.commit f], result := .none }
        ∧ f.length = bs.length + 6 ∧ 6 ≤ f.length ∧ f.length ≤ e.maxSize + 5 ∧ e.maxSize + 5 ≤ 64

/-- R247, R246: an encode error inside FRAME_TX raises "Message encode error"; nothing is committed and the reservation
is abandoned (the spec's decisions D7, D9). So does a parameter that finds no room behind those before it (R200, R209(i)),
or one of no type (D25). -/
def Obligations.FrameTxEncodeErrorCommitsNothing : Prop :=
  ∀ (s : State) (id : Nat) (e : Encoder) (args : List Word),
    s.config.schema.commandEncoders[id]? = some e → s.granted (e.maxSize + 5) = true →
    encodeParams s.data s.progmem e.paramTypes args 3 (2 + e.maxSize) = .error (.shutdown .encodeError)
      ∨ (∃ (before more : List ArgType) (t : ArgType) (bs : List Byte) (left : List Word),
          e.paramTypes = before ++ t :: more
            ∧ Encodes s.data s.progmem (2 + e.maxSize) before 3 args bs left
            ∧ NoRoom (2 + e.maxSize) t (3 + bs.length) left) →
    ∃ t, exec (.frameTx id args) s = .next t ∧ State.Trapped s.useGrant .encodeError t

/-- R163, R207: the frame carries the parameters of any types in order, each written behind the one before it from the
words it takes: integers, strings of DATA, buffers of DATA and of PROGMEM, cut to the room left. Words left over are
ignored (log 23). R209(c), R201, R202: an encoder of integer types whose `max_size` is the sum R209(c) gives never
raises: its parameters stand whole or masked to 16 bits. -/
def Obligations.FrameTxSizedEncoderCompletes : Prop :=
  (∀ (s : State) (id : Nat) (e : Encoder) (args left : List Word) (bs : List Byte),
      s.config.wf = true → s.config.schema.commandEncoders[id]? = some e →
      Encodes s.data s.progmem (2 + e.maxSize) e.paramTypes 3 args bs left →
      exec (.frameTx id args) s =
        .next ((State.offer (e.maxSize + 5) (buildFrame s.config.crc (e.msgId :: bs) s.nextSeq) s).answer .none))
    ∧ (∀ (s : State) (id : Nat) (e : Encoder) (args : List Word),
        s.config.schema.commandEncoders[id]? = some e → (∀ t ∈ e.paramTypes, t.isInt = true) →
        e.paramTypes.length ≤ args.length → 1 + (e.paramTypes.map intArgMax).sum ≤ e.maxSize →
        exec (.frameTx id args) s = .next ((State.offer (e.maxSize + 5)
          (buildFrame s.config.crc
            (e.msgId :: (List.zipWith
              (fun t v => vlqEnc (if t = .uint32 ∨ t = .int32 then v else v &&& 0xFFFF#32)) e.paramTypes args).flatten)
            s.nextSeq) s).answer .none))

/-- R201: `uint32` and `int32`: the whole word's VLQ when it fits below `cap_end`, else "Message encode error". -/
def Obligations.EncodeFullWordIntegers : Prop :=
  ∀ (s : State) (r : List Byte) (t : ArgType) (v : Word) (ws : List Word) (p cap : Nat),
    t = .uint32 ∨ t = .int32 → s.reservation = some r →
    (p + vlqLen v ≤ cap → p + vlqLen v ≤ r.length → exec (.encodeArg t (v :: ws) p cap) s =
        .next { s with reservation := some (writeAt r p (vlqEnc v)), result := .cursor (p + vlqLen v) })
      ∧ (cap < p + vlqLen v →
          ∃ u, exec (.encodeArg t (v :: ws) p cap) s = .next u ∧ State.Trapped s .encodeError u)

/-- R202: `uint16`, `int16` and `byte`: the word masked to 16 bits, never more than three bytes. -/
def Obligations.EncodeShortIntegers : Prop :=
  ∀ (s : State) (r : List Byte) (t : ArgType) (v w : Word) (ws : List Word) (p cap : Nat),
    t = .uint16 ∨ t = .int16 ∨ t = .byte → s.reservation = some r → w = v &&& 0xFFFF#32 →
    (p + vlqLen w ≤ cap → p + vlqLen w ≤ r.length → exec (.encodeArg t (v :: ws) p cap) s =
        .next { s with reservation := some (writeAt r p (vlqEnc w)), result := .cursor (p + vlqLen w) })
      ∧ (cap < p + vlqLen w →
          ∃ u, exec (.encodeArg t (v :: ws) p cap) s = .next u ∧ State.Trapped s .encodeError u)
      ∧ vlqLen w = if w.toNat ≤ 95 then 1 else if w.toNat ≤ 12287 then 2 else 3

/-- R203: a string's length byte and its characters up to the NUL or the room left, whichever comes first; the byte past
the room is not read; under a well-formed schema at most 57 characters. Without room for the length byte it raises.
(A string above 255 characters: EncodeWritesOnlyItsBytes. A character past the 32-bit space:
CallsOutsideTheirDomainStop.) -/
def Obligations.EncodeStringToNulOrCapacity : Prop :=
  ∀ (s : State) (r : List Byte) (a : Word) (ws : List Word) (p cap n : Nat), s.reservation = some r →
    (p < cap → n ≤ 255 → n ≤ cap - (p + 1) → p + 1 + n ≤ r.length → a.toNat + min (n + 1) (cap - (p + 1)) ≤ 2 ^ 32 →
        (∀ j, j < n → Memory.get s.data (a.toNat + j) ≠ 0) →
        (n = cap - (p + 1) ∨ Memory.get s.data (a.toNat + n) = 0) →
        exec (.encodeArg .string (a :: ws) p cap) s =
          .next { s with
            reservation := some (writeAt r p (BitVec.ofNat 8 n :: Memory.bytes s.data a.toNat n))
            result := .cursor (p + 1 + n) }
          ∧ (∀ e ∈ s.config.schema.commandEncoders, s.config.wf = true → cap = 2 + e.maxSize → 3 ≤ p → n ≤ 57))
      ∧ (cap < p + 1 →
          ∃ u, exec (.encodeArg .string (a :: ws) p cap) s = .next u ∧ State.Trapped s .encodeError u)

/-- R204, R205: a buffer's length clamped to the room left and that many bytes of DATA or of PROGMEM; without room for
the length byte it raises; a length above 255 is refused (U7). (A byte past the 32-bit space:
CallsOutsideTheirDomainStop.) -/
def Obligations.EncodeBufferClamped : Prop :=
  ∀ (s : State) (r : List Byte) (t : ArgType) (m : Memory) (n a : Word) (ws : List Word) (p cap k : Nat),
    (t = .buffer ∧ m = s.data) ∨ (t = .progmemBuffer ∧ m = s.progmem) → s.reservation = some r →
    k = min n.toNat (cap - (p + 1)) →
    (n.toNat ≤ 255 → p < cap → p + 1 + k ≤ r.length → a.toNat + k ≤ 2 ^ 32 →
        exec (.encodeArg t (n :: a :: ws) p cap) s =
          .next { s with
            reservation := some (writeAt r p (BitVec.ofNat 8 k :: Memory.bytes m a.toNat k))
            result := .cursor (p + 1 + k) })
      ∧ (n.toNat ≤ 255 → cap < p + 1 →
          ∃ u, exec (.encodeArg t (n :: a :: ws) p cap) s = .next u ∧ State.Trapped s .encodeError u)
      ∧ (255 < n.toNat → exec (.encodeArg t (n :: a :: ws) p cap) s = .refused .bufferTooLong)

/-- R206 (the spec's decision D25): an undefined type raises, whatever the arguments. -/
def Obligations.EncodeUnknownTypeRaises : Prop :=
  ∀ (s : State) (r : List Byte) (c : Nat) (args : List Word) (p cap : Nat), s.reservation = some r →
    ∃ u, exec (.encodeArg (.unknown c) args p cap) s = .next u ∧ State.Trapped s .encodeError u

/-- R207, R209(a): ENCODE writes only `OUT[p .. p')`, at least one byte, below `cap_end`, and changes nothing else of
the block, the memories or the output. What it writes and the words it leaves are those of R200 to R205; the length byte
of a string above 255 characters is the length modulo 256, the model's choice (log 34). -/
def Obligations.EncodeWritesOnlyItsBytes : Prop :=
  ∀ (s : State) (r bs : List Byte) (t : ArgType) (args ws : List Word) (p cap : Nat),
    s.reservation = some r → encodeParam s.data s.progmem t args p cap = .ok (bs, ws) →
    p + bs.length ≤ r.length →
    ∃ r', exec (.encodeArg t args p cap) s =
        .next { s with reservation := some r', result := .cursor (p + bs.length) }
      ∧ Encodes s.data s.progmem cap [t] p args bs ws
      ∧ r'.length = r.length ∧ 1 ≤ bs.length ∧ p + bs.length ≤ cap ∧ (r'.drop p).take bs.length = bs
      ∧ ∀ j, j < p ∨ p + bs.length ≤ j → r'[j]? = r[j]?

/-- Where a call is outside the domain the spec gives it, it stops by name: no such encoder (R170, U8), no
reservation or a write past it, too few arguments (logs 23, 25); a character of a string or a byte of a buffer past the
32-bit space (the model's reading, log 10); a VLQ byte or a length byte read past the view and below
the bound, after whatever arguments do parse (R41, log 25); no byte at all where VLQ_DEC reads one (U1, log 33). -/
def Obligations.CallsOutsideTheirDomainStop : Prop :=
  (∀ (s : State) (id : Nat) (args : List Word), s.config.schema.commandEncoders.length ≤ id →
      exec (.frameTx id args) s = .refused .noSuchEncoder)
    ∧ (∀ (s : State) (t : ArgType) (args : List Word) (p cap : Nat),
        (s.reservation = none → exec (.encodeArg t args p cap) s = .refused .noReservation)
          ∧ (∀ r bs ws, s.reservation = some r → encodeParam s.data s.progmem t args p cap = .ok (bs, ws) →
              r.length < p + bs.length → exec (.encodeArg t args p cap) s = .refused .outsideReservation)
          ∧ (∀ r, s.reservation = some r → (∀ c, t ≠ .unknown c) →
              exec (.encodeArg t [] p cap) s = .refused .argumentMissing))
    ∧ (∀ (s : State) (r : List Byte) (a : Word) (ws : List Word) (p cap n : Nat), s.reservation = some r →
        n < cap - (p + 1) → a.toNat + n = 2 ^ 32 → (∀ j, j < n → Memory.get s.data (a.toNat + j) ≠ 0) →
        exec (.encodeArg .string (a :: ws) p cap) s = .fault .addressOutsideSpace)
    ∧ (∀ (s : State) (r : List Byte) (t : ArgType) (n a : Word) (ws : List Word) (p cap : Nat),
        t = .buffer ∨ t = .progmemBuffer → s.reservation = some r → n.toNat ≤ 255 → p < cap →
        2 ^ 32 < a.toNat + min n.toNat (cap - (p + 1)) →
        exec (.encodeArg t (n :: a :: ws) p cap) s = .fault .addressOutsideSpace)
    ∧ (∀ (s : State) (p stop : Nat) (parser : Parser) (ts more : List ArgType) (t : ArgType) (bs after : List Byte)
          (args : List Word) (inline : List (Nat × List Byte)),
        (s.shutdown = true → parser.inShutdown = true) → parser.paramTypes = ts ++ t :: more →
        window s.input p stop = bs ++ after → Parses ts p bs args inline →
        (t.isInt = true ∧ ∀ b ∈ after, b.msb = true) ∨ (t = .buffer ∧ after = []) →
        s.input.length < stop → p < stop → exec (.parse p stop parser) s = .refused .readPastView)
    ∧ (∀ (s : State) (f : Form) (rest : List Move), s.config.wf = true → s.agenda = .present f [] :: rest →
        f = .vlqLastByte ∨ f = .vlqContByte ∨ f = .vlqSign → step s = .refused .vlqRunsOffList)

/-! ### PARSE -/

/-- R182, R184, R188: when the bytes from the cursor are one argument after another of the parser's types, PARSE gives
the words of the argument vector and the cursor just past the last argument, and changes nothing; a well-formed
parser's vector has `num_args` words (R50(c)). A buffer's inline bytes are not read (R184): its words stand wherever the
view ends, if only the bound is past them. That PARSE alone takes any parser descriptor, cursor and bound is the model's
choice (log 34). -/
def Obligations.ParseReadsArguments : Prop :=
  ∀ (s : State) (p stop : Nat) (parser : Parser), (s.shutdown = true → parser.inShutdown = true) →
    (∀ (bs after : List Byte) (args : List Word) (inline : List (Nat × List Byte)),
        window s.input p stop = bs ++ after → Parses parser.paramTypes p bs args inline →
        exec (.parse p stop parser) s = .next { s with result := .parsed (p + bs.length) args }
          ∧ (parser.wf = true → args.length = parser.numArgs))
      ∧ (∀ n : Nat, parser.paramTypes = [.buffer] → p < s.input.length → n = (byteAt s.input p).toNat →
          p + 1 + n ≤ stop → exec (.parse p stop parser) s =
            .next { s with result := .parsed (p + 1 + n) [BitVec.ofNat 32 n, BitVec.ofNat 32 (p + 1)] })

/-- R185, R187 (the spec's decision D8): when they are not, PARSE raises "Command parser error" (called alone on any
descriptor: log 34). In a POLL the commands
before the bad one have been dispatched, the bad one and those after it are not, and the frame stays in the input (R249,
R246). The handlers before it do nothing (log 6). -/
def Obligations.ParseRaisesParserError : Prop :=
  (∀ (s : State) (p stop : Nat) (parser : Parser),
      (s.shutdown = true → parser.inShutdown = true) → stop ≤ s.input.length ∨ stop ≤ p →
      (∀ bs after args inline, window s.input p stop = bs ++ after → ¬ Parses parser.paramTypes p bs args inline) →
      ∃ t, exec (.parse p stop parser) s = .next t ∧ State.Trapped s .parserError t)
    ∧ (∀ (s : State) (before bad after : List Byte) (id : Byte) (parser : Parser) (es : List Event)
          (hs : List (List HandlerAction)),
        s.needSync = false → s.seqTagged = true → (before ++ id :: bad).length ≤ 59 →
        s.input = buildFrame s.config.crc (before ++ id :: bad) s.nextSeq ++ after →
        Commands s.config.schema s.shutdown 2 before es → s.handlerRuns = List.replicate es.length [] ++ hs →
        s.config.schema.commandIndex[id.toNat]? = some (some parser) → (s.shutdown = true → parser.inShutdown = true) →
        (∀ bs more args inline, bad = bs ++ more → ¬ Parses parser.paramTypes (3 + before.length) bs args inline) →
        ∃ t, exec .poll s = .next t
          ∧ State.Trapped (s.accepted.dispatched es hs) .parserError t)

/-- R181 (the spec's decisions D11, D14), R190(a): in shutdown a command without `IN_SHUTDOWN` is not parsed, whatever its
bytes: the `is_shutdown` reply carrying the reason is offered and the result is Skip; a reply that does not fit its
encoder raises (R253). That a well-formed schema may hold such an encoder is the model's reading of R50(f) (log 21). PARSE
alone takes any descriptor (log 34). -/
def Obligations.ParseGuardSkips : Prop :=
  ∀ (s : State) (p stop : Nat) (parser : Parser) (e : Encoder) (v : Word), s.config.wf = true →
    s.config.schema.commandEncoders[s.config.schema.encIsShutdown]? = some e → s.shutdown = true →
    parser.inShutdown = false → v = s.shutdownReason.setWidth 32 →
    (1 + vlqLen v ≤ e.maxSize → exec (.parse p stop parser) s =
        .next ((State.offer (e.maxSize + 5) (buildFrame s.config.crc (e.msgId :: vlqEnc v) s.nextSeq) s).answer .skip))
      ∧ (e.maxSize < 1 + vlqLen v → s.granted (e.maxSize + 5) = true →
          ∃ t, exec (.parse p stop parser) s = .next t ∧ State.Trapped s.useGrant .encodeError t)

/-! ### POLL -/

/-- R222 to R227, R229: a frame with the expected number whose payload is one known, allowed, well-formed command after
another: the ACK is offered, every command is dispatched once in wire order with the arguments and inline bytes it
carries, then the frame is popped, once: under handlers that do nothing, and under handlers that send, store and read
through their pointer words, each run in full behind its dispatch and before the next one (the form of a run: log 6). -/
def Obligations.PollRunsCommandsInWireOrder : Prop :=
  ∀ (s : State) (payload after : List Byte), s.needSync = false → s.seqTagged = true → payload.length ≤ 59 →
    s.input = buildFrame s.config.crc payload s.nextSeq ++ after →
    (∀ (es : List Event) (hs : List (List HandlerAction)),
        Commands s.config.schema s.shutdown 2 payload es → s.handlerRuns = List.replicate es.length [] ++ hs →
        exec .poll s = .next { s.accepted with
          input := after
          handlerRuns := hs
          trace := s.accepted.trace ++ es ++ [.pop (payload.length + 5)]
          result := .none })
      ∧ (∀ (live : List (Nat × List Byte)) (t : State), Served 2 payload [] s.accepted live t →
          exec .poll s = .next { t with
            input := after
            trace := t.trace ++ [.pop (payload.length + 5)]
            result := .none })

/-- R70, R83, R86: the same for a frame, or an empty one, delivered by its wire form into an empty FIFO (log 14). -/
def Obligations.DeliveredFrameRuns : Prop :=
  ∀ (s u : State) (n : BitVec 4) (es : List Event) (hs : List (List HandlerAction)),
    s.needSync = false → s.input = [] → s.nextSeq = seqByte n →
    (∀ (payload : List Byte) (crc : Half), payload.length ≤ 59 →
        crc = crc16 s.config.crc (BitVec.ofNat 8 (payload.length + 5) :: seqByte n :: payload) →
        Commands s.config.schema s.shutdown 2 payload es → s.handlerRuns = List.replicate es.length [] ++ hs →
        u = State.accepted { s with input := encode (.frame n payload crc) } →
        exec (.frame n payload crc) s = .next { u with
          input := [], handlerRuns := hs, trace := u.trace ++ es ++ [.pop (payload.length + 5)], result := .none })
      ∧ (∀ crc : Half, crc = crc16 s.config.crc [0x05, seqByte n] →
          u = State.accepted { s with input := encode (.ackNakFrame n crc) } →
          exec (.ackNakFrame n crc) s =
            .next { u with input := [], trace := u.trace ++ [.pop 5], result := .none })

/-- R140, R227, R229, R246: whatever the handlers do, when POLL of an accepted frame completes, the ACK or its drop is
the first event; and either the frame is popped, once and last, or a shutdown ended the POLL, it is the last event and
nothing is popped. -/
def Obligations.PollAcknowledgesBeforeCommands : Prop :=
  ∀ s t : State, s.accepts = true → exec .poll s = .next t →
    t.nextSeq = s.accepted.nextSeq ∧ t.needSync = false ∧ t.needValid = false
      ∧ ∃ es, (∀ e ∈ es, ∀ n, e ≠ .pop n)
          ∧ ((t.input = s.input.drop (byteAt s.input 0).toNat ∧ t.result = .none
                ∧ t.trace = s.accepted.trace ++ es ++ [.pop (byteAt s.input 0).toNat])
              ∨ (∃ r, t.input = s.input ∧ t.result = .shutdown r ∧ t.shutdown = true
                ∧ t.trace = s.accepted.trace ++ es ++ [.shutdown r]))

/-- R223, R244: an id past the table or with a null entry raises "Invalid command", in shutdown or not; in a POLL the ACK
has been offered and nothing is popped, the commands before it have been dispatched and none after it is looked at
(R249). COMMAND presented alone is one turn of POLL's loop (log 15); the handlers before the bad command do nothing
(log 6). -/
def Obligations.UnknownCommandRaises : Prop :=
  ∀ s : State,
    (∀ (id : Byte) (args : List Byte),
        s.config.schema.commandIndex.length ≤ id.toNat ∨ s.config.schema.commandIndex[id.toNat]? = some none →
        ∃ t, exec (.command id args) s = .next t ∧ State.Trapped s .invalidCommand t)
      ∧ (s.accepts = true → 5 < (byteAt s.input 0).toNat →
          s.config.schema.commandIndex.length ≤ (byteAt s.input 2).toNat
            ∨ s.config.schema.commandIndex[(byteAt s.input 2).toNat]? = some none →
          ∃ t, exec .poll s = .next t ∧ State.Trapped s.accepted .invalidCommand t)
      ∧ (∀ (before more after : List Byte) (id : Byte) (es : List Event) (hs : List (List HandlerAction)),
          s.needSync = false → s.seqTagged = true → (before ++ id :: more).length ≤ 59 →
          s.input = buildFrame s.config.crc (before ++ id :: more) s.nextSeq ++ after →
          Commands s.config.schema s.shutdown 2 before es → s.handlerRuns = List.replicate es.length [] ++ hs →
          s.config.schema.commandIndex.length ≤ id.toNat ∨ s.config.schema.commandIndex[id.toNat]? = some none →
          ∃ t, exec .poll s = .next t
            ∧ State.Trapped (s.accepted.dispatched es hs) .invalidCommand t)

/-- R226, R229, R256 (the spec's decision D10): in shutdown the first command that lacks `IN_SHUTDOWN`, wherever in the
frame it stands, draws one reply; the commands before it have been dispatched, its handler does not run, the rest of the
frame is discarded and the frame is popped. The handlers before it do nothing (log 6). -/
def Obligations.PollSkipsInShutdown : Prop :=
  ∀ (s u : State) (before more after : List Byte) (id : Byte) (es : List Event) (hs : List (List HandlerAction))
      (parser : Parser) (e : Encoder) (v : Word),
    s.config.wf = true → s.needSync = false → s.seqTagged = true → (before ++ id :: more).length ≤ 59 →
    s.input = buildFrame s.config.crc (before ++ id :: more) s.nextSeq ++ after →
    s.shutdown = true → Commands s.config.schema true 2 before es → s.handlerRuns = List.replicate es.length [] ++ hs →
    s.config.schema.commandIndex[id.toNat]? = some (some parser) → parser.inShutdown = false →
    s.config.schema.commandEncoders[s.config.schema.encIsShutdown]? = some e →
    v = s.shutdownReason.setWidth 32 → 1 + vlqLen v ≤ e.maxSize →
    u = State.offer (e.maxSize + 5) (buildFrame s.config.crc (e.msgId :: vlqEnc v) s.accepted.nextSeq)
      (s.accepted.dispatched es hs) →
    exec .poll s = .next { u with
      input := after
      trace := u.trace ++ [.pop ((before ++ id :: more).length + 5)]
      result := .none }

/-- R248: a frame whose POLL a shutdown ended stays at the head of the input, and the next POLL pops it whole with a NAK
carrying the advanced number and dispatches nothing. -/
def Obligations.FrameSurvivesShutdown : Prop :=
  ∀ (s t : State) (r : Reason), s.accepts = true → exec .poll s = .next t → t.result = .shutdown r →
    t.input = s.input
      ∧ exec .poll t = .next ((State.offer 5 t.emptyFrame
          { t with needValid := false
                   input := s.input.drop (byteAt s.input 0).toNat
                   trace := t.trace ++ [.pop (byteAt s.input 0).toNat] }).answer .none)

/-- R76, R223 to R225 (log 15): a known, allowed command whose bytes parse is dispatched once with its words and its
inline bytes, the cursor left just after it; one whose bytes do not parse raises. The handler here does nothing. In
shutdown a command without `IN_SHUTDOWN` is skipped and draws the reply, or raises where the reply does not fit (R181,
R253, log 21). No bytes at all are an empty payload (R222, log 33); more than a frame holds are run the same way
(log 34). -/
def Obligations.CommandDispatches : Prop :=
  (∀ (s : State) (id : Byte) (parser : Parser) (hs : List (List HandlerAction)),
      s.config.schema.commandIndex[id.toNat]? = some (some parser) → (s.shutdown = true → parser.inShutdown = true) →
      (∀ (bs after : List Byte) (args : List Word) (inline : List (Nat × List Byte)),
          Parses parser.paramTypes 3 bs args inline → s.handlerRuns = [] :: hs →
          exec (.command id (bs ++ after)) s = .next { s with
            handlerRuns := hs
            trace := s.trace ++ [.dispatch id args (inline.map Prod.snd)]
            result := .cursor (3 + bs.length) })
        ∧ (∀ bytes : List Byte,
            (∀ bs after args inline, bytes = bs ++ after → ¬ Parses parser.paramTypes 3 bs args inline) →
            ∃ t, exec (.command id bytes) s = .next t ∧ State.Trapped s .parserError t))
    ∧ (∀ (s : State) (id : Byte) (parser : Parser) (e : Encoder) (v : Word) (bytes : List Byte), s.config.wf = true →
        s.config.schema.commandIndex[id.toNat]? = some (some parser) →
        s.config.schema.commandEncoders[s.config.schema.encIsShutdown]? = some e → s.shutdown = true →
        parser.inShutdown = false → v = s.shutdownReason.setWidth 32 →
        (1 + vlqLen v ≤ e.maxSize → exec (.command id bytes) s =
            .next ((State.offer (e.maxSize + 5) (buildFrame s.config.crc (e.msgId :: vlqEnc v) s.nextSeq) s).answer .skip))
          ∧ (e.maxSize < 1 + vlqLen v → s.granted (e.maxSize + 5) = true →
              ∃ t, exec (.command id bytes) s = .next t ∧ State.Trapped s.useGrant .encodeError t))
    ∧ (∀ (s : State) (rest : List Move), s.config.wf = true → s.agenda = .present .command [] :: rest →
        step s = .next { s with agenda := rest, result := .none })

/-- R225 (the spec's decision D17, log 6): what a handler of a command with one buffer argument does takes effect inside
the operation, one action after another: it requests a shutdown, sends by FRAME_TX, writes its own memory, copies the
inline bytes its pointer word names; a read outside those bytes faults (log 26), as does a store past the 32-bit space
(log 10). `u` is the state after the actions before `act`, `t` that after those behind it; behind an end there is none.
The command alone, its buffer at index 4, is log 15. In a POLL a later command's handler still reads the inline bytes of
an earlier one, whose pointer word lives until the pop (R29(c), R61, R292), and a handler's shutdown, its own or that of a
send it makes, ends the POLL behind what was done, the frame not popped (R229, R246). -/
def Obligations.HandlerActionsTakeEffect : Prop :=
  (∀ (s u : State) (id : Byte) (parser : Parser) (before more : List HandlerAction) (act : HandlerAction)
        (hs : List (List HandlerAction)) (bs : List Byte),
      s.config.schema.commandIndex[id.toNat]? = some (some parser) → (s.shutdown = true → parser.inShutdown = true) →
      parser.paramTypes = [.buffer] → bs.length ≤ 255 → s.handlerRuns = (before ++ act :: more) :: hs →
      HandlerRan [(4, bs)] before
        (s.dispatched [.dispatch id [BitVec.ofNat 32 bs.length, 4#32] [bs]] hs) u →
      (∀ r, act = .raise r → ∃ t, exec (.command id (lengthPrefixed bs)) s = .next t ∧ State.Trapped u r t)
        ∧ (∀ e args v t, act = .send e args → exec (.frameTx e args) u = .next v → v.result = .none →
            HandlerRan [(4, bs)] more { v with result := u.result } t →
            exec (.command id (lengthPrefixed bs)) s = .next { t with result := .cursor (4 + bs.length) })
        ∧ (∀ e args v r, act = .send e args → exec (.frameTx e args) u = .next v → v.result = .shutdown r →
            exec (.command id (lengthPrefixed bs)) s = .next v)
        ∧ (∀ a xs, act = .store a xs → Memory.wf u.data = true → a.toNat + xs.length ≤ 2 ^ 32 →
            ∃ m, (∀ t, HandlerRan [(4, bs)] more { u with data := m } t →
                exec (.command id (lengthPrefixed bs)) s = .next { t with result := .cursor (4 + bs.length) })
              ∧ (∀ j, j < xs.length → Memory.get m (a.toNat + j) = byteAt xs j)
              ∧ ∀ x, x < a.toNat ∨ a.toNat + xs.length ≤ x → Memory.get m x = Memory.get u.data x)
        ∧ (∀ a src n, act = .copyIn a (4 + src) n → src + n ≤ bs.length → Memory.wf u.data = true →
            a.toNat + n ≤ 2 ^ 32 →
            ∃ m, (∀ t, HandlerRan [(4, bs)] more { u with data := m } t →
                exec (.command id (lengthPrefixed bs)) s = .next { t with result := .cursor (4 + bs.length) })
              ∧ (∀ j, j < n → Memory.get m (a.toNat + j) = byteAt bs (src + j))
              ∧ ∀ x, x < a.toNat ∨ a.toNat + n ≤ x → Memory.get m x = Memory.get u.data x)
        ∧ (∀ a src n, act = .copyIn a src n → src < 4 ∨ 4 + bs.length < src + n →
            exec (.command id (lengthPrefixed bs)) s = .fault .pointerOutsideInline)
        ∧ (∀ a xs, act = .store a xs → 2 ^ 32 < a.toNat + xs.length →
            exec (.command id (lengthPrefixed bs)) s = .fault .addressOutsideSpace))
    ∧ (∀ (s : State) (first second : Byte) (buffered plain : Parser) (d after : List Byte) (a : Word) (src n : Nat)
          (hs : List (List HandlerAction)),
        s.needSync = false → s.seqTagged = true → d.length ≤ 56 →
        s.input = buildFrame s.config.crc (first :: (lengthPrefixed d ++ [second])) s.nextSeq ++ after →
        s.config.schema.commandIndex[first.toNat]? = some (some buffered) →
        s.config.schema.commandIndex[second.toNat]? = some (some plain) →
        (s.shutdown = true → buffered.inShutdown = true ∧ plain.inShutdown = true) →
        buffered.paramTypes = [.buffer] → plain.paramTypes = [] →
        s.handlerRuns = [] :: [.copyIn a (4 + src) n] :: hs → src + n ≤ d.length → Memory.wf s.data = true →
        a.toNat + n ≤ 2 ^ 32 →
        ∃ m, exec .poll s = .next { s.accepted with
            data := m
            input := after
            handlerRuns := hs
            trace := s.accepted.trace
              ++ [.dispatch first [BitVec.ofNat 32 d.length, 4#32] [d], .dispatch second [] [], .pop (d.length + 8)]
            result := .none }
          ∧ (∀ j, j < n → Memory.get m (a.toNat + j) = byteAt d (src + j))
          ∧ ∀ x, x < a.toNat ∨ a.toNat + n ≤ x → Memory.get m x = Memory.get s.data x)
    ∧ (∀ (s u v : State) (before bs rest after : List Byte) (id : Byte) (parser : Parser) (args : List Word)
          (inline live : List (Nat × List Byte)) (acts more : List HandlerAction) (act : HandlerAction)
          (hs : List (List HandlerAction)),
        s.needSync = false → s.seqTagged = true → (before ++ id :: (bs ++ rest)).length ≤ 59 →
        s.input = buildFrame s.config.crc (before ++ id :: (bs ++ rest)) s.nextSeq ++ after →
        Served 2 before [] s.accepted live u →
        s.config.schema.commandIndex[id.toNat]? = some (some parser) → (u.shutdown = true → parser.inShutdown = true) →
        Parses parser.paramTypes (3 + before.length) bs args inline → u.handlerRuns = (acts ++ act :: more) :: hs →
        HandlerRan (live ++ inline) acts (u.dispatched [.dispatch id args (inline.map Prod.snd)] hs) v →
        (∀ r, act = .raise r → ∃ t, exec .poll s = .next t ∧ State.Trapped v r t)
          ∧ ∀ e ws w r, act = .send e ws → exec (.frameTx e ws) v = .next w → w.result = .shutdown r →
              exec .poll s = .next w)

/-! ### The argument and frame-field wire forms -/

/-- R79, R80, R183, R184: the five integer forms are read alike, the decoded word whole; the buffer form gives its
length and the index of its first inline byte, which is 1 because a form executed alone starts at index 0 (log 17).
Presented bytes are read up to the end of the argument, whatever follows it; those that end before it does, and any
bytes of the two encode-only forms, raise (R185, R187, log 33). -/
def Obligations.ArgFormsParse : Prop :=
  (∀ (vlq : List Byte) (s : State), isVlq vlq = true →
      ∀ i, i = .argUint32 vlq ∨ i = .argInt32 vlq ∨ i = .argUint16 vlq ∨ i = .argInt16 vlq ∨ i = .argByte vlq →
        exec i s = .next { s with result := .parsed vlq.length [BitVec.ofInt 32 (vlqInt vlq)] })
    ∧ (∀ (d : List Byte) (s : State), d.length ≤ 255 →
        exec (.argBuffer d) s = .next { s with result := .parsed (1 + d.length) [BitVec.ofNat 32 d.length, 1#32] })
    ∧ (∀ (f : Form) (bs after : List Byte) (s : State) (rest : List Move), s.config.wf = true →
        s.agenda = .present f (bs ++ after) :: rest →
        ((f = .argUint32 ∨ f = .argInt32 ∨ f = .argUint16 ∨ f = .argInt16 ∨ f = .argByte) → isVlq bs = true →
            step s = .next { s with agenda := rest, result := .parsed bs.length [BitVec.ofInt 32 (vlqInt bs)] })
          ∧ ∀ d, f = .argBuffer → bs = lengthPrefixed d → d.length ≤ 255 → step s = .next { s with
              agenda := rest, result := .parsed (1 + d.length) [BitVec.ofNat 32 d.length, 1#32] })
    ∧ (∀ (f : Form) (bs : List Byte) (s : State) (rest : List Move), s.config.wf = true →
        s.agenda = .present f bs :: rest →
        ((f = .argUint32 ∨ f = .argInt32 ∨ f = .argUint16 ∨ f = .argInt16 ∨ f = .argByte) ∧ ∀ b ∈ bs, b.msb = true)
          ∨ (f = .argBuffer ∧ (bs = [] ∨ bs.length < 1 + (byteAt bs 0).toNat))
          ∨ f = .argString ∨ f = .argProgmemBuffer →
        ∃ t, step s = .next t ∧ State.Trapped { s with agenda := rest } .parserError t)

/-- R187: PARSE has no action for the two encode-only forms: reading either raises (log 16). -/
def Obligations.ArgEncodeOnlyFormsRaise : Prop :=
  ∀ (d : List Byte) (s : State),
    (∃ t, exec (.argString d) s = .next t ∧ State.Trapped s .parserError t)
      ∧ ∃ t, exec (.argProgmemBuffer d) s = .next t ∧ State.Trapped s .parserError t

/-- R132, R135, R144: a field of a frame that leaves the frame incomplete waits in the FIFO, and a SYNC byte ends a
pending resync quietly. In every other case too, a frame or a field of one is polled with its bytes at the tail of the
input, whatever was in it before; and so are bytes that are not of the form they are presented as, which FRAME_RX then
rejects (R85). The delivery is log 14, the presenting log 33. -/
def Obligations.FrameFieldsEnterTheFifo : Prop :=
  (∀ s : State,
      (s.needSync = false →
          (∀ len, viewWaits (s.input ++ [len]) = true →
              exec (.frameLen len) s = .next { s with input := s.input ++ [len], result := .none })
            ∧ (∀ n, viewWaits (s.input ++ [seqByte n]) = true →
              exec (.frameSeq n) s = .next { s with input := s.input ++ [seqByte n], result := .none })
            ∧ (∀ c, viewWaits (s.input ++ [hiByte c, loByte c]) = true →
              exec (.frameCrc c) s = .next { s with input := s.input ++ [hiByte c, loByte c], result := .none })
            ∧ (viewWaits (s.input ++ [syncByte]) = true →
              exec .frameSync s = .next { s with input := s.input ++ [syncByte], result := .none }))
        ∧ (s.needSync = true → s.needValid = true → syncByte ∉ s.input →
            exec .frameSync s = .next { s with
              input := [], needSync := false, trace := s.trace ++ [.pop (s.input.length + 1)], result := .none }))
    ∧ (∀ (s : State) (i : Instr) (f : Form), i.form? = some f → pollsInput i = true →
        exec i s = exec .poll { s with input := s.input ++ encode i })
    ∧ (∀ (s : State) (f : Form) (bs : List Byte) (rest : List Move),
        f = .frame ∨ f = .frameLen ∨ f = .frameSeq ∨ f = .frameCrc ∨ f = .frameSync ∨ f = .ackNakFrame →
        s.config.wf = true → s.agenda = .present f bs :: rest →
        step s = exec .poll { s with agenda := rest, input := s.input ++ bs })

/-! ### Every instruction, every step -/

/-- R32: both invariants of the spec, and the canonical form of both memories, are kept by every step, from every state
that meets them. -/
def Obligations.StepKeepsInvariant : Prop :=
  ∀ s t : State, s.Inv = true → step s = .next t → t.Inv = true

/-- R8, R31, R43: no step changes the configuration or the read-only memory. -/
def Obligations.StepKeepsConfigAndProgmem : Prop :=
  ∀ s t : State, step s = .next t → t.config = s.config ∧ t.progmem = s.progmem

/-- R169: every frame any step commits is valid, is as long as its LEN says, is at most 64 bytes, and carries in its
second byte the number the device then expects (R21). -/
def Obligations.CommittedFramesAreValid : Prop :=
  ∀ s t : State, s.Inv = true → step s = .next t →
    ∃ es, t.trace = s.trace ++ es
      ∧ ∀ b, .commit b ∈ es → frameValid s.config.crc b = true ∧ b.length = (byteAt b 0).toNat
          ∧ b.length ≤ 64 ∧ byteAt b 1 = t.nextSeq

/-- R47, R58(b): the output stream grows by exactly the committed frames, whole and in commit order; only the transport
drains it. -/
def Obligations.OutputIsCommittedFrames : Prop :=
  ∀ s t : State, step s = .next t →
    (∃ es, t.trace = s.trace ++ es ∧ t.output = s.output ++ committed es)
      ∨ ∃ n rest, s.agenda = .drain n :: rest ∧ t.output = s.output.drop n

/-- R140, R141: `NEXT_SEQ` advances by one modulo 16 exactly when an instruction gives FRAME_RX a valid frame with the
expected number and no resync is pending, and is otherwise unchanged by every instruction. -/
def Obligations.NextSeqAdvancesOnlyForExpectedFrame : Prop :=
  ∀ (i : Instr) (s t : State), exec i s = .next t →
    t.nextSeq =
      if pollsInput i && State.accepts { s with input := s.input ++ delivers i }
      then 0x10#8 ||| ((s.nextSeq + 1) &&& 0x0F#8) else s.nextSeq

/-- R30, R252, R257: no instruction clears the shutdown flag; only the environment's own move does. -/
def Obligations.ShutdownIsNeverCleared : Prop :=
  (∀ (i : Instr) (s t : State), exec i s = .next t → s.shutdown = true → t.shutdown = true)
    ∧ ∀ s t : State, step s = .next t → s.shutdown = true →
        t.shutdown = true ∨ ∃ r rest, s.agenda = .setShutdown false r :: rest

/-- R20, R60, R220, R225: the registers and the input are changed only by FRAME_RX, POLL and the forms delivered to them;
DATA only where handlers run; PROGMEM, the configuration and the agenda by no instruction. -/
def Obligations.OnlyFrameLayerWritesRegisters : Prop :=
  ∀ (i : Instr) (s t : State), exec i s = .next t →
    (t.config = s.config ∧ t.progmem = s.progmem ∧ t.agenda = s.agenda)
      ∧ (pollsInput i = false → State.sameRegs s t)
      ∧ (dispatches i = false → t.data = s.data ∧ t.handlerRuns = s.handlerRuns)

/-- R285 (the spec's decision D28), R262: in a quiescent state a POLL changes nothing; with a resync pending its trace
shows the pop of no byte. -/
def Obligations.QuiescentPollChangesNothing : Prop :=
  ∀ s : State, s.quiescent = true →
    exec .poll s = .next { s with
      trace := s.trace ++ (if s.needSync then [.pop 0] else [])
      result := .none }
end

