-- ==== Sys2Proof/Laws/Memory.lean ====
section
/-! SUPPORT. The basic laws of the memories: a write keeps the canonical form, a read after a write gives the byte
written, and a write leaves every other address alone. -/

namespace Sys2Proof.Machine

theorem Memory.wfFrom_mono {lo lo' : Nat} (h : lo' ≤ lo) {m : Memory} (w : Memory.wfFrom lo m = true) :
    Memory.wfFrom lo' m = true := by
  cases m with
  | nil => rfl
  | cons c m =>
    simp only [Memory.wfFrom, Bool.and_eq_true, decide_eq_true_eq] at w ⊢
    exact ⟨⟨⟨by omega, w.1.1.2⟩, w.1.2⟩, w.2⟩

theorem Memory.get_below {lo x : Nat} {m : Memory} (w : Memory.wfFrom lo m = true) (h : x < lo) :
    Memory.get m x = Memory.unlisted := by
  induction m generalizing lo with
  | nil => rfl
  | cons c m ih =>
    simp only [Memory.wfFrom, Bool.and_eq_true, decide_eq_true_eq] at w
    rw [Memory.get, if_neg (by omega)]
    exact ih w.2 (by omega)

theorem Memory.set_wfFrom {lo x : Nat} {v : Byte} {m : Memory} (w : Memory.wfFrom lo m = true) (hlo : lo ≤ x)
    (hx : x < Memory.size) : Memory.wfFrom lo (Memory.set m x v) = true := by
  induction m generalizing lo with
  | nil =>
    by_cases hv : v = Memory.unlisted <;> simp [Memory.set, Memory.wfFrom, hv, hlo, hx]
  | cons c m ih =>
    obtain ⟨a, b⟩ := c
    have w0 := w
    simp only [Memory.wfFrom, Bool.and_eq_true, decide_eq_true_eq] at w
    obtain ⟨⟨⟨h1, h2⟩, h3⟩, h4⟩ := w
    by_cases hlt : x < a
    · by_cases hv : v = Memory.unlisted
      · simpa [Memory.set, hlt, hv] using w0
      · simp [Memory.set, hlt, hv, Memory.wfFrom, hlo, hx, h2, h3, h4, Nat.succ_le_of_lt hlt]
    · by_cases he : x = a
      · by_cases hv : v = Memory.unlisted
        · simpa [Memory.set, he, hv] using Memory.wfFrom_mono (by omega) h4
        · subst he
          simp [Memory.set, hv, Memory.wfFrom, hlo, hx, h4]
      · simp only [Memory.set, if_neg hlt, if_neg he, Memory.wfFrom, Bool.and_eq_true, decide_eq_true_eq]
        exact ⟨⟨⟨h1, h2⟩, h3⟩, ih h4 (by omega)⟩

/-- Reading an address after a write to one address. -/
theorem Memory.get_set {lo x y : Nat} {v : Byte} {m : Memory} (w : Memory.wfFrom lo m = true) (hlo : lo ≤ x) :
    Memory.get (Memory.set m x v) y = if y = x then v else Memory.get m y := by
  induction m generalizing lo with
  | nil =>
    by_cases hv : v = Memory.unlisted <;> by_cases hy : y = x <;> simp [Memory.set, Memory.get, hv, hy]
  | cons c m ih =>
    obtain ⟨a, b⟩ := c
    simp only [Memory.wfFrom, Bool.and_eq_true, decide_eq_true_eq] at w
    obtain ⟨⟨⟨h1, h2⟩, h3⟩, h4⟩ := w
    by_cases hlt : x < a
    · by_cases hv : v = Memory.unlisted
      · by_cases hy : y = x
        · subst hy
          rw [Memory.set, if_pos hlt, if_pos hv, if_pos rfl, Memory.get, if_neg (by omega),
            Memory.get_below h4 (by omega), hv]
        · simp [Memory.set, hlt, hv, hy]
      · by_cases hy : y = x <;> simp [Memory.set, hlt, hv, hy, Memory.get]
    · by_cases he : x = a
      · subst he
        by_cases hv : v = Memory.unlisted
        · by_cases hy : y = x
          · subst hy
            rw [Memory.set, if_neg hlt, if_pos rfl, if_pos hv, if_pos rfl, Memory.get_below h4 (by omega), hv]
          · simp [Memory.set, hv, hy, Memory.get]
        · by_cases hy : y = x <;> simp [Memory.set, hv, hy, Memory.get]
      · by_cases hy : y = a
        · have hne : y ≠ x := by omega
          rw [Memory.set, if_neg hlt, if_neg he, if_neg hne, hy]
          simp [Memory.get]
        · have hs : Memory.get (Memory.set ((a, b) :: m) x v) y = Memory.get (Memory.set m x v) y := by
            rw [Memory.set, if_neg hlt, if_neg he, Memory.get, if_neg hy]
          rw [hs, ih h4 (by omega), Memory.get, if_neg hy]

theorem Memory.foldl_set_wf {bs : List Byte} {m : Memory} {x : Nat} (w : Memory.wf m = true)
    (h : x + bs.length ≤ Memory.size) :
    Memory.wf ((bs.zipIdx x).foldl (fun acc c => Memory.set acc c.2 c.1) m) = true := by
  induction bs generalizing m x with
  | nil => exact w
  | cons b bs ih =>
    rw [List.zipIdx_cons, List.foldl_cons]
    simp only [List.length_cons] at h
    exact ih (Memory.set_wfFrom w (Nat.zero_le _) (by omega)) (by omega)

/-- A write keeps the canonical form. -/
theorem Memory.write_wf {m m' : Memory} {x : Nat} {bs : List Byte} (w : Memory.wf m = true)
    (h : Memory.write m x bs = some m') : Memory.wf m' = true := by
  unfold Memory.write at h
  split at h
  · next hb =>
    cases h
    exact Memory.foldl_set_wf w hb
  · cases h

theorem Memory.foldl_set_get {bs : List Byte} {m : Memory} {x y : Nat} (w : Memory.wf m = true)
    (h : x + bs.length ≤ Memory.size) :
    Memory.get ((bs.zipIdx x).foldl (fun acc c => Memory.set acc c.2 c.1) m) y
      = if x ≤ y ∧ y < x + bs.length then bs.getD (y - x) 0 else Memory.get m y := by
  induction bs generalizing m x with
  | nil => simp
  | cons b bs ih =>
    rw [List.zipIdx_cons, List.foldl_cons]
    simp only [List.length_cons] at h
    rw [ih (Memory.set_wfFrom w (Nat.zero_le _) (by omega)) (by omega), Memory.get_set w (Nat.zero_le _)]
    by_cases hy : y = x
    · subst hy
      rw [if_neg (by omega), if_pos rfl, if_pos (by simp only [List.length_cons]; omega)]
      simp
    · rw [if_neg hy]
      by_cases hr : x + 1 ≤ y ∧ y < x + 1 + bs.length
      · rw [if_pos hr, if_pos (by simp only [List.length_cons]; omega)]
        obtain ⟨k, rfl⟩ : ∃ k, y = x + 1 + k := ⟨y - (x + 1), by omega⟩
        rw [show x + 1 + k - (x + 1) = k by omega, show x + 1 + k - x = k + 1 by omega]
        simp
      · rw [if_neg hr, if_neg (by simp only [List.length_cons]; omega)]

/-- The byte at any address after a write: the byte written there, or the byte that was there. -/
theorem Memory.write_get {m m' : Memory} {x y : Nat} {bs : List Byte} (w : Memory.wf m = true)
    (h : Memory.write m x bs = some m') :
    Memory.get m' y = if x ≤ y ∧ y < x + bs.length then bs.getD (y - x) 0 else Memory.get m y := by
  unfold Memory.write at h
  split at h
  · next hb =>
    cases h
    exact Memory.foldl_set_get w hb
  · cases h

end Sys2Proof.Machine
end

