-- ==== Sys2Proof/Laws/State.lean ====
section
/-! SUPPORT. One lemma per field of State per plain update, each true by rfl, so that no later proof unfolds a record
update. -/

namespace Sys2Proof.Machine

/-! ### emit -/

@[simp] theorem State.emit_nextSeq (e : Event) (s : State) : (s.emit e).nextSeq = s.nextSeq := rfl
@[simp] theorem State.emit_needSync (e : Event) (s : State) : (s.emit e).needSync = s.needSync := rfl
@[simp] theorem State.emit_needValid (e : Event) (s : State) : (s.emit e).needValid = s.needValid := rfl
@[simp] theorem State.emit_input (e : Event) (s : State) : (s.emit e).input = s.input := rfl
@[simp] theorem State.emit_output (e : Event) (s : State) : (s.emit e).output = s.output := rfl
@[simp] theorem State.emit_reservation (e : Event) (s : State) : (s.emit e).reservation = s.reservation := rfl
@[simp] theorem State.emit_shutdown (e : Event) (s : State) : (s.emit e).shutdown = s.shutdown := rfl
@[simp] theorem State.emit_shutdownReason (e : Event) (s : State) : (s.emit e).shutdownReason = s.shutdownReason := rfl
@[simp] theorem State.emit_data (e : Event) (s : State) : (s.emit e).data = s.data := rfl
@[simp] theorem State.emit_progmem (e : Event) (s : State) : (s.emit e).progmem = s.progmem := rfl
@[simp] theorem State.emit_config (e : Event) (s : State) : (s.emit e).config = s.config := rfl
@[simp] theorem State.emit_result (e : Event) (s : State) : (s.emit e).result = s.result := rfl
@[simp] theorem State.emit_trace (e : Event) (s : State) : (s.emit e).trace = s.trace ++ [e] := rfl
@[simp] theorem State.emit_agenda (e : Event) (s : State) : (s.emit e).agenda = s.agenda := rfl
@[simp] theorem State.emit_grants (e : Event) (s : State) : (s.emit e).grants = s.grants := rfl
@[simp] theorem State.emit_handlerRuns (e : Event) (s : State) : (s.emit e).handlerRuns = s.handlerRuns := rfl
@[simp] theorem State.emit_draws (e : Event) (s : State) : (s.emit e).draws = s.draws := rfl

/-! ### answer -/

@[simp] theorem State.answer_nextSeq (r : Result) (s : State) : (s.answer r).nextSeq = s.nextSeq := rfl
@[simp] theorem State.answer_needSync (r : Result) (s : State) : (s.answer r).needSync = s.needSync := rfl
@[simp] theorem State.answer_needValid (r : Result) (s : State) : (s.answer r).needValid = s.needValid := rfl
@[simp] theorem State.answer_input (r : Result) (s : State) : (s.answer r).input = s.input := rfl
@[simp] theorem State.answer_output (r : Result) (s : State) : (s.answer r).output = s.output := rfl
@[simp] theorem State.answer_reservation (r : Result) (s : State) : (s.answer r).reservation = s.reservation := rfl
@[simp] theorem State.answer_shutdown (r : Result) (s : State) : (s.answer r).shutdown = s.shutdown := rfl
@[simp] theorem State.answer_shutdownReason (r : Result) (s : State) : (s.answer r).shutdownReason = s.shutdownReason := rfl
@[simp] theorem State.answer_data (r : Result) (s : State) : (s.answer r).data = s.data := rfl
@[simp] theorem State.answer_progmem (r : Result) (s : State) : (s.answer r).progmem = s.progmem := rfl
@[simp] theorem State.answer_config (r : Result) (s : State) : (s.answer r).config = s.config := rfl
@[simp] theorem State.answer_result (r : Result) (s : State) : (s.answer r).result = r := rfl
@[simp] theorem State.answer_trace (r : Result) (s : State) : (s.answer r).trace = s.trace := rfl
@[simp] theorem State.answer_agenda (r : Result) (s : State) : (s.answer r).agenda = s.agenda := rfl
@[simp] theorem State.answer_grants (r : Result) (s : State) : (s.answer r).grants = s.grants := rfl
@[simp] theorem State.answer_handlerRuns (r : Result) (s : State) : (s.answer r).handlerRuns = s.handlerRuns := rfl
@[simp] theorem State.answer_draws (r : Result) (s : State) : (s.answer r).draws = s.draws := rfl

/-! ### inPop -/

@[simp] theorem State.inPop_nextSeq (n : Nat) (s : State) : (s.inPop n).nextSeq = s.nextSeq := rfl
@[simp] theorem State.inPop_needSync (n : Nat) (s : State) : (s.inPop n).needSync = s.needSync := rfl
@[simp] theorem State.inPop_needValid (n : Nat) (s : State) : (s.inPop n).needValid = s.needValid := rfl
@[simp] theorem State.inPop_input (n : Nat) (s : State) : (s.inPop n).input = s.input.drop n := rfl
@[simp] theorem State.inPop_output (n : Nat) (s : State) : (s.inPop n).output = s.output := rfl
@[simp] theorem State.inPop_reservation (n : Nat) (s : State) : (s.inPop n).reservation = s.reservation := rfl
@[simp] theorem State.inPop_shutdown (n : Nat) (s : State) : (s.inPop n).shutdown = s.shutdown := rfl
@[simp] theorem State.inPop_shutdownReason (n : Nat) (s : State) : (s.inPop n).shutdownReason = s.shutdownReason := rfl
@[simp] theorem State.inPop_data (n : Nat) (s : State) : (s.inPop n).data = s.data := rfl
@[simp] theorem State.inPop_progmem (n : Nat) (s : State) : (s.inPop n).progmem = s.progmem := rfl
@[simp] theorem State.inPop_config (n : Nat) (s : State) : (s.inPop n).config = s.config := rfl
@[simp] theorem State.inPop_result (n : Nat) (s : State) : (s.inPop n).result = s.result := rfl
@[simp] theorem State.inPop_trace (n : Nat) (s : State) : (s.inPop n).trace = s.trace ++ [.pop n] := rfl
@[simp] theorem State.inPop_agenda (n : Nat) (s : State) : (s.inPop n).agenda = s.agenda := rfl
@[simp] theorem State.inPop_grants (n : Nat) (s : State) : (s.inPop n).grants = s.grants := rfl
@[simp] theorem State.inPop_handlerRuns (n : Nat) (s : State) : (s.inPop n).handlerRuns = s.handlerRuns := rfl
@[simp] theorem State.inPop_draws (n : Nat) (s : State) : (s.inPop n).draws = s.draws := rfl

/-! ### arrive -/

@[simp] theorem State.arrive_nextSeq (bs : List Byte) (s : State) : (s.arrive bs).nextSeq = s.nextSeq := rfl
@[simp] theorem State.arrive_needSync (bs : List Byte) (s : State) : (s.arrive bs).needSync = s.needSync := rfl
@[simp] theorem State.arrive_needValid (bs : List Byte) (s : State) : (s.arrive bs).needValid = s.needValid := rfl
@[simp] theorem State.arrive_input (bs : List Byte) (s : State) : (s.arrive bs).input = s.input ++ bs := rfl
@[simp] theorem State.arrive_output (bs : List Byte) (s : State) : (s.arrive bs).output = s.output := rfl
@[simp] theorem State.arrive_reservation (bs : List Byte) (s : State) : (s.arrive bs).reservation = s.reservation := rfl
@[simp] theorem State.arrive_shutdown (bs : List Byte) (s : State) : (s.arrive bs).shutdown = s.shutdown := rfl
@[simp] theorem State.arrive_shutdownReason (bs : List Byte) (s : State) : (s.arrive bs).shutdownReason = s.shutdownReason := rfl
@[simp] theorem State.arrive_data (bs : List Byte) (s : State) : (s.arrive bs).data = s.data := rfl
@[simp] theorem State.arrive_progmem (bs : List Byte) (s : State) : (s.arrive bs).progmem = s.progmem := rfl
@[simp] theorem State.arrive_config (bs : List Byte) (s : State) : (s.arrive bs).config = s.config := rfl
@[simp] theorem State.arrive_result (bs : List Byte) (s : State) : (s.arrive bs).result = s.result := rfl
@[simp] theorem State.arrive_trace (bs : List Byte) (s : State) : (s.arrive bs).trace = s.trace := rfl
@[simp] theorem State.arrive_agenda (bs : List Byte) (s : State) : (s.arrive bs).agenda = s.agenda := rfl
@[simp] theorem State.arrive_grants (bs : List Byte) (s : State) : (s.arrive bs).grants = s.grants := rfl
@[simp] theorem State.arrive_handlerRuns (bs : List Byte) (s : State) : (s.arrive bs).handlerRuns = s.handlerRuns := rfl
@[simp] theorem State.arrive_draws (bs : List Byte) (s : State) : (s.arrive bs).draws = s.draws := rfl

/-! ### drain -/

@[simp] theorem State.drain_nextSeq (n : Nat) (s : State) : (s.drain n).nextSeq = s.nextSeq := rfl
@[simp] theorem State.drain_needSync (n : Nat) (s : State) : (s.drain n).needSync = s.needSync := rfl
@[simp] theorem State.drain_needValid (n : Nat) (s : State) : (s.drain n).needValid = s.needValid := rfl
@[simp] theorem State.drain_input (n : Nat) (s : State) : (s.drain n).input = s.input := rfl
@[simp] theorem State.drain_output (n : Nat) (s : State) : (s.drain n).output = s.output.drop n := rfl
@[simp] theorem State.drain_reservation (n : Nat) (s : State) : (s.drain n).reservation = s.reservation := rfl
@[simp] theorem State.drain_shutdown (n : Nat) (s : State) : (s.drain n).shutdown = s.shutdown := rfl
@[simp] theorem State.drain_shutdownReason (n : Nat) (s : State) : (s.drain n).shutdownReason = s.shutdownReason := rfl
@[simp] theorem State.drain_data (n : Nat) (s : State) : (s.drain n).data = s.data := rfl
@[simp] theorem State.drain_progmem (n : Nat) (s : State) : (s.drain n).progmem = s.progmem := rfl
@[simp] theorem State.drain_config (n : Nat) (s : State) : (s.drain n).config = s.config := rfl
@[simp] theorem State.drain_result (n : Nat) (s : State) : (s.drain n).result = s.result := rfl
@[simp] theorem State.drain_trace (n : Nat) (s : State) : (s.drain n).trace = s.trace := rfl
@[simp] theorem State.drain_agenda (n : Nat) (s : State) : (s.drain n).agenda = s.agenda := rfl
@[simp] theorem State.drain_grants (n : Nat) (s : State) : (s.drain n).grants = s.grants := rfl
@[simp] theorem State.drain_handlerRuns (n : Nat) (s : State) : (s.drain n).handlerRuns = s.handlerRuns := rfl
@[simp] theorem State.drain_draws (n : Nat) (s : State) : (s.drain n).draws = s.draws := rfl

/-! ### outWrite -/

@[simp] theorem State.outWrite_nextSeq (p : Nat) (bs : List Byte) (s : State) : (s.outWrite p bs).nextSeq = s.nextSeq := rfl
@[simp] theorem State.outWrite_needSync (p : Nat) (bs : List Byte) (s : State) : (s.outWrite p bs).needSync = s.needSync := rfl
@[simp] theorem State.outWrite_needValid (p : Nat) (bs : List Byte) (s : State) : (s.outWrite p bs).needValid = s.needValid := rfl
@[simp] theorem State.outWrite_input (p : Nat) (bs : List Byte) (s : State) : (s.outWrite p bs).input = s.input := rfl
@[simp] theorem State.outWrite_output (p : Nat) (bs : List Byte) (s : State) : (s.outWrite p bs).output = s.output := rfl
@[simp] theorem State.outWrite_reservation (p : Nat) (bs : List Byte) (s : State) : (s.outWrite p bs).reservation = s.reservation.map fun r => writeAt r p bs := rfl
@[simp] theorem State.outWrite_shutdown (p : Nat) (bs : List Byte) (s : State) : (s.outWrite p bs).shutdown = s.shutdown := rfl
@[simp] theorem State.outWrite_shutdownReason (p : Nat) (bs : List Byte) (s : State) : (s.outWrite p bs).shutdownReason = s.shutdownReason := rfl
@[simp] theorem State.outWrite_data (p : Nat) (bs : List Byte) (s : State) : (s.outWrite p bs).data = s.data := rfl
@[simp] theorem State.outWrite_progmem (p : Nat) (bs : List Byte) (s : State) : (s.outWrite p bs).progmem = s.progmem := rfl
@[simp] theorem State.outWrite_config (p : Nat) (bs : List Byte) (s : State) : (s.outWrite p bs).config = s.config := rfl
@[simp] theorem State.outWrite_result (p : Nat) (bs : List Byte) (s : State) : (s.outWrite p bs).result = s.result := rfl
@[simp] theorem State.outWrite_trace (p : Nat) (bs : List Byte) (s : State) : (s.outWrite p bs).trace = s.trace := rfl
@[simp] theorem State.outWrite_agenda (p : Nat) (bs : List Byte) (s : State) : (s.outWrite p bs).agenda = s.agenda := rfl
@[simp] theorem State.outWrite_grants (p : Nat) (bs : List Byte) (s : State) : (s.outWrite p bs).grants = s.grants := rfl
@[simp] theorem State.outWrite_handlerRuns (p : Nat) (bs : List Byte) (s : State) : (s.outWrite p bs).handlerRuns = s.handlerRuns := rfl
@[simp] theorem State.outWrite_draws (p : Nat) (bs : List Byte) (s : State) : (s.outWrite p bs).draws = s.draws := rfl

/-! ### setShutdown -/

@[simp] theorem State.setShutdown_nextSeq (on : Bool) (r : Half) (s : State) : (s.setShutdown on r).nextSeq = s.nextSeq := rfl
@[simp] theorem State.setShutdown_needSync (on : Bool) (r : Half) (s : State) : (s.setShutdown on r).needSync = s.needSync := rfl
@[simp] theorem State.setShutdown_needValid (on : Bool) (r : Half) (s : State) : (s.setShutdown on r).needValid = s.needValid := rfl
@[simp] theorem State.setShutdown_input (on : Bool) (r : Half) (s : State) : (s.setShutdown on r).input = s.input := rfl
@[simp] theorem State.setShutdown_output (on : Bool) (r : Half) (s : State) : (s.setShutdown on r).output = s.output := rfl
@[simp] theorem State.setShutdown_reservation (on : Bool) (r : Half) (s : State) : (s.setShutdown on r).reservation = s.reservation := rfl
@[simp] theorem State.setShutdown_shutdown (on : Bool) (r : Half) (s : State) : (s.setShutdown on r).shutdown = on := rfl
@[simp] theorem State.setShutdown_shutdownReason (on : Bool) (r : Half) (s : State) : (s.setShutdown on r).shutdownReason = r := rfl
@[simp] theorem State.setShutdown_data (on : Bool) (r : Half) (s : State) : (s.setShutdown on r).data = s.data := rfl
@[simp] theorem State.setShutdown_progmem (on : Bool) (r : Half) (s : State) : (s.setShutdown on r).progmem = s.progmem := rfl
@[simp] theorem State.setShutdown_config (on : Bool) (r : Half) (s : State) : (s.setShutdown on r).config = s.config := rfl
@[simp] theorem State.setShutdown_result (on : Bool) (r : Half) (s : State) : (s.setShutdown on r).result = s.result := rfl
@[simp] theorem State.setShutdown_trace (on : Bool) (r : Half) (s : State) : (s.setShutdown on r).trace = s.trace := rfl
@[simp] theorem State.setShutdown_agenda (on : Bool) (r : Half) (s : State) : (s.setShutdown on r).agenda = s.agenda := rfl
@[simp] theorem State.setShutdown_grants (on : Bool) (r : Half) (s : State) : (s.setShutdown on r).grants = s.grants := rfl
@[simp] theorem State.setShutdown_handlerRuns (on : Bool) (r : Half) (s : State) : (s.setShutdown on r).handlerRuns = s.handlerRuns := rfl
@[simp] theorem State.setShutdown_draws (on : Bool) (r : Half) (s : State) : (s.setShutdown on r).draws = s.draws := rfl

/-! ### raiseShutdown -/

@[simp] theorem State.raiseShutdown_nextSeq (r : Reason) (s : State) : (s.raiseShutdown r).nextSeq = s.nextSeq := rfl
@[simp] theorem State.raiseShutdown_needSync (r : Reason) (s : State) : (s.raiseShutdown r).needSync = s.needSync := rfl
@[simp] theorem State.raiseShutdown_needValid (r : Reason) (s : State) : (s.raiseShutdown r).needValid = s.needValid := rfl
@[simp] theorem State.raiseShutdown_input (r : Reason) (s : State) : (s.raiseShutdown r).input = s.input := rfl
@[simp] theorem State.raiseShutdown_output (r : Reason) (s : State) : (s.raiseShutdown r).output = s.output := rfl
@[simp] theorem State.raiseShutdown_reservation (r : Reason) (s : State) : (s.raiseShutdown r).reservation = none := rfl
@[simp] theorem State.raiseShutdown_shutdown (r : Reason) (s : State) : (s.raiseShutdown r).shutdown = true := rfl
@[simp] theorem State.raiseShutdown_shutdownReason (r : Reason) (s : State) : (s.raiseShutdown r).shutdownReason = s.reasonAfter r := rfl
@[simp] theorem State.raiseShutdown_data (r : Reason) (s : State) : (s.raiseShutdown r).data = s.data := rfl
@[simp] theorem State.raiseShutdown_progmem (r : Reason) (s : State) : (s.raiseShutdown r).progmem = s.progmem := rfl
@[simp] theorem State.raiseShutdown_config (r : Reason) (s : State) : (s.raiseShutdown r).config = s.config := rfl
@[simp] theorem State.raiseShutdown_result (r : Reason) (s : State) : (s.raiseShutdown r).result = s.result := rfl
@[simp] theorem State.raiseShutdown_trace (r : Reason) (s : State) : (s.raiseShutdown r).trace = s.trace ++ [.shutdown r] := rfl
@[simp] theorem State.raiseShutdown_agenda (r : Reason) (s : State) : (s.raiseShutdown r).agenda = s.agenda := rfl
@[simp] theorem State.raiseShutdown_grants (r : Reason) (s : State) : (s.raiseShutdown r).grants = s.grants := rfl
@[simp] theorem State.raiseShutdown_handlerRuns (r : Reason) (s : State) : (s.raiseShutdown r).handlerRuns = s.handlerRuns := rfl
@[simp] theorem State.raiseShutdown_draws (r : Reason) (s : State) : (s.raiseShutdown r).draws = if s.shutdown then s.draws + 1 else s.draws := rfl

/-! ### useGrant -/

@[simp] theorem State.useGrant_nextSeq (s : State) : s.useGrant.nextSeq = s.nextSeq := rfl
@[simp] theorem State.useGrant_needSync (s : State) : s.useGrant.needSync = s.needSync := rfl
@[simp] theorem State.useGrant_needValid (s : State) : s.useGrant.needValid = s.needValid := rfl
@[simp] theorem State.useGrant_input (s : State) : s.useGrant.input = s.input := rfl
@[simp] theorem State.useGrant_output (s : State) : s.useGrant.output = s.output := rfl
@[simp] theorem State.useGrant_reservation (s : State) : s.useGrant.reservation = s.reservation := rfl
@[simp] theorem State.useGrant_shutdown (s : State) : s.useGrant.shutdown = s.shutdown := rfl
@[simp] theorem State.useGrant_shutdownReason (s : State) : s.useGrant.shutdownReason = s.shutdownReason := rfl
@[simp] theorem State.useGrant_data (s : State) : s.useGrant.data = s.data := rfl
@[simp] theorem State.useGrant_progmem (s : State) : s.useGrant.progmem = s.progmem := rfl
@[simp] theorem State.useGrant_config (s : State) : s.useGrant.config = s.config := rfl
@[simp] theorem State.useGrant_result (s : State) : s.useGrant.result = s.result := rfl
@[simp] theorem State.useGrant_trace (s : State) : s.useGrant.trace = s.trace := rfl
@[simp] theorem State.useGrant_agenda (s : State) : s.useGrant.agenda = s.agenda := rfl
@[simp] theorem State.useGrant_grants (s : State) : s.useGrant.grants = s.grants.tail := rfl
@[simp] theorem State.useGrant_handlerRuns (s : State) : s.useGrant.handlerRuns = s.handlerRuns := rfl
@[simp] theorem State.useGrant_draws (s : State) : s.useGrant.draws = if s.grants.isEmpty then s.draws + 1 else s.draws := rfl

/-! ### useHandler -/

@[simp] theorem State.useHandler_nextSeq (s : State) : s.useHandler.nextSeq = s.nextSeq := rfl
@[simp] theorem State.useHandler_needSync (s : State) : s.useHandler.needSync = s.needSync := rfl
@[simp] theorem State.useHandler_needValid (s : State) : s.useHandler.needValid = s.needValid := rfl
@[simp] theorem State.useHandler_input (s : State) : s.useHandler.input = s.input := rfl
@[simp] theorem State.useHandler_output (s : State) : s.useHandler.output = s.output := rfl
@[simp] theorem State.useHandler_reservation (s : State) : s.useHandler.reservation = s.reservation := rfl
@[simp] theorem State.useHandler_shutdown (s : State) : s.useHandler.shutdown = s.shutdown := rfl
@[simp] theorem State.useHandler_shutdownReason (s : State) : s.useHandler.shutdownReason = s.shutdownReason := rfl
@[simp] theorem State.useHandler_data (s : State) : s.useHandler.data = s.data := rfl
@[simp] theorem State.useHandler_progmem (s : State) : s.useHandler.progmem = s.progmem := rfl
@[simp] theorem State.useHandler_config (s : State) : s.useHandler.config = s.config := rfl
@[simp] theorem State.useHandler_result (s : State) : s.useHandler.result = s.result := rfl
@[simp] theorem State.useHandler_trace (s : State) : s.useHandler.trace = s.trace := rfl
@[simp] theorem State.useHandler_agenda (s : State) : s.useHandler.agenda = s.agenda := rfl
@[simp] theorem State.useHandler_grants (s : State) : s.useHandler.grants = s.grants := rfl
@[simp] theorem State.useHandler_handlerRuns (s : State) : s.useHandler.handlerRuns = s.handlerRuns.tail := rfl
@[simp] theorem State.useHandler_draws (s : State) : s.useHandler.draws = if s.handlerRuns.isEmpty then s.draws + 1 else s.draws := rfl

end Sys2Proof.Machine
end

