-- ==== Sys2Proof/Laws/Ops.lean ====
section
/-! SUPPORT. For each shared operation, once, everything it can do: what a send changes, what a handler changes, what
FRAME_RX's parts change. The proofs about instructions cite these and do not unfold the operations. -/

namespace Sys2Proof.Machine

/-- A frame the block itself builds: BuildFrame of some payload under the sequence byte of `s`, at most 59 payload
bytes when the schema is well-formed. -/
def State.Builds (s : State) (b : List Byte) : Prop :=
  ∃ payload, b = buildFrame s.config.crc payload s.nextSeq ∧ (s.config.wf = true → payload.length ≤ 59)

/-- An event a send, a parse or a handler can add in state `s`: never a pop, and a commit is a frame `s` builds. -/
def State.Allows (s : State) : Event → Prop
  | .pop _          => False
  | .commit b       => s.Builds b
  | .drop           => True
  | .dispatch _ _ _ => True
  | .shutdown _     => True

/-- What commands, their sends and their handlers leave as it was, and the events they may add. -/
structure State.Handled (s t : State) : Prop where
  nextSeq   : t.nextSeq = s.nextSeq
  needSync  : t.needSync = s.needSync
  needValid : t.needValid = s.needValid
  input     : t.input = s.input
  progmem   : t.progmem = s.progmem
  config    : t.config = s.config
  result    : t.result = s.result
  agenda    : t.agenda = s.agenda
  dataWf    : Memory.wf s.data = true → Memory.wf t.data = true
  shutdown  : s.shutdown = true → t.shutdown = true
  trace     : ∃ es, t.trace = s.trace ++ es ∧ t.output = s.output ++ committed es ∧ ∀ e ∈ es, s.Allows e

/-- What a send leaves as it was: also the caller's memory and the handlers' script. -/
structure State.Sent (s t : State) : Prop extends State.Handled s t where
  data        : t.data = s.data
  handlerRuns : t.handlerRuns = s.handlerRuns

theorem State.Allows_congr {s t : State} (hs : t.nextSeq = s.nextSeq) (hc : t.config = s.config) {e : Event}
    (h : t.Allows e) : s.Allows e := by
  cases e <;> simp_all [State.Allows, State.Builds]

theorem committed_append (es fs : List Event) : committed (es ++ fs) = committed es ++ committed fs := by
  induction es with
  | nil => rfl
  | cons e es ih => cases e <;> simp [committed, ih]

theorem State.Handled.rfl' (s : State) : s.Handled s :=
  ⟨rfl, rfl, rfl, rfl, rfl, rfl, rfl, rfl, id, id, [], by simp [committed]⟩

theorem State.Sent.rfl' (s : State) : s.Sent s := ⟨.rfl' s, rfl, rfl⟩

theorem State.Handled.trans {s t u : State} (h : s.Handled t) (k : t.Handled u) : s.Handled u where
  nextSeq := k.nextSeq.trans h.nextSeq
  needSync := k.needSync.trans h.needSync
  needValid := k.needValid.trans h.needValid
  input := k.input.trans h.input
  progmem := k.progmem.trans h.progmem
  config := k.config.trans h.config
  result := k.result.trans h.result
  agenda := k.agenda.trans h.agenda
  dataWf := k.dataWf ∘ h.dataWf
  shutdown := k.shutdown ∘ h.shutdown
  trace := by
    obtain ⟨es, he, ho, ha⟩ := h.trace
    obtain ⟨fs, hf, hp, hb⟩ := k.trace
    refine ⟨es ++ fs, by rw [hf, he, List.append_assoc], by rw [hp, ho, committed_append, List.append_assoc],
      fun e hm => ?_⟩
    rcases List.mem_append.mp hm with hm | hm
    · exact ha e hm
    · exact State.Allows_congr h.nextSeq h.config (hb e hm)

theorem State.Sent.trans {s t u : State} (h : s.Sent t) (k : t.Sent u) : s.Sent u :=
  ⟨h.toHandled.trans k.toHandled, k.data.trans h.data, k.handlerRuns.trans h.handlerRuns⟩

/-- How an inner operation ends: with `Q` of its last state, or by a shutdown raised in a state with `Q`, after which
nothing runs (R246). -/
def Ran.Post {α : Type} (Q : State → Prop) : Ran α → Prop
  | .ok _ s    => Q s
  | .ended r s => ∃ u, Q u ∧ s = u.raiseShutdown r
  | .fault _   => True
  | .refused _ => True

theorem Ran.Post.mono {α : Type} {Q R : State → Prop} (h : ∀ s, Q s → R s) {r : Ran α} (p : r.Post Q) : r.Post R := by
  cases r with
  | ok a s => exact h _ p
  | ended k s =>
    obtain ⟨u, q, e⟩ := p
    exact ⟨u, h _ q, e⟩
  | fault f => trivial
  | refused k => trivial

/-! ### One event -/

theorem State.Sent.emit {s : State} {e : Event} (h : s.Allows e) (c : committed [e] = []) : s.Sent (s.emit e) :=
  ⟨⟨rfl, rfl, rfl, rfl, rfl, rfl, rfl, rfl, id, id, [e], rfl, by simp [c], by simpa using h⟩, rfl, rfl⟩

theorem State.Sent.raiseShutdown (s : State) (r : Reason) : s.Sent (s.raiseShutdown r) :=
  ⟨⟨rfl, rfl, rfl, rfl, rfl, rfl, rfl, rfl, id, fun _ => rfl, [.shutdown r], rfl, by simp [committed], by simp [State.Allows]⟩, rfl, rfl⟩

theorem Ran.Post.raise {α : Type} (s : State) (r : Reason) : (Ran.ended r (s.raiseShutdown r) : Ran α).Post s.Sent :=
  ⟨s, State.Sent.rfl' s, rfl⟩

theorem Ran.Post.ofStop {α : Type} (s : State) (k : Stop) : (Ran.ofStop s k : Ran α).Post s.Sent := by
  cases k with
  | shutdown r => exact Ran.Post.raise s r
  | fault f => trivial
  | refused r => trivial

/-! ### The transport -/

theorem State.useGrant_sent (s : State) : s.Sent s.useGrant :=
  ⟨⟨rfl, rfl, rfl, rfl, rfl, rfl, rfl, rfl, id, id, [], by simp [committed]⟩, rfl, rfl⟩

theorem State.outReserve_granted {n : Nat} {s : State} (h : s.granted n = true) :
    s.outReserve n = { s.useGrant with reservation := some (List.replicate n 0) } := if_pos h

theorem State.outReserve_refused {n : Nat} {s : State} (h : s.granted n = false) : s.outReserve n = s.useGrant :=
  if_neg (by simp [h])

theorem State.outReserve_sent (n : Nat) (s : State) : s.Sent (s.outReserve n) := by
  cases h : s.granted n with
  | true =>
    rw [State.outReserve_granted h]
    exact ⟨⟨rfl, rfl, rfl, rfl, rfl, rfl, rfl, rfl, id, id, [], by simp [committed]⟩, rfl, rfl⟩
  | false => exact State.outReserve_refused h ▸ s.useGrant_sent

/-- Writing a whole frame at the head of a reservation and committing it publishes exactly that frame. -/
theorem State.sendFrame_reserved {s : State} {r : List Byte} (h : s.reservation = some r) (bs : List Byte) :
    s.sendFrame bs = { s with reservation := none, output := s.output ++ bs, trace := s.trace ++ [.commit bs] } := by
  simp [State.sendFrame, State.outCommit, State.outWrite, h, writeAt, State.emit]

/-- A granted ACKNAK (R167). -/
theorem State.ackNak_granted {s : State} (h : s.granted 5 = true) :
    s.ackNak = { s.useGrant with
      reservation := none
      output := s.output ++ buildFrame s.config.crc [] s.nextSeq
      trace := s.trace ++ [.commit (buildFrame s.config.crc [] s.nextSeq)] } := by
  rw [State.ackNak, if_pos h, State.outReserve_granted h, State.sendFrame_reserved rfl]
  rfl

/-- A refused ACKNAK (R168). -/
theorem State.ackNak_refused {s : State} (h : s.granted 5 = false) :
    s.ackNak = { s.useGrant with trace := s.trace ++ [.drop] } := by
  rw [State.ackNak, if_neg (by simp [h]), State.outReserve_refused h]
  rfl

/-- ACKNAK offers the empty frame (R167, R168). -/
theorem State.ackNak_eq_offer (s : State) : s.ackNak = State.offer 5 s.emptyFrame s := by
  unfold State.offer
  split_ifs with h
  · exact State.ackNak_granted h
  · exact State.ackNak_refused (by simpa using h)

theorem State.Sent.sendFrame {s : State} {r bs : List Byte} (h : s.reservation = some r) (b : s.Builds bs) :
    s.Sent (s.sendFrame bs) := by
  rw [State.sendFrame_reserved h]
  exact ⟨⟨rfl, rfl, rfl, rfl, rfl, rfl, rfl, rfl, id, id, [.commit bs], rfl, by simp [committed],
    by simpa [State.Allows] using b⟩, rfl, rfl⟩

theorem State.ackNak_sent (s : State) : s.Sent s.ackNak := by
  cases h : s.granted 5 with
  | false =>
    rw [State.ackNak_refused h]
    exact s.useGrant_sent.trans (State.Sent.emit (e := .drop) trivial rfl)
  | true =>
    rw [State.ackNak, if_pos h, State.outReserve_granted h]
    exact (State.outReserve_granted h ▸ s.outReserve_sent 5).trans (State.Sent.sendFrame rfl ⟨[], rfl, by simp⟩)

/-- ACKNAK adds exactly one event: a commit of the empty frame, or a drop. -/
theorem State.ackNak_trace (s : State) :
    s.ackNak.trace = s.trace ++ [if s.granted 5 then .commit (buildFrame s.config.crc [] s.nextSeq) else .drop] := by
  cases h : s.granted 5 with
  | true => rw [State.ackNak_granted h]; rfl
  | false => rw [State.ackNak_refused h]; rfl

/-! ### Encoding -/

theorem groupBytes_length {w : Nat} (v : BitVec w) : ∀ k, (groupBytes v k).length = k
  | 0     => rfl
  | 1     => rfl
  | k + 2 => by rw [groupBytes, List.length_cons, groupBytes_length v (k + 1)]

@[simp] theorem vlqEnc_length (v : Word) : (vlqEnc v).length = vlqLen v := groupBytes_length v _

theorem vlqLen_pos (v : Word) : 1 ≤ vlqLen v := by
  unfold vlqLen; split_ifs <;> omega

theorem vlqLen_le (v : Word) : vlqLen v ≤ 5 := by
  unfold vlqLen; split_ifs <;> omega

theorem readString_length {m : Memory} {room a : Nat} {bs : List Byte} (h : readString m room a = .ok bs) :
    bs.length ≤ room := by
  induction room generalizing a bs with
  | zero => cases h; simp
  | succ room ih =>
    unfold readString at h
    split at h
    · cases h
    · split at h
      · cases h; simp
      · split at h
        · next hr => cases h; simpa using ih hr
        · cases h

theorem readBytes_length {m : Memory} {n a : Nat} {bs : List Byte} (h : readBytes m n a = .ok bs) : bs.length = n := by
  induction n generalizing a bs with
  | zero => cases h; rfl
  | succ n ih =>
    unfold readBytes at h
    split at h
    · cases h
    · split at h
      · next hr => cases h; simpa using ih hr
      · cases h

theorem encodeVlq_fits {v : Word} {rest rest' : List Word} {p c : Nat} {bs : List Byte}
    (h : encodeVlq v rest p c = .ok (bs, rest')) : p + bs.length ≤ c ∧ 1 ≤ bs.length := by
  unfold encodeVlq at h
  split at h
  · cases h
  · cases h
    simp only [vlqEnc_length]
    exact ⟨by omega, vlqLen_pos v⟩

theorem encodeString_fits {m : Memory} {args rest : List Word} {p c : Nat} {bs : List Byte}
    (h : encodeString m args p c = .ok (bs, rest)) : p + bs.length ≤ c ∧ 1 ≤ bs.length := by
  unfold encodeString at h
  split at h
  · cases h
  · split at h
    · cases h
    · split at h
      · cases h
      · next hr =>
        cases h
        have := readString_length hr
        simp only [lengthPrefixed, List.length_cons]
        omega

theorem encodeBuffer_fits {m : Memory} {args rest : List Word} {p c : Nat} {bs : List Byte}
    (h : encodeBuffer m args p c = .ok (bs, rest)) : p + bs.length ≤ c ∧ 1 ≤ bs.length := by
  unfold encodeBuffer at h
  split at h
  · cases h
  · split at h
    · cases h
    · split at h
      · cases h
      · split at h
        · cases h
        · split at h
          · cases h
          · next hr =>
            cases h
            have := readBytes_length hr
            simp only [lengthPrefixed, List.length_cons]
            omega

/-- What ENCODE writes lies in `[p, cap_end)`, and is at least one byte (R200, R209(a)). -/
theorem encodeParam_fits {d m : Memory} {t : ArgType} {args rest : List Word} {p c : Nat} {bs : List Byte}
    (h : encodeParam d m t args p c = .ok (bs, rest)) : p + bs.length ≤ c ∧ 1 ≤ bs.length := by
  have full : ∀ {args : List Word}, encodeFull args p c = .ok (bs, rest) → p + bs.length ≤ c ∧ 1 ≤ bs.length := by
    intro args h
    unfold encodeFull at h
    split at h
    · cases h
    · exact encodeVlq_fits h
  have short : ∀ {args : List Word}, encodeShort args p c = .ok (bs, rest) → p + bs.length ≤ c ∧ 1 ≤ bs.length := by
    intro args h
    unfold encodeShort at h
    split at h
    · cases h
    · exact encodeVlq_fits h
  cases t <;> first
    | exact full h | exact short h | exact encodeString_fits h | exact encodeBuffer_fits h | cases h

/-- The parameters of a frame fit below `cap_end` (R163). -/
theorem encodeParams_fits {d m : Memory} {ts : List ArgType} {args : List Word} {p c : Nat} {bs : List Byte}
    (hp : p ≤ c) (h : encodeParams d m ts args p c = .ok bs) : p + bs.length ≤ c := by
  induction ts generalizing args p bs with
  | nil => cases h; simpa using hp
  | cons t ts ih =>
    unfold encodeParams at h
    split at h
    · cases h
    · next hb =>
      have hf := encodeParam_fits hb
      split at h
      · cases h
      · next hr =>
        cases h
        have := ih hf.1 hr
        simp only [List.length_append]
        omega

theorem Schema.encoder_bound {c : Config} (w : c.wf = true) {id : Nat} {e : Encoder}
    (h : c.schema.commandEncoders[id]? = some e) : 1 ≤ e.maxSize ∧ e.maxSize ≤ 59 := by
  simp only [Config.wf, Schema.wf, Bool.and_eq_true, List.all_eq_true] at w
  have := w.1.2 e (List.mem_of_getElem? h)
  simpa [Encoder.wf] using this

/-! ### FRAME_TX -/

theorem State.frameTxGranted_post {s : State} {r : List Byte} (h : s.reservation = some r) {e : Encoder}
    {args : List Word} (hm : s.config.wf = true → e.maxSize ≤ 59) : (s.frameTxGranted e args).Post s.Sent := by
  unfold State.frameTxGranted
  split
  · exact Ran.Post.raise s .encodeError
  · split
    · exact Ran.Post.ofStop s _
    · next bs hb =>
      refine State.Sent.sendFrame h ⟨e.msgId :: bs, rfl, fun hw => ?_⟩
      have := encodeParams_fits (by omega) hb
      have := hm hw
      simp only [List.length_cons]
      omega

/-- FRAME_TX writes no register, pops nothing, and commits only frames it builds (R160, R169). -/
theorem State.frameTx_post (id : Nat) (args : List Word) (s : State) : (s.frameTx id args).Post s.Sent := by
  unfold State.frameTx
  split
  · trivial
  · next e he =>
    have d := s.outReserve_sent (e.maxSize + 5)
    cases h : s.granted (e.maxSize + 5) with
    | false =>
      rw [if_neg (by simp)]
      exact d.trans (State.Sent.emit (e := .drop) trivial rfl)
    | true =>
      rw [if_pos rfl]
      refine (State.frameTxGranted_post (by rw [State.outReserve_granted h]) fun hw => ?_).mono fun _ => d.trans
      rw [d.config] at hw
      exact (Schema.encoder_bound hw he).2

/-! ### PARSE, handlers, the command loop -/

theorem State.parse_post (view : List Byte) (p stop : Nat) (parser : Parser) (s : State) :
    (s.parse view p stop parser).Post s.Sent := by
  unfold State.parse
  split
  · have h := s.frameTx_post s.config.schema.encIsShutdown [s.shutdownReason.setWidth 32]
    revert h
    cases s.frameTx s.config.schema.encIsShutdown [s.shutdownReason.setWidth 32] <;> exact id
  · split
    · exact Ran.Post.ofStop s _
    · exact State.Sent.rfl' s

theorem State.storeData_handled {s t : State} {a : Word} {bs : List Byte} (h : s.storeData a bs = some t) :
    s.Handled t := by
  unfold State.storeData at h
  split at h
  · cases h
  · next m hm =>
    cases h
    exact ⟨rfl, rfl, rfl, rfl, rfl, rfl, rfl, rfl, fun w => Memory.write_wf w hm, id, [], by simp [committed]⟩

/-- A handler writes no register and pops nothing (R225). -/
theorem State.runHandler_post (view : List Byte) (inline : List (Nat × List Byte)) (as : List HandlerAction)
    (s : State) : (State.runHandler view inline as s).Post s.Handled := by
  induction as generalizing s with
  | nil => exact State.Handled.rfl' s
  | cons a as ih =>
    cases a with
    | send id args =>
      unfold State.runHandler
      have h := s.frameTx_post id args
      revert h
      cases s.frameTx id args with
      | ok u s' => exact fun h => (ih s').mono fun _ => h.toHandled.trans
      | ended r s' => exact fun h => (Ran.Post.mono (r := .ended r s') fun _ k => k.toHandled) h
      | fault f => exact fun _ => trivial
      | refused r => exact fun _ => trivial
    | store addr bs =>
      unfold State.runHandler
      split
      · trivial
      · next s' h => exact (ih s').mono fun _ => (State.storeData_handled h).trans
    | copyIn dst src n =>
      unfold State.runHandler
      split
      · split
        · trivial
        · next s' h => exact (ih s').mono fun _ => (State.storeData_handled h).trans
      · trivial
    | raise r => exact (Ran.Post.raise (α := Unit) s r).mono fun _ => State.Sent.toHandled

theorem State.useHandler_handled (s : State) : s.Handled s.useHandler :=
  ⟨rfl, rfl, rfl, rfl, rfl, rfl, rfl, rfl, id, id, [], by simp [committed]⟩

theorem State.dispatch_post (view : List Byte) (live : List (Nat × List Byte)) (cmdid : Byte) (r : Parsed) (s : State) :
    (s.dispatch view live cmdid r).Post s.Handled := by
  unfold State.dispatch
  have e := State.Sent.emit (s := s) (e := .dispatch cmdid r.args (r.inline.map Prod.snd)) trivial rfl
  exact (State.runHandler_post view (live ++ r.inline) _ _).mono fun _ => (e.toHandled.trans (State.useHandler_handled _)).trans

/-- One turn of the loop writes no register and pops nothing (R220, R222). -/
theorem State.commandTurn_post (view : List Byte) (live : List (Nat × List Byte)) (p stop : Nat) (s : State) :
    (s.commandTurn view live p stop).Post s.Handled := by
  unfold State.commandTurn
  split
  · exact (Ran.Post.raise (α := Option Parsed) s .invalidCommand).mono fun _ => State.Sent.toHandled
  · next parser _ =>
    have h := s.parse_post view (p + 1) stop parser
    revert h
    cases s.parse view (p + 1) stop parser with
    | ended r s' => exact fun h => (Ran.Post.mono (r := .ended r s') fun _ => State.Sent.toHandled) h
    | fault f => exact fun _ => trivial
    | refused r => exact fun _ => trivial
    | ok o s' =>
      cases o with
      | none => exact fun h => h.toHandled
      | some r =>
        intro h
        have d := (s'.dispatch_post view live (byteAt view p) r).mono fun _ => h.toHandled.trans
        revert d
        show Ran.Post s.Handled (s'.dispatch view live (byteAt view p) r) → _
        dsimp only
        cases s'.dispatch view live (byteAt view p) r <;> exact id

theorem State.commandLoop_post (view : List Byte) (stop fuel p : Nat) (live : List (Nat × List Byte)) (s : State) :
    (State.commandLoop view stop fuel p live s).Post s.Handled := by
  induction fuel generalizing p live s with
  | zero => exact State.Handled.rfl' s
  | succ fuel ih =>
    unfold State.commandLoop
    split
    · have h := s.commandTurn_post view live p stop
      revert h
      cases s.commandTurn view live p stop with
      | ok o s' =>
        cases o with
        | none => exact id
        | some r => exact fun h => (ih r.cursor (live ++ r.inline) s').mono fun _ => h.trans
      | ended r s' => exact id
      | fault f => exact fun _ => trivial
      | refused r => exact fun _ => trivial
    · exact State.Handled.rfl' s

/-- The walk of a frame: no register written; the frame popped once, at the end, or not at all after a shutdown, which
is then the last thing that happens (R227, R246, R248). -/
theorem State.walkFrame_cases (view : List Byte) (msglen : Nat) (s : State) :
    (∃ u, s.Handled u ∧ s.walkFrame view msglen = .ok () (u.inPop msglen))
      ∨ (∃ r u, s.Handled u ∧ s.walkFrame view msglen = .ended r (u.raiseShutdown r))
      ∨ (∃ f, s.walkFrame view msglen = .fault f) ∨ (∃ r, s.walkFrame view msglen = .refused r) := by
  have h := State.commandLoop_post view (msglen - 3) (msglen - 5) 2 [] s
  unfold State.walkFrame
  revert h
  cases State.commandLoop view (msglen - 3) (msglen - 5) 2 [] s with
  | ok u s' => exact fun h => .inl ⟨s', h, rfl⟩
  | ended r s' =>
    rintro ⟨u, h, rfl⟩
    exact .inr (.inl ⟨r, u, h, rfl⟩)
  | fault f => exact fun _ => .inr (.inr (.inl ⟨f, rfl⟩))
  | refused r => exact fun _ => .inr (.inr (.inr ⟨r, rfl⟩))

end Sys2Proof.Machine
end

