-- ==== Sys2Proof/Laws/Flags.lean ====
section
/-! SUPPORT. FRAME_RX, once, everything it can do: every input view waits, is invalid, or starts with a valid frame, and
what FRAME_RX does with each. The proofs about FRAME_RX and POLL cite these and do not unfold it. -/

namespace Sys2Proof.Machine

/-- Every view is of one of the three kinds (R132 to R138). -/
theorem view_cases (k : CrcKind) (v : List Byte) :
    viewWaits v = true ∨ viewInvalid k v = true ∨ frameValid k v = true := by
  simp only [viewWaits, viewInvalid, frameValid, messageMin, Bool.or_eq_true, Bool.and_eq_true, Bool.not_eq_true',
    decide_eq_true_eq, bne_iff_ne, beq_iff_eq]
  by_cases h5 : v.length < 5
  · exact .inl (.inl h5)
  · cases hl : lenOk v <;> cases ht : tagOk (byteAt v 1)
    · exact .inr (.inl ⟨by omega, .inl (.inl rfl)⟩)
    · exact .inr (.inl ⟨by omega, .inl (.inl rfl)⟩)
    · exact .inr (.inl ⟨by omega, .inl (.inr rfl)⟩)
    · by_cases hc : v.length < (byteAt v 0).toNat
      · exact .inl (.inr ⟨⟨rfl, rfl⟩, hc⟩)
      · by_cases hs : byteAt v ((byteAt v 0).toNat - 1) = syncByte
        · by_cases hr : frameCrcComputed k v = frameCrcField v
          · exact .inr (.inr ⟨⟨⟨⟨⟨by omega, rfl⟩, rfl⟩, by omega⟩, hs⟩, hr⟩)
          · exact .inr (.inl ⟨by omega, .inr ⟨by omega, .inr hr⟩⟩)
        · exact .inr (.inl ⟨by omega, .inr ⟨by omega, .inl hs⟩⟩)

/-- With a resync pending, FRAME_RX resyncs (R131). -/
theorem State.frameRx_resync {s : State} (h : s.needSync = true) : s.frameRx = (none, s.resync) := by
  simp [State.frameRx, h]

/-- A view that waits changes nothing (R132, R135). -/
theorem State.frameRx_waits {s : State} (h : s.needSync = false) (w : viewWaits s.input = true) :
    s.frameRx = (none, s) := by
  simp only [viewWaits, Bool.or_eq_true, Bool.and_eq_true, decide_eq_true_eq] at w
  simp only [State.frameRx, h, State.inPeek, messageMin]
  rcases w with w | ⟨⟨hl, ht⟩, hc⟩
  · simp [w]
  · simp [hl, ht, hc]

/-- An invalid view takes the fail path (R133, R134, R136, R137). -/
theorem State.frameRx_invalid {s : State} (h : s.needSync = false) (w : viewInvalid s.config.crc s.input = true) :
    s.frameRx = (none, s.frameFail) := by
  simp only [viewInvalid, Bool.or_eq_true, Bool.and_eq_true, Bool.not_eq_true', decide_eq_true_eq, bne_iff_ne] at w
  obtain ⟨h5, w⟩ := w
  have h5' : ¬ s.input.length < 5 := by omega
  simp only [State.frameRx, h, State.inPeek, messageMin, h5']
  rcases w with (hl | ht) | ⟨hc, hs⟩
  · simp [hl]
  · simp [ht]
  · have hc' : ¬ s.input.length < (byteAt s.input 0).toNat := by omega
    rcases hs with hs | hr
    · simp [hc', hs]
    · simp [hc', hr]

/-- A valid frame reaches the sequence test (R138). -/
theorem State.frameRx_valid {s : State} (h : s.needSync = false) (w : frameValid s.config.crc s.input = true) :
    s.frameRx = s.frameValidated (byteAt s.input 0).toNat (byteAt s.input 1) := by
  simp only [frameValid, Bool.and_eq_true, decide_eq_true_eq, beq_iff_eq, messageMin] at w
  obtain ⟨⟨⟨⟨⟨h5, hl⟩, ht⟩, hc⟩, hs⟩, hr⟩ := w
  have h5' : ¬ s.input.length < 5 := by omega
  have hc' : ¬ s.input.length < (byteAt s.input 0).toNat := by omega
  simp [State.frameRx, h, State.inPeek, messageMin, h5', hc', hl, ht, hs, hr]

/-- How many bytes the scan pops (R144). -/
theorem syncScan_eq (v : List Byte) :
    syncScan v = match v.findIdx? (fun b => b == syncByte) with
      | some i => i + 1
      | none => v.length := by
  induction v with
  | nil => rfl
  | cons b v ih =>
    by_cases h : b = syncByte
    · subst h
      simp [syncScan, List.findIdx?_cons]
    · have h' : (b == syncByte) = false := by simpa using h
      have step : syncScan (b :: v) = syncScan v + 1 := by
        have h'' : (syncByte == b) = false := by simpa using fun e : syncByte = b => h e.symm
        simp only [syncScan, List.takeWhile_cons, bne, h', Bool.not_false, if_true, List.length_cons,
          List.contains_cons, h'', Bool.false_or]
        omega
      rw [step, ih, List.findIdx?_cons, h']
      cases v.findIdx? (fun b => b == syncByte) <;> rfl

/-- A view holds a SYNC byte exactly when the scan finds one. -/
theorem contains_sync (v : List Byte) : v.contains syncByte = (v.findIdx? (fun b => b == syncByte)).isSome := by
  rw [List.findIdx?_isSome, List.contains_eq_any_beq]
  exact congrArg v.any (funext fun _ => Bool.beq_comm)

/-- The scan (R144). -/
theorem State.resyncScan_eq {s : State} (h : s.needSync = true) : s.resyncScan = s.scanned := by
  unfold State.resyncScan State.scanned State.inPeek
  rw [syncScan_eq, contains_sync]
  cases s.input.findIdx? (fun b => b == syncByte) with
  | none => simp only [State.inPop, State.emit, h, Option.isSome_none, Bool.not_false]
  | some i => rfl

/-- The NAK latch (R145, R146). -/
theorem State.nakOnce_eq (s : State) :
    s.nakOnce = if s.needValid then s
      else State.offer 5 s.emptyFrame { s with needValid := true } := by
  unfold State.nakOnce
  split
  · rfl
  · exact State.ackNak_eq_offer _

/-- Resync (R144 to R146). -/
theorem State.resync_eq {s : State} (h : s.needSync = true) : s.resync = s.scanned.nakOnce := by
  rw [State.resync, State.resyncScan_eq h]

/-- The fail path (R142, R143). -/
theorem State.frameFail_eq (s : State) :
    s.frameFail = if byteAt s.input 0 = syncByte then s.inPop 1 else s.scanned.nakOnce := by
  unfold State.frameFail
  by_cases hb : byteAt s.input 0 = syncByte
  · simp [State.inPeek, hb]
  · have : (byteAt s.inPeek 0 == syncByte) = false := by simpa [State.inPeek] using hb
    rw [this, if_neg (by simp), if_neg hb, State.resync_eq rfl]
    rfl

/-- The frame FRAME_RX returns: it accepted the head of the input (R140). -/
theorem State.frameRx_accepts {s : State} (h : s.accepts = true) :
    s.frameRx = (some (byteAt s.input 0).toNat, s.accepted) := by
  simp only [State.accepts, Bool.and_eq_true, Bool.not_eq_true'] at h
  rw [State.frameRx_valid h.1.1 h.1.2, State.frameValidated, if_pos h.2, State.ackNak_eq_offer]
  rfl

/-- A valid frame out of sequence (R141). -/
theorem State.frameRx_discards {s : State} (h : s.needSync = false) (w : frameValid s.config.crc s.input = true)
    (q : byteAt s.input 1 ≠ s.nextSeq) :
    s.frameRx = (none, State.offer 5 s.emptyFrame (State.inPop (byteAt s.input 0).toNat { s with needValid := false })) := by
  rw [State.frameRx_valid h w, State.frameValidated, if_neg (by simpa using q), State.ackNak_eq_offer]
  rfl

/-- Everything FRAME_RX can do. -/
theorem State.frameRx_cases (s : State) :
    (s.needSync = true ∧ s.frameRx = (none, s.scanned.nakOnce))
      ∨ (s.needSync = false ∧ viewWaits s.input = true ∧ s.frameRx = (none, s))
      ∨ (s.needSync = false ∧ byteAt s.input 0 = syncByte ∧ s.frameRx = (none, s.inPop 1))
      ∨ (s.needSync = false ∧ byteAt s.input 0 ≠ syncByte ∧ viewInvalid s.config.crc s.input = true
          ∧ s.frameRx = (none, s.scanned.nakOnce))
      ∨ (s.accepts = true ∧ s.frameRx = (some (byteAt s.input 0).toNat, s.accepted))
      ∨ (s.needSync = false ∧ frameValid s.config.crc s.input = true ∧ byteAt s.input 1 ≠ s.nextSeq
          ∧ s.frameRx = (none, State.offer 5 s.emptyFrame
              (State.inPop (byteAt s.input 0).toNat { s with needValid := false }))) := by
  rcases Bool.eq_false_or_eq_true s.needSync with h | h
  · exact .inl ⟨h, by rw [State.frameRx_resync h, State.resync_eq h]⟩
  · rcases view_cases s.config.crc s.input with w | w | w
    · exact .inr (.inl ⟨h, w, State.frameRx_waits h w⟩)
    · by_cases hb : byteAt s.input 0 = syncByte
      · exact .inr (.inr (.inl ⟨h, hb, by rw [State.frameRx_invalid h w, State.frameFail_eq, if_pos hb]⟩))
      · exact .inr (.inr (.inr (.inl
          ⟨h, hb, w, by rw [State.frameRx_invalid h w, State.frameFail_eq, if_neg hb]⟩)))
    · by_cases q : byteAt s.input 1 = s.nextSeq
      · have a : s.accepts = true := by simp [State.accepts, h, w, q]
        exact .inr (.inr (.inr (.inr (.inl ⟨a, State.frameRx_accepts a⟩))))
      · exact .inr (.inr (.inr (.inr (.inr ⟨h, w, q, State.frameRx_discards h w q⟩))))

end Sys2Proof.Machine
end

