-- ==== Sys2Proof/Laws/Vlq.lean ====
section
/-! SUPPORT. VLQ_DEC, once: what it gives on a VLQ, and that it gives nothing on bytes that all have bit 7 set. Every byte
list starts with a VLQ or is such a list. -/

namespace Sys2Proof.Machine

theorem vlqMore_msb : ∀ c : Byte, vlqMore c = c.msb := by decide

theorem vlqSeed_int : ∀ c : Byte, vlqSeed c = BitVec.ofInt 32
    (if 0x60 ≤ (c &&& 0x7F#8).toNat then ((c &&& 0x7F#8).toNat : Int) - 128 else (c &&& 0x7F#8).toNat) := by
  decide

/-- A turn of the loop of R110 multiplies by 128 and adds the group, modulo 2^32. -/
theorem vlqShiftIn_int (x : Int) (c : Byte) :
    vlqShiftIn (BitVec.ofInt 32 x) c = BitVec.ofInt 32 (x * 128 + (c &&& 0x7F#8).toNat) := by
  have h1 : vlqShiftIn (BitVec.ofInt 32 x) c = BitVec.ofInt 32 x * 128#32 + (c &&& 0x7F#8).setWidth 32 := by
    unfold vlqShiftIn
    rw [← BitVec.add_eq_or_of_and_eq_zero]
    · congr 1
      rw [BitVec.shiftLeft_eq_mul_twoPow]
      rfl
    · apply BitVec.eq_of_getLsbD_eq
      intro i hi
      simp only [BitVec.getLsbD_and, BitVec.getLsbD_shiftLeft, BitVec.getLsbD_setWidth, BitVec.getLsbD_zero]
      by_cases h : i < 7
      · simp [h]
      · have : (0x7F#8).getLsbD i = false := by
          by_cases h8 : i < 8
          · rw [show i = 7 by omega]
            rfl
          · exact BitVec.getLsbD_of_ge _ _ (by omega)
        rw [this]
        simp
  rw [h1, BitVec.ofInt_add, BitVec.ofInt_mul]
  congr 1
  apply BitVec.eq_of_toNat_eq
  simp

theorem vlqRest_int {v : List Byte} (after : List Byte) (h : isVlq v = true) (x : Int) (n : Nat) :
    vlqRest (BitVec.ofInt 32 x) n (v ++ after) =
      some (BitVec.ofInt 32 (v.foldl (fun acc c => acc * 128 + (c &&& 0x7F#8).toNat) x), n + v.length) := by
  induction v generalizing x n with
  | nil => simp [isVlq] at h
  | cons b v ih =>
    cases v with
    | nil =>
      simp only [isVlq, Bool.not_eq_true'] at h
      simp [vlqRest, vlqMore_msb, h, vlqShiftIn_int]
    | cons c v =>
      simp only [isVlq, Bool.and_eq_true] at h
      rw [List.cons_append, vlqRest, vlqMore_msb, if_pos h.1, vlqShiftIn_int, ih h.2]
      simp
      omega

/-- VLQ_DEC of a VLQ, whatever follows it: the closed form of R110, and its length. -/
theorem vlqDec_isVlq {v : List Byte} (after : List Byte) (h : isVlq v = true) :
    vlqDec (v ++ after) = some (BitVec.ofInt 32 (vlqInt v), v.length) := by
  cases v with
  | nil => simp [isVlq] at h
  | cons b v =>
    cases v with
    | nil =>
      simp only [isVlq, Bool.not_eq_true'] at h
      simp [vlqDec, vlqMore_msb, h, vlqSeed_int, vlqInt]
    | cons c v =>
      simp only [isVlq, Bool.and_eq_true] at h
      rw [List.cons_append, vlqDec, vlqMore_msb, if_pos h.1, vlqSeed_int, vlqRest_int after h.2]
      simp [vlqInt]
      omega

theorem vlqRest_none {bs : List Byte} (h : ∀ b ∈ bs, b.msb = true) (v : Word) (n : Nat) : vlqRest v n bs = none := by
  induction bs generalizing v n with
  | nil => rfl
  | cons b bs ih =>
    have hb : b.msb = true := h b (by simp)
    rw [vlqRest, vlqMore_msb, if_pos hb, ih fun c hc => h c (by simp [hc])]

/-- VLQ_DEC gives nothing when every byte has bit 7 set (R111). -/
theorem vlqDec_none {bs : List Byte} (h : ∀ b ∈ bs, b.msb = true) : vlqDec bs = none := by
  cases bs with
  | nil => rfl
  | cons b bs =>
    have hb : b.msb = true := h b (by simp)
    rw [vlqDec, vlqMore_msb, if_pos hb, vlqRest_none fun c hc => h c (by simp [hc])]

/-- Every byte list starts with a VLQ, or all its bytes have bit 7 set. -/
theorem vlq_or_none (bs : List Byte) :
    (∃ v after, bs = v ++ after ∧ isVlq v = true) ∨ ∀ b ∈ bs, b.msb = true := by
  induction bs with
  | nil => exact .inr (by simp)
  | cons b bs ih =>
    cases hb : b.msb with
    | false => exact .inl ⟨[b], bs, rfl, by simp [isVlq, hb]⟩
    | true =>
      rcases ih with ⟨v, after, rfl, hv⟩ | ih
      · refine .inl ⟨b :: v, after, rfl, ?_⟩
        cases v with
        | nil => simp [isVlq] at hv
        | cons c v =>
          simpa [isVlq, hb] using hv
      · exact .inr (by simpa [hb] using ih)

end Sys2Proof.Machine
end

