-- ==== Sys2Proof/Laws/Command.lean ====
section
/-! SUPPORT. The parameter loop, a turn of POLL's loop and the loop itself, once, on bytes that parse; what a shutdown
leaves behind; and what an accepted frame keeps. -/

namespace Sys2Proof.Machine

/-- The end of an operation by a shutdown (R242, R246). -/
theorem State.raiseShutdown_trapped (s : State) (r : Reason) :
    State.Trapped s r ((s.raiseShutdown r).answer (.shutdown r)) := by
  constructor <;> try rfl
  show s.reasonAfter r = _ ∨ _ ∧ s.reasonAfter r = _
  unfold State.reasonAfter
  cases s.shutdown <;> cases Config.keepsFirstReason s.draws <;> simp

/-- Under a bound inside the view no index is missing (R41). -/
theorem beyond_eq_zero {view : List Byte} {p stop : Nat} (h : stop ≤ view.length) : beyond view p stop = 0 := by
  unfold beyond
  omega

theorem pastEnd_zero : pastEnd 0 = .shutdown .parserError := rfl

/-- The first byte of a window. -/
theorem byteAt_of_window {view bs : List Byte} {p stop : Nat} {b : Byte} (h : window view p stop = b :: bs) :
    byteAt view p = b := by
  have h0 : (window view p stop)[0]? = some b := by rw [h]; rfl
  unfold window at h0
  rw [List.getElem?_drop, List.getElem?_take, Nat.add_zero] at h0
  split_ifs at h0
  rw [byteAt, List.getD_eq_getElem?_getD, h0]
  rfl

/-- The window behind a part of a window. -/
theorem window_add {view bs rest : List Byte} {p stop : Nat} (h : window view p stop = bs ++ rest) :
    window view (p + bs.length) stop = rest := by
  have : window view (p + bs.length) stop = (window view p stop).drop bs.length := by simp [window, List.drop_drop]
  rw [this, h, List.drop_left]

/-- PARSE's loop on bytes that parse, whatever follows them (R182 to R184, R188). -/
theorem parseParams_parses {ts : List ArgType} {p : Nat} {bs : List Byte} {args : List Word}
    {inline : List (Nat × List Byte)} (h : Parses ts p bs args inline) (missing : Nat) (after : List Byte) :
    parseParams ts p missing (bs ++ after) = .ok { cursor := p + bs.length, args := args, inline := inline } := by
  induction h with
  | done p => simp [parseParams]
  | @integer t ts p v bs args inline hint hv rest ih =>
    simp only [parseParams, hint, if_true, List.append_assoc, vlqDec_isVlq _ hv, List.drop_left, ih, Parsed.consInt]
    simp
    omega
  | @buffer ts p d bs args inline hlen rest ih =>
    have hn : (BitVec.ofNat 8 d.length).toNat = d.length := by
      rw [BitVec.toNat_ofNat]
      omega
    have hm : missing - (d.length - (d.length + (bs.length + after.length))) = missing := by omega
    have hr : ¬ d.length + (bs.length + after.length) + missing < d.length := by omega
    simp only [parseParams, show ArgType.buffer.isInt = false from rfl, List.cons_append, hn, List.append_assoc,
      List.length_append, hm, hr, List.drop_left, List.take_left, ih]
    simp [Parsed.consBuffer]
    omega

/-- PARSE's loop on bytes that are not the arguments of its types raises (R185, R187). -/
theorem parseParams_error {ts : List ArgType} {p : Nat} {bytes : List Byte}
    (h : ∀ bs after args inline, bytes = bs ++ after → ¬ Parses ts p bs args inline) :
    parseParams ts p 0 bytes = .error (.shutdown .parserError) := by
  induction ts generalizing p bytes with
  | nil => exact absurd (Parses.done p) (h [] bytes [] [] rfl)
  | cons t ts ih =>
    by_cases ht : t.isInt = true
    · obtain ⟨v, after, rfl, hv⟩ | hn := vlq_or_none bytes
      · have e := ih (p := p + v.length) (bytes := after) fun bs a args inline e k =>
          h (v ++ bs) a (BitVec.ofInt 32 (vlqInt v) :: args) inline (by simp [e]) (.integer ht hv k)
        simp [parseParams, ht, vlqDec_isVlq after hv, e]
      · simp [parseParams, ht, vlqDec_none hn, pastEnd]
    · by_cases hb : t = .buffer
      · subst hb
        cases bytes with
        | nil => simp [parseParams, ArgType.isInt, pastEnd]
        | cons n rest =>
          by_cases hl : rest.length < n.toNat
          · simp [parseParams, ArgType.isInt, hl]
          · have hd : (rest.take n.toNat).length = n.toNat := by
              simp
              omega
            have e := ih (p := p + 1 + n.toNat) (bytes := rest.drop n.toNat) fun bs a args inline e k => by
              refine h (n :: (rest.take n.toNat ++ bs)) a (BitVec.ofNat 32 n.toNat :: BitVec.ofNat 32 (p + 1) :: args)
                ((p + 1, rest.take n.toNat) :: inline) (by simp [← e]) ?_
              have b := Parses.buffer (d := rest.take n.toNat) (p := p) (by have := n.isLt; omega) (by rw [hd]; exact k)
              rw [hd] at b
              simpa using b
            simp [parseParams, ArgType.isInt, hl, e]
      · simp [parseParams, ht, hb]

/-- PARSE's loop on arguments that parse, up to one that stops it (R185, R249). -/
theorem parseParams_append {ts more : List ArgType} {p missing : Nat} {bs after : List Byte} {args : List Word}
    {inline : List (Nat × List Byte)} {e : Stop} (h : Parses ts p bs args inline)
    (stop : parseParams more (p + bs.length) missing after = .error e) :
    parseParams (ts ++ more) p missing (bs ++ after) = .error e := by
  induction h with
  | done p => simpa using stop
  | @integer t ts p v bs args inline hint hv rest ih =>
    have e' := ih (by rw [← stop, List.length_append, Nat.add_assoc])
    simp only [List.cons_append, parseParams, hint, if_true, List.append_assoc, vlqDec_isVlq _ hv, List.drop_left, e']
  | @buffer ts p d bs args inline hlen rest ih =>
    have e' := ih (by
      rw [← stop]
      congr 1
      simp only [List.length_cons, List.length_append]
      omega)
    have hn : (BitVec.ofNat 8 d.length).toNat = d.length := by
      rw [BitVec.toNat_ofNat]
      omega
    have hm : missing - (d.length - (d.length + (bs.length + after.length))) = missing := by omega
    have hr : ¬ d.length + (bs.length + after.length) + missing < d.length := by omega
    simp only [List.cons_append, parseParams, show ArgType.buffer.isInt = false from rfl, hn, List.append_assoc,
      List.length_append, hm, hr, List.drop_left, e']
    simp

/-- The mode and the flag do not turn the command away (R181). -/
theorem State.not_guarded {s : State} {parser : Parser} (allowed : s.shutdown = true → parser.inShutdown = true) :
    (s.isShutdown && !parser.inShutdown) = false := by
  unfold State.isShutdown
  cases h1 : s.shutdown <;> simp_all

/-! What dispatches to handlers that do nothing leave. -/

@[simp] theorem State.dispatched_config (s : State) (es : List Event) (hs : List (List HandlerAction)) :
    (s.dispatched es hs).config = s.config := rfl
@[simp] theorem State.dispatched_shutdown (s : State) (es : List Event) (hs : List (List HandlerAction)) :
    (s.dispatched es hs).shutdown = s.shutdown := rfl
@[simp] theorem State.dispatched_shutdownReason (s : State) (es : List Event) (hs : List (List HandlerAction)) :
    (s.dispatched es hs).shutdownReason = s.shutdownReason := rfl
@[simp] theorem State.dispatched_nextSeq (s : State) (es : List Event) (hs : List (List HandlerAction)) :
    (s.dispatched es hs).nextSeq = s.nextSeq := rfl
@[simp] theorem State.dispatched_input (s : State) (es : List Event) (hs : List (List HandlerAction)) :
    (s.dispatched es hs).input = s.input := rfl
@[simp] theorem State.dispatched_handlerRuns (s : State) (es : List Event) (hs : List (List HandlerAction)) :
    (s.dispatched es hs).handlerRuns = hs := rfl
@[simp] theorem State.dispatched_trace (s : State) (es : List Event) (hs : List (List HandlerAction)) :
    (s.dispatched es hs).trace = s.trace ++ es := rfl

/-- A turn of the loop on a known, allowed command that parses is its dispatch (R223 to R225). -/
theorem State.commandTurn_parses {s : State} {view bs after : List Byte} {live : List (Nat × List Byte)}
    {p stop : Nat} {id : Byte} {parser : Parser}
    {args : List Word} {inline : List (Nat × List Byte)} (hid : byteAt view p = id)
    (known : Schema.parserOf s.config.schema id = some parser) (allowed : s.shutdown = true → parser.inShutdown = true)
    (hw : window view (p + 1) stop = bs ++ after) (parsed : Parses parser.paramTypes (p + 1) bs args inline) :
    s.commandTurn view live p stop =
      match s.dispatch view live id { cursor := p + 1 + bs.length, args := args, inline := inline } with
      | .ok _ t    => .ok (some { cursor := p + 1 + bs.length, args := args, inline := inline }) t
      | .ended k t => .ended k t
      | .fault f   => .fault f
      | .refused k => .refused k := by
  simp only [State.commandTurn, hid, known, State.parse, State.not_guarded allowed, hw, parseParams_parses parsed]
  rfl

/-- The same for a handler that does nothing. -/
theorem State.commandTurn_dispatches {s : State} {view bs after : List Byte} {live : List (Nat × List Byte)}
    {p stop : Nat} {id : Byte} {parser : Parser}
    {args : List Word} {inline : List (Nat × List Byte)} {hs : List (List HandlerAction)} (hid : byteAt view p = id)
    (known : Schema.parserOf s.config.schema id = some parser) (allowed : s.shutdown = true → parser.inShutdown = true)
    (hw : window view (p + 1) stop = bs ++ after) (parsed : Parses parser.paramTypes (p + 1) bs args inline)
    (hh : s.handlerRuns = [] :: hs) :
    s.commandTurn view live p stop = .ok (some { cursor := p + 1 + bs.length, args := args, inline := inline })
      (s.dispatched [.dispatch id args (inline.map Prod.snd)] hs) := by
  rw [State.commandTurn_parses hid known allowed hw parsed]
  simp [State.dispatch, State.handlerOf, hh, State.runHandler, State.useHandler, State.emit, State.dispatched]

/-- A turn of the loop on an unknown command (R223). -/
theorem State.commandTurn_unknown {s : State} {view : List Byte} {live : List (Nat × List Byte)} {p stop : Nat}
    (h : Schema.parserOf s.config.schema (byteAt view p) = none) :
    s.commandTurn view live p stop = .ended .invalidCommand (s.raiseShutdown .invalidCommand) := by
  rw [State.commandTurn, h]

/-- The loop on such commands and whatever follows them: each is dispatched once, in wire order, and the loop goes on
behind them (R222). -/
theorem State.commandLoop_then {c : Schema} {on : Bool} {view payload : List Byte} {p stop : Nat} {es : List Event}
    (h : Commands c on p payload es) (s : State) (hs : List (List HandlerAction)) (live : List (Nat × List Byte))
    (rest : List Byte) (hc : s.config.schema = c) (hon : s.shutdown = on) (hw : window view p stop = payload ++ rest)
    (hl : p + payload.length ≤ stop) (hh : s.handlerRuns = List.replicate es.length [] ++ hs) :
    ∃ live', ∀ fuel, State.commandLoop view stop (fuel + es.length) p live s =
      State.commandLoop view stop fuel (p + payload.length) live' (s.dispatched es hs) := by
  induction h generalizing s live with
  | done p =>
    refine ⟨live, fun fuel => ?_⟩
    simp only [List.length_nil, List.replicate_zero, List.nil_append] at hh
    subst hh
    simp [State.dispatched]
  | @command p id parser bs more args inline es known allowed parsed next ih =>
    simp only [List.length_cons, List.length_append] at hl
    have hw1 : window view (p + 1) stop = bs ++ (more ++ rest) := by
      have := window_add (bs := [id]) (rest := bs ++ more ++ rest) hw
      simpa using this
    simp only [List.length_cons, List.replicate_succ, List.cons_append] at hh
    have turn := State.commandTurn_dispatches (s := s) (live := live)
      (byteAt_of_window (b := id) (bs := bs ++ more ++ rest) hw) (hc ▸ known) (hon ▸ allowed) hw1 parsed hh
    obtain ⟨live', e⟩ := ih (s.dispatched [.dispatch id args (inline.map Prod.snd)] (List.replicate es.length [] ++ hs))
      (live ++ inline) hc hon (window_add hw1) (by omega) rfl
    refine ⟨live', fun fuel => ?_⟩
    rw [List.length_cons, ← Nat.add_assoc, State.commandLoop, if_pos (by omega), turn]
    dsimp only
    rw [e]
    simp only [State.dispatched, List.append_assoc, List.singleton_append, List.length_cons, List.length_append]
    congr 1
    omega

/-- A turn that ends in a shutdown ends the loop (R246). -/
theorem State.commandLoop_ended {s t : State} {view : List Byte} {live : List (Nat × List Byte)} {p stop fuel : Nat}
    {r : Reason} (hp : p < stop) (hf : 0 < fuel) (h : s.commandTurn view live p stop = .ended r t) :
    State.commandLoop view stop fuel p live s = .ended r t := by
  obtain ⟨g, rfl⟩ : ∃ g, fuel = g + 1 := ⟨fuel - 1, by omega⟩
  rw [State.commandLoop, if_pos hp, h]

/-- A skip leaves the loop (R226). -/
theorem State.commandLoop_skip {s t : State} {view : List Byte} {live : List (Nat × List Byte)} {p stop fuel : Nat}
    (hp : p < stop) (hf : 0 < fuel) (h : s.commandTurn view live p stop = .ok none t) :
    State.commandLoop view stop fuel p live s = .ok () t := by
  obtain ⟨g, rfl⟩ : ∃ g, fuel = g + 1 := ⟨fuel - 1, by omega⟩
  rw [State.commandLoop, if_pos hp, h]

/-- A command has at least its MSG_ID (R76). -/
theorem Commands.length_le {c : Schema} {on : Bool} {p : Nat} {payload : List Byte} {es : List Event}
    (h : Commands c on p payload es) : es.length ≤ payload.length := by
  induction h with
  | done p => simp
  | command _ _ _ _ ih =>
    simp only [List.length_cons, List.length_append]
    omega

/-- The loop on a payload of such commands: each is dispatched once, in wire order (R222). -/
theorem State.commandLoop_commands {c : Schema} {on : Bool} {view payload : List Byte} {p stop : Nat} {es : List Event}
    (h : Commands c on p payload es) (s : State) (hs : List (List HandlerAction)) (fuel : Nat)
    (live : List (Nat × List Byte)) (hc : s.config.schema = c) (hon : s.shutdown = on)
    (hw : window view p stop = payload) (hl : p + payload.length = stop) (hf : payload.length ≤ fuel)
    (hh : s.handlerRuns = List.replicate es.length [] ++ hs) :
    State.commandLoop view stop fuel p live s = .ok () (s.dispatched es hs) := by
  obtain ⟨live', e⟩ := State.commandLoop_then h s hs live [] hc hon (by simpa using hw) (by omega) hh
  have hle := h.length_le
  obtain ⟨g, rfl⟩ : ∃ g, fuel = g + es.length := ⟨fuel - es.length, by omega⟩
  rw [e, hl]
  cases g <;> simp [State.commandLoop]

/-- What an accepted frame leaves as it was (R140). -/
theorem State.accepted_keeps (s : State) :
    s.accepted.config = s.config ∧ s.accepted.shutdown = s.shutdown ∧ s.accepted.shutdownReason = s.shutdownReason
      ∧ s.accepted.handlerRuns = s.handlerRuns ∧ s.accepted.input = s.input := by
  unfold State.accepted State.offer
  split_ifs <;> exact ⟨rfl, rfl, rfl, rfl, rfl⟩

/-- POLL when FRAME_RX returns none (R221). -/
theorem State.pollOnce_none {s t : State} (h : s.frameRx = (none, t)) : s.pollOnce = .ok () t := by
  rw [State.pollOnce, h]

/-- POLL of an accepted frame (R221). -/
theorem State.pollOnce_accepts {s : State} (h : s.accepts = true) :
    s.pollOnce = s.accepted.walkFrame s.input (byteAt s.input 0).toNat := by
  rw [State.pollOnce, State.frameRx_accepts h]
  rfl

/-- An id past the table or with a null entry has no parser (R223). -/
theorem Schema.parserOf_none {c : Schema} {id : Byte}
    (h : c.commandIndex.length ≤ id.toNat ∨ c.commandIndex[id.toNat]? = some none) : Schema.parserOf c id = none := by
  unfold Schema.parserOf
  obtain h | h := h
  · rw [List.getElem?_eq_none h]
  · rw [h]

/-- An id with an entry has that parser (R223). -/
theorem Schema.parserOf_some {c : Schema} {id : Byte} {parser : Parser}
    (h : c.commandIndex[id.toNat]? = some (some parser)) : Schema.parserOf c id = some parser := by
  rw [Schema.parserOf, h]

/-- A frame at the head of a view: its LEN, its SEQ, its payload, and what is left when it is popped (R70). -/
theorem buildFrame_view {k : CrcKind} {view payload after : List Byte} {seq : Byte}
    (h : view = buildFrame k payload seq ++ after) (hl : payload.length ≤ 59) :
    (byteAt view 0).toNat = payload.length + 5 ∧ byteAt view 1 = seq
      ∧ window view 2 (payload.length + 2) = payload ∧ view.drop (payload.length + 5) = after := by
  subst h
  refine ⟨?_, ?_, ?_, ?_⟩ <;> simp [buildFrame, frameBytes, byteAt, window]
  omega

/-- POLL of an accepted frame whose payload begins with commands that are dispatched and whose handlers do nothing: the
loop goes on behind them, with turns to spare for every byte that is left (R222, R249). -/
theorem State.commandLoop_frame {s : State} {k : CrcKind} {before rest after : List Byte} {seq : Byte}
    {es : List Event} {hs : List (List HandlerAction)} (hl : (before ++ rest).length ≤ 59)
    (hin : s.input = buildFrame k (before ++ rest) seq ++ after)
    (hc : Commands s.config.schema s.shutdown 2 before es) (hh : s.handlerRuns = List.replicate es.length [] ++ hs) :
    ∃ fuel live, rest.length ≤ fuel ∧
      State.commandLoop s.input ((before ++ rest).length + 2) (before ++ rest).length 2 [] s.accepted =
        State.commandLoop s.input ((before ++ rest).length + 2) fuel (2 + before.length) live
          (s.accepted.dispatched es hs) := by
  obtain ⟨h1, h2, -, h3, -⟩ := s.accepted_keeps
  obtain ⟨-, -, hw, -⟩ := buildFrame_view hin hl
  obtain ⟨live, e⟩ := State.commandLoop_then (stop := (before ++ rest).length + 2) hc s.accepted hs [] rest
    (by rw [h1]) h2 hw (by simp only [List.length_append]; omega) (by rw [h3]; exact hh)
  have := hc.length_le
  refine ⟨(before ++ rest).length - es.length, live, ?_, ?_⟩
  · simp only [List.length_append]
    omega
  · rw [← e]
    congr 1
    simp only [List.length_append]
    omega

end Sys2Proof.Machine
end

