-- ==== Sys2Proof/Laws/Decode.lean ====
section
/-! SUPPORT. The fields of the wire forms, once: writing a field and reading it back, and reading a field and writing it
back. The proofs about encode and decodeAs cite these. -/

namespace Sys2Proof

open Sys2Proof.Machine

theorem seqByte_tagOk (n : BitVec 4) : tagOk (seqByte n) = true := by revert n; decide

theorem seqByte_number (n : BitVec 4) : (seqByte n).setWidth 4 = n := by revert n; decide

theorem tagOk_seqByte (b : Byte) (h : tagOk b = true) : seqByte (b.setWidth 4) = b := by revert b; decide

/-- The two CRC bytes give the CRC back (R52, R137). -/
theorem halfOf_hi_lo (c : Half) : halfOf (hiByte c) (loByte c) = c := by
  unfold halfOf hiByte loByte
  apply BitVec.eq_of_getLsbD_eq
  intro i hi
  simp only [BitVec.getLsbD_or, BitVec.getLsbD_shiftLeft, BitVec.getLsbD_setWidth, BitVec.getLsbD_ushiftRight]
  by_cases h : i < 8
  · simp [h]
    intro
    omega
  · have e : 8 + (i - 8) = i := by omega
    simp [h, hi, e, show i - 8 < 8 by omega]
    intro
    omega

theorem hiByte_halfOf (a b : Byte) : hiByte (halfOf a b) = a := by
  unfold halfOf hiByte
  apply BitVec.eq_of_getLsbD_eq
  intro i hi
  simp only [BitVec.getLsbD_or, BitVec.getLsbD_shiftLeft, BitVec.getLsbD_setWidth, BitVec.getLsbD_ushiftRight]
  simp [hi, show 8 + i < 16 by omega]
  intro
  omega

theorem loByte_halfOf (a b : Byte) : loByte (halfOf a b) = b := by
  unfold halfOf loByte
  apply BitVec.eq_of_getLsbD_eq
  intro i hi
  simp only [BitVec.getLsbD_or, BitVec.getLsbD_shiftLeft, BitVec.getLsbD_setWidth]
  simp [hi, show i < 16 by omega]

/-! ### VLQ bytes -/

/-- A VLQ is cut from what follows it at its last byte (R87). -/
theorem splitVlq_isVlq {v : List Byte} (rest : List Byte) (h : isVlq v = true) : splitVlq (v ++ rest) = some (v, rest) := by
  induction v with
  | nil => simp [isVlq] at h
  | cons b v ih =>
    cases v with
    | nil =>
      simp only [isVlq, Bool.not_eq_true'] at h
      simp [splitVlq, h]
    | cons c v =>
      simp only [isVlq, Bool.and_eq_true] at h
      rw [List.cons_append, splitVlq, if_pos h.1, ih h.2]

theorem splitVlq_append {bs v r : List Byte} (h : splitVlq bs = some (v, r)) : v ++ r = bs := by
  induction bs generalizing v r with
  | nil => simp [splitVlq] at h
  | cons b bs ih =>
    unfold splitVlq at h
    split at h
    · split at h
      · cases h
      · next hs =>
        cases h
        simp [ih hs]
    · cases h
      rfl

theorem group7_msb {w : Nat} (v : BitVec w) (i : Nat) : (group7 v i).msb = false := by
  unfold group7
  rw [BitVec.msb_and]
  simp [show (127#8).msb = false from rfl]

/-- The bytes of a row carry the continuation bits the row shows (R78). -/
theorem groupBytes_isVlq {w : Nat} (v : BitVec w) : ∀ k, 1 ≤ k → isVlq (groupBytes v k) = true
  | 0, h => by omega
  | 1, _ => by simp [groupBytes, isVlq, group7_msb]
  | k + 2, _ => by
    have ih := groupBytes_isVlq v (k + 1) (by omega)
    cases hk : groupBytes v (k + 1) with
    | nil => simpa [hk] using groupBytes_length v (k + 1)
    | cons x xs =>
      rw [hk] at ih
      simp [groupBytes, hk, isVlq, ih, BitVec.msb_or, show (128#8).msb = true from rfl]

theorem group7_bit {w : Nat} (v : BitVec w) (i j : Nat) (hj : j < 7) :
    (group7 v i).getLsbD j = v.getLsbD (7 * i + j) := by
  unfold group7
  simp only [BitVec.getLsbD_and, BitVec.getLsbD_setWidth, BitVec.getLsbD_ushiftRight]
  have : (0x7F#8).getLsbD j = true := by interval_cases j <;> rfl
  simp [this]
  omega

/-- The data bits of byte `j` of a row are bits of the value (R78). -/
theorem groupBytes_bit {w : Nat} (v : BitVec w) :
    ∀ k j, j < k → ∀ m, m < 7 → ((groupBytes v k).getD j 0).getLsbD m = v.getLsbD (7 * (k - 1 - j) + m)
  | 0, j, h, _, _ => by omega
  | 1, j, h, m, hm => by
    obtain rfl : j = 0 := by omega
    simp [groupBytes, group7_bit v 0 m hm]
  | k + 2, 0, _, m, hm => by
    have : (0x80#8).getLsbD m = false := by interval_cases m <;> rfl
    simp only [groupBytes, List.getD_cons_zero, BitVec.getLsbD_or, group7_bit _ _ _ hm, this]
    simp
  | k + 2, j + 1, h, m, hm => by
    simp only [groupBytes, List.getD_cons_succ]
    rw [groupBytes_bit v (k + 1) j (by omega) m hm]
    congr 2
    omega

/-- The bits of joined groups. -/
theorem foldl_groups_bit (w : Nat) (bs : List Byte) (acc : BitVec w) (j : Nat) :
    BitVec.getLsbD (bs.foldl (fun (acc : BitVec w) b => (acc <<< 7) ||| (b &&& 0x7F#8).setWidth w) acc) j =
      (decide (j < w) && if j < 7 * bs.length then (bs.getD (bs.length - 1 - j / 7) 0).getLsbD (j % 7)
        else acc.getLsbD (j - 7 * bs.length)) := by
  induction bs generalizing acc with
  | nil =>
    simp
    exact fun h => BitVec.lt_of_getLsbD h
  | cons b bs ih =>
    simp only [List.foldl_cons, ih, List.length_cons]
    by_cases hw : j < w
    · simp only [hw, decide_true, Bool.true_and]
      by_cases h : j < 7 * bs.length
      · rw [if_pos h, if_pos (by omega),
          show bs.length + 1 - 1 - j / 7 = (bs.length - 1 - j / 7) + 1 by omega, List.getD_cons_succ]
      · simp only [h, if_false, BitVec.getLsbD_or, BitVec.getLsbD_shiftLeft, BitVec.getLsbD_setWidth,
          BitVec.getLsbD_and]
        have hw' : j - 7 * bs.length < w := by omega
        by_cases h2 : j < 7 * (bs.length + 1)
        · have h6 : j - 7 * bs.length < 7 := by omega
          have h7 : (0x7F#8).getLsbD (j - 7 * bs.length) = true := by
            generalize j - 7 * bs.length = x at h6
            interval_cases x <;> rfl
          rw [if_pos h2, show bs.length + 1 - 1 - j / 7 = 0 by omega, show j % 7 = j - 7 * bs.length by omega,
            List.getD_cons_zero]
          simp [h6, h7, hw']
        · have h6 : ¬ j - 7 * bs.length < 7 := by omega
          have h7 : (0x7F#8).getLsbD (j - 7 * bs.length) = false := by
            by_cases h8 : j - 7 * bs.length < 8
            · rw [show j - 7 * bs.length = 7 by omega]
              rfl
            · exact BitVec.getLsbD_of_ge _ _ (by omega)
          have e : j - 7 * bs.length - 7 = j - 7 * (bs.length + 1) := by omega
          simp [h2, h6, h7, hw', e]
    · simp [hw]

/-- Joining the groups of a value gives the value, when they carry all its bits. -/
theorem joinGroups_groupBytes {w : Nat} (v : BitVec w) (k : Nat) (h : w ≤ 7 * k) : joinGroups w (groupBytes v k) = v := by
  apply BitVec.eq_of_getLsbD_eq
  intro j hj
  rw [joinGroups, foldl_groups_bit, groupBytes_length, groupBytes_bit v k _ (by omega) _ (by omega), if_pos (by omega),
    show 7 * (k - 1 - (k - 1 - j / 7)) + j % 7 = j by omega]
  simp [hj]

/-- Two VLQs of one length with the same data bits are the same bytes. -/
theorem isVlq_ext {a b : List Byte} (ha : isVlq a = true) (hb : isVlq b = true) (hl : a.length = b.length)
    (hd : ∀ j m, m < 7 → (a.getD j 0).getLsbD m = (b.getD j 0).getLsbD m) : a = b := by
  have byte : ∀ x y : Byte, x.msb = y.msb → (∀ m, m < 7 → x.getLsbD m = y.getLsbD m) → x = y := by
    intro x y h k
    apply BitVec.eq_of_getLsbD_eq
    intro i hi
    by_cases h7 : i = 7
    · subst h7
      simpa [BitVec.msb_eq_getLsbD_last] using h
    · exact k i (by omega)
  induction a generalizing b with
  | nil => simp [isVlq] at ha
  | cons x xs ih =>
    cases b with
    | nil => simp at hl
    | cons y ys =>
      have h0 : ∀ m, m < 7 → x.getLsbD m = y.getLsbD m := fun m hm => by simpa using hd 0 m hm
      cases xs with
      | nil =>
        obtain rfl : ys = [] := List.eq_nil_of_length_eq_zero (by simpa using hl.symm)
        simp only [isVlq, Bool.not_eq_true'] at ha hb
        rw [byte x y (ha.trans hb.symm) h0]
      | cons z zs =>
        cases ys with
        | nil => simp at hl
        | cons u us =>
          simp only [isVlq, Bool.and_eq_true] at ha hb
          rw [byte x y (ha.1.trans hb.1.symm) h0,
            ih ha.2 hb.2 (by simpa using hl) (fun j m hm => by simpa using hd (j + 1) m hm)]

/-- Writing the value a row was read as gives the row's bytes, when the row's unused bits are clear. -/
theorem groupBytes_joinGroups {w : Nat} (bs : List Byte) (k : Nat) (hk : 1 ≤ k) (hl : bs.length = k)
    (hv : isVlq bs = true) (hw : 7 * (k - 1) ≤ w)
    (htop : ∀ m, m < 7 → w ≤ 7 * (k - 1) + m → (bs.getD 0 0).getLsbD m = false) :
    groupBytes (joinGroups w bs) k = bs := by
  refine isVlq_ext (groupBytes_isVlq _ _ hk) hv (by rw [groupBytes_length, hl]) fun j m hm => ?_
  by_cases hj : j < k
  · rw [groupBytes_bit _ _ _ hj _ hm, joinGroups, foldl_groups_bit, hl, if_pos (by omega),
      show k - 1 - (7 * (k - 1 - j) + m) / 7 = j by omega, show (7 * (k - 1 - j) + m) % 7 = m by omega]
    by_cases hx : 7 * (k - 1 - j) + m < w
    · simp [hx]
    · obtain rfl : j = 0 := by omega
      simp only [hx, decide_false, Bool.false_and]
      exact (htop m hm (by omega)).symm
  · have := groupBytes_length (joinGroups w bs) k
    rw [List.getD_eq_default _ _ (by omega), List.getD_eq_default _ _ (by omega)]

/-! ### Each decoder, forward -/

theorem decodeFrame_frameBytes (mk : BitVec 4 → List Byte → Half → Instr) (n : BitVec 4) (payload rest : List Byte)
    (crc : Half) (h : payload.length ≤ 59) :
    decodeFrame mk (frameBytes (seqByte n) payload crc ++ rest) = .ok (mk n payload crc, rest) := by
  have e : (BitVec.ofNat 8 (payload.length + 5)).toNat = payload.length + 5 := by
    rw [BitVec.toNat_ofNat]
    omega
  simp only [frameBytes, List.cons_append, decodeFrame, e, messageMin, messageMax, List.append_assoc]
  rw [if_neg (by simp; omega), seqByte_tagOk]
  simp [halfOf_hi_lo, seqByte_number]

theorem decodeVlqRow_groupBytes {w : Nat} (v : BitVec w) (k : Nat) (rest : List Byte) (mk : List Byte → Instr)
    (hk : 1 ≤ k) : decodeVlqRow k mk (groupBytes v k ++ rest) = .ok (mk (groupBytes v k), rest) := by
  have hl := groupBytes_length v k
  unfold decodeVlqRow
  rw [List.take_left' hl, List.drop_left' hl, groupBytes_isVlq v k hk]
  simp [hl]

theorem decodeVlqArg_isVlq (mk : List Byte → Instr) (v rest : List Byte) (h : isVlq v = true) :
    decodeVlqArg mk (v ++ rest) = .ok (mk v, rest) := by
  simp [decodeVlqArg, splitVlq_isVlq rest h]

theorem decodePrefixed_lengthPrefixed (mk : List Byte → Instr) (d rest : List Byte) (h : d.length ≤ 255) :
    decodePrefixed mk (lengthPrefixed d ++ rest) = .ok (mk d, rest) := by
  have e : (BitVec.ofNat 8 d.length).toNat = d.length := by
    rw [BitVec.toNat_ofNat]
    omega
  simp [decodePrefixed, lengthPrefixed, -BitVec.toNat_ofNat, e]

/-! ### Each decoder, backward -/

theorem decodeByte_ok {e : DecodeError} {ok : Byte → Bool} {mk : Byte → Instr} {bs rest : List Byte} {i : Instr}
    (h : decodeByte e ok mk bs = .ok (i, rest)) : ∃ b, bs = b :: rest ∧ ok b = true ∧ i = mk b := by
  unfold decodeByte at h
  split at h
  · cases h
  · split at h
    · cases h
      exact ⟨_, rfl, by assumption, rfl⟩
    · cases h

theorem decodeFrame_ok {mk : BitVec 4 → List Byte → Half → Instr} {bs rest : List Byte} {i : Instr}
    (h : decodeFrame mk bs = .ok (i, rest)) :
    ∃ n p c, i = mk n p c ∧ p.length ≤ 59 ∧ frameBytes (seqByte n) p c ++ rest = bs := by
  unfold decodeFrame at h
  split at h
  · next l s r =>
    split at h
    · cases h
    · next h1 =>
      split at h
      · cases h
      · next h2 =>
        split at h
        · next hi lo sync after hd =>
          split at h
          · next h3 =>
            cases h
            simp only [Bool.not_eq_true, Bool.not_eq_false'] at h2
            simp only [beq_iff_eq] at h3
            simp only [messageMin, messageMax] at h1
            have h1' : 5 ≤ l.toNat ∧ l.toNat ≤ 64 := by simpa using h1
            have hlen : l.toNat - 5 ≤ r.length := by
              by_contra hx
              rw [List.drop_eq_nil_of_le (by omega)] at hd
              cases hd
            refine ⟨_, _, _, rfl, by rw [List.length_take]; omega, ?_⟩
            simp only [frameBytes, tagOk_seqByte s h2, hiByte_halfOf, loByte_halfOf, List.length_take,
              Nat.min_eq_left hlen]
            have : BitVec.ofNat 8 (l.toNat - 5 + 5) = l := by
              rw [Nat.sub_add_cancel h1'.1]
              simp
            rw [this, ← h3]
            simp only [List.cons_append, List.append_assoc, List.nil_append]
            rw [← hd, List.take_append_drop]
          · cases h
        · cases h
  · cases h

theorem decodeVlqRow_ok {w k : Nat} {bs rest : List Byte} {i : Instr} {mk : BitVec w → Instr} (hk : 1 ≤ k)
    (hw : w = 7 * k) (h : decodeVlqRow k (fun gs => mk (joinGroups w gs)) bs = .ok (i, rest)) :
    ∃ v, i = mk v ∧ groupBytes v k ++ rest = bs := by
  unfold decodeVlqRow at h
  split at h
  · cases h
  · split at h
    · cases h
      refine ⟨_, rfl, ?_⟩
      rw [groupBytes_joinGroups _ k hk (by simp; omega) (by assumption) (by omega) (fun m hm hx => by omega)]
      simp
    · cases h

theorem decodeVlqArg_ok {mk : List Byte → Instr} {bs rest : List Byte} {i : Instr}
    (h : decodeVlqArg mk bs = .ok (i, rest)) : ∃ v, i = mk v ∧ v ++ rest = bs := by
  unfold decodeVlqArg at h
  split at h
  · cases h
  · next hs =>
    cases h
    exact ⟨_, rfl, splitVlq_append hs⟩

theorem decodePrefixed_ok {mk : List Byte → Instr} {bs rest : List Byte} {i : Instr}
    (h : decodePrefixed mk bs = .ok (i, rest)) : ∃ d, i = mk d ∧ lengthPrefixed d ++ rest = bs := by
  unfold decodePrefixed at h
  split at h
  · cases h
  · split at h
    · cases h
    · next hl =>
      cases h
      refine ⟨_, rfl, ?_⟩
      simp only [lengthPrefixed, List.length_take, Nat.min_eq_left (Nat.le_of_not_lt hl), List.cons_append,
        List.take_append_drop]
      simp

end Sys2Proof
end

