-- ==== Sys2Proof/Laws/Encode.lean ====
section
/-! SUPPORT. The parameter loop of FRAME_TX, once: on arguments that fit it writes what `Encodes` says, and on one that
does not it raises; and one parameter that encodes is what `Encodes` says. -/

namespace Sys2Proof.Machine

theorem Memory.bytes_length (m : Memory) (a n : Nat) : (Memory.bytes m a n).length = n := by simp [Memory.bytes]

theorem Memory.bytes_succ (m : Memory) (a n : Nat) :
    Memory.bytes m a (n + 1) = Memory.get m a :: Memory.bytes m (a + 1) n := by
  simp only [Memory.bytes, List.range_succ_eq_map, List.map_cons, List.map_map, Nat.add_zero]
  congr 1
  refine List.map_congr_left fun i _ => ?_
  show Memory.get m (a + (i + 1)) = _
  rw [Nat.add_right_comm, Nat.add_assoc]

/-- Reading bytes, inside the space (R204). -/
theorem readBytes_eq {m : Memory} {n a : Nat} (h : a + n ≤ 2 ^ 32) : readBytes m n a = .ok (Memory.bytes m a n) := by
  induction n generalizing a with
  | zero => rfl
  | succ n ih =>
    have hr : m.read a = some (Memory.get m a) := if_pos (by unfold Memory.size; omega)
    rw [readBytes, hr, Memory.bytes_succ, ih (by omega)]

/-- Reading a string: `n` characters, then the NUL or no room (R203). -/
theorem readString_eq {m : Memory} {room n a : Nat} (hn : n ≤ room) (hs : a + min (n + 1) room ≤ 2 ^ 32)
    (chars : ∀ j, j < n → Memory.get m (a + j) ≠ 0) (ends : n = room ∨ Memory.get m (a + n) = 0) :
    readString m room a = .ok (Memory.bytes m a n) := by
  induction room generalizing n a with
  | zero =>
    obtain rfl : n = 0 := by omega
    rfl
  | succ room ih =>
    have hr : m.read a = some (Memory.get m a) := if_pos (by unfold Memory.size; omega)
    cases n with
    | zero =>
      have h0 : Memory.get m a = 0 := by simpa using ends
      rw [readString, hr]
      simp [h0, Memory.bytes]
    | succ n =>
      have h0 : Memory.get m a ≠ 0 := by simpa using chars 0 (by omega)
      have e := ih (n := n) (a := a + 1) (by omega) (by omega)
        (fun j hj => by
          have := chars (j + 1) (by omega)
          rwa [← Nat.add_assoc, Nat.add_right_comm] at this)
        (by
          obtain h | h := ends
          · exact .inl (by omega)
          · exact .inr (by rwa [← Nat.add_assoc, Nat.add_right_comm] at h))
      rw [readString, hr, Memory.bytes_succ]
      simp only [h0, if_false, e]

/-- FRAME_TX's loop on parameters that fit, up to the ones that follow: they read the words that are left, from the
cursor behind the bytes written (R163). -/
theorem encodeParams_then {d m : Memory} {cap : Nat} {ts : List ArgType} {p : Nat} {args left : List Word}
    {bs : List Byte} (h : Encodes d m cap ts p args bs left) (more : List ArgType) :
    encodeParams d m (ts ++ more) args p cap =
      match encodeParams d m more left (p + bs.length) cap with
      | .error e => .error e
      | .ok bs'  => .ok (bs ++ bs') := by
  have step : ∀ {t : ArgType} {ts : List ArgType} {p : Nat} {args args' left : List Word} {b bs : List Byte},
      encodeParam d m t args p cap = .ok (b, args') →
      (encodeParams d m (ts ++ more) args' (p + b.length) cap =
        match encodeParams d m more left (p + b.length + bs.length) cap with
        | .error e => .error e
        | .ok bs'  => .ok (bs ++ bs')) →
      encodeParams d m (t :: ts ++ more) args p cap =
        match encodeParams d m more left (p + (b ++ bs).length) cap with
        | .error e => .error e
        | .ok bs'  => .ok (b ++ bs ++ bs') := by
    intro t ts p args args' left b bs e k
    rw [List.cons_append, encodeParams, e, List.length_append, ← Nat.add_assoc]
    dsimp only
    rw [k]
    cases encodeParams d m more left (p + b.length + bs.length) cap <;> simp
  induction h with
  | done p left =>
    simp only [List.nil_append, List.length_nil, Nat.add_zero]
    cases encodeParams d m more left p cap <;> rfl
  | @full t ts p v args left bs type fits rest ih =>
    refine step (b := vlqEnc v) (args' := args) ?_ (by rw [vlqEnc_length]; exact ih)
    obtain rfl | rfl := type <;> simp [encodeParam, encodeFull, takeWord, encodeVlq, Nat.not_lt.mpr fits]
  | @short t ts p v w args left bs type masked fits rest ih =>
    refine step (b := vlqEnc w) (args' := args) ?_ (by rw [vlqEnc_length]; exact ih)
    subst masked
    obtain rfl | rfl | rfl := type <;>
      simp [encodeParam, encodeShort, takeWord, encodeVlq, mask16, Nat.not_lt.mpr fits]
  | @string ts p n a args left bs room fits space chars ends rest ih =>
    refine step (b := BitVec.ofNat 8 n :: Memory.bytes d a.toNat n) (args' := args) ?_ ?_
    · simp [encodeParam, encodeString, takeWord, readString_eq fits space chars ends, lengthPrefixed,
        Memory.bytes_length, show ¬ cap < p + 1 by omega]
    · rw [List.length_cons, Memory.bytes_length, Nat.add_comm n, ← Nat.add_assoc]
      exact ih
  | @buffer t s ts p k n a args left bs source short room clamped space rest ih =>
    refine step (b := BitVec.ofNat 8 k :: Memory.bytes s a.toNat k) (args' := args) ?_ ?_
    · obtain ⟨rfl, rfl⟩ | ⟨rfl, rfl⟩ := source <;>
        simp [encodeParam, encodeBuffer, takeWord, ← clamped, readBytes_eq space, lengthPrefixed, Memory.bytes_length,
          show ¬ cap < p + 1 by omega, show ¬ 255 < n.toNat by omega]
    · rw [List.length_cons, Memory.bytes_length, Nat.add_comm k, ← Nat.add_assoc]
      exact ih

/-- FRAME_TX's loop on parameters that fit (R163). -/
theorem encodeParams_encodes {d m : Memory} {cap : Nat} {ts : List ArgType} {p : Nat} {args left : List Word}
    {bs : List Byte} (h : Encodes d m cap ts p args bs left) : encodeParams d m ts args p cap = .ok bs := by
  simpa [encodeParams] using encodeParams_then h []

/-- A parameter that does not fit raises (R200, R206). -/
theorem encodeParam_noRoom {d m : Memory} {cap p : Nat} {t : ArgType} {args : List Word} (h : NoRoom cap t p args) :
    encodeParam d m t args p cap = .error (.shutdown .encodeError) := by
  cases h with
  | full type h => obtain rfl | rfl := type <;> simp [encodeParam, encodeFull, takeWord, encodeVlq, h]
  | short type h => obtain rfl | rfl | rfl := type <;> simp [encodeParam, encodeShort, takeWord, encodeVlq, mask16, h]
  | string h => simp [encodeParam, encodeString, takeWord, h]
  | buffer type short h =>
    obtain rfl | rfl := type <;> simp [encodeParam, encodeBuffer, takeWord, h, Nat.not_lt.mpr short]
  | unknown c p args => rfl

/-- FRAME_TX's loop up to a parameter that does not fit (R200, R209(i)). -/
theorem encodeParams_noRoom {d m : Memory} {cap : Nat} {ts more : List ArgType} {t : ArgType} {p : Nat}
    {args left : List Word} {bs : List Byte} (h : Encodes d m cap ts p args bs left)
    (no : NoRoom cap t (p + bs.length) left) :
    encodeParams d m (ts ++ t :: more) args p cap = .error (.shutdown .encodeError) := by
  rw [encodeParams_then h, encodeParams, encodeParam_noRoom no]

/-- Bytes that were read are inside the space (R204, log 10). -/
theorem readBytes_inv {m : Memory} {n a : Nat} {bs : List Byte} (h : readBytes m n a = .ok bs) (ha : a < 2 ^ 32) :
    a + n ≤ 2 ^ 32 ∧ bs = Memory.bytes m a n := by
  induction n generalizing a bs with
  | zero => cases h; exact ⟨by omega, rfl⟩
  | succ n ih =>
    rw [readBytes] at h
    by_cases hs : a + 1 < 2 ^ 32
    · have hr : m.read a = some (Memory.get m a) := if_pos (by unfold Memory.size; omega)
      rw [hr] at h
      dsimp only at h
      split at h
      · next e =>
        cases h
        have := ih e hs
        exact ⟨by omega, by rw [Memory.bytes_succ, this.2]⟩
      · cases h
    · have hr : m.read a = some (Memory.get m a) := if_pos (by unfold Memory.size; omega)
      rw [hr] at h
      dsimp only at h
      cases n with
      | zero => cases h; exact ⟨by omega, rfl⟩
      | succ n =>
        have : m.read (a+1) = none := if_neg (by unfold Memory.size; omega)
        rw [readBytes, this] at h
        cases h

/-- A string that was read ends at its NUL or at the room, and all of it is inside the space (R203). -/
theorem readString_inv {m : Memory} {room a : Nat} {bs : List Byte} (h : readString m room a = .ok bs) (ha : a < 2 ^ 32) :
    bs = Memory.bytes m a bs.length ∧ bs.length ≤ room ∧ a + min (bs.length + 1) room ≤ 2 ^ 32
      ∧ (∀ j, j < bs.length → Memory.get m (a + j) ≠ 0) ∧ (bs.length = room ∨ Memory.get m (a + bs.length) = 0) := by
  induction room generalizing a bs with
  | zero => cases h; exact ⟨rfl, by simp, by simp; omega, by simp, by simp⟩
  | succ room ih =>
    have hr : m.read a = some (Memory.get m a) := if_pos (by unfold Memory.size; omega)
    rw [readString, hr] at h
    dsimp only at h
    split_ifs at h with h0
    · cases h; exact ⟨rfl, by simp, by simp; omega, by simp, by simp [h0]⟩
    · split at h
      · next bs' e =>
        cases h
        by_cases hs : a + 1 < 2 ^ 32
        · obtain ⟨h1, h2, h3, h4, h5⟩ := ih e hs
          refine ⟨by rw [List.length_cons, Memory.bytes_succ, ← h1], by simpa using h2, by simp; omega, ?_, ?_⟩
          · intro j hj
            cases j with
            | zero => simpa using h0
            | succ j =>
              have := h4 j (by simpa using hj)
              rwa [Nat.add_right_comm, Nat.add_assoc] at this
          · obtain h | h := h5
            · exact .inl (by simp [h])
            · exact .inr (by rwa [List.length_cons, ← Nat.add_assoc, Nat.add_right_comm])
        · cases room with
          | zero => cases e; exact ⟨rfl, by simp, by simp; omega, by simpa using h0, by simp⟩
          | succ room =>
            have : m.read (a+1) = none := if_neg (by unfold Memory.size; omega)
            rw [readString, this] at e
            cases e
      · cases h

/-- A parameter that encodes is what `Encodes` says, the words it leaves included (R207). -/
theorem encodeParam_encodes {d m : Memory} {t : ArgType} {args ws : List Word} {p cap : Nat}
    {bs : List Byte} (h : encodeParam d m t args p cap = .ok (bs, ws)) : Encodes d m cap [t] p args bs ws := by
  have full : ∀ t, t = .uint32 ∨ t = .int32 → encodeFull args p cap = .ok (bs, ws) →
      Encodes d m cap [t] p args bs ws := by
    intro t ht h
    cases args with
    | nil => cases h
    | cons v r =>
      simp only [encodeFull, takeWord, encodeVlq] at h
      split_ifs at h with hc
      cases h
      simpa using Encodes.full (bs := []) ht (Nat.not_lt.mp hc) (.done _ _)
  have short : ∀ t, t = .uint16 ∨ t = .int16 ∨ t = .byte → encodeShort args p cap = .ok (bs, ws) →
      Encodes d m cap [t] p args bs ws := by
    intro t ht h
    cases args with
    | nil => cases h
    | cons v r =>
      simp only [encodeShort, takeWord, encodeVlq] at h
      split_ifs at h with hc
      cases h
      simpa using Encodes.short (bs := []) (w := mask16 v) ht rfl (Nat.not_lt.mp hc) (.done _ _)
  have buffer : ∀ t s, (t = .buffer ∧ s = d ∨ t = .progmemBuffer ∧ s = m) → encodeBuffer s args p cap = .ok (bs, ws) →
      Encodes d m cap [t] p args bs ws := by
    intro t s ht h
    match args, h with
    | [], h => cases h
    | [_], h => cases h
    | n :: a :: r, h =>
      simp only [encodeBuffer, takeWord] at h
      split_ifs at h with h1 h2
      split at h
      · cases h
      · next b e =>
        cases h
        obtain ⟨k1, rfl⟩ := readBytes_inv e a.isLt
        rw [lengthPrefixed, Memory.bytes_length]
        simpa using Encodes.buffer (bs := []) ht (Nat.not_lt.mp h1) (by omega) rfl k1 (.done _ _)
  cases t with
  | uint32 => exact full _ (.inl rfl) h
  | int32 => exact full _ (.inr rfl) h
  | uint16 => exact short _ (.inl rfl) h
  | int16 => exact short _ (.inr (.inl rfl)) h
  | byte => exact short _ (.inr (.inr rfl)) h
  | buffer => exact buffer _ _ (.inl ⟨rfl, rfl⟩) h
  | progmemBuffer => exact buffer _ _ (.inr ⟨rfl, rfl⟩) h
  | unknown c => cases h
  | string =>
    cases args with
    | nil => cases h
    | cons a r =>
      simp only [encodeParam, encodeString, takeWord] at h
      split_ifs at h with h1
      split at h
      · cases h
      · next b e =>
        cases h
        obtain ⟨k1, k2, k3, k4, k5⟩ := readString_inv e a.isLt
        rw [lengthPrefixed]
        have := Encodes.string (progmem := m) (bs := []) (p := p) (n := b.length) (args := ws) (left := ws)
          (by omega) k2 k3 k4 k5 (.done _ _)
        rw [List.append_nil, ← k1] at this
        exact this

/-- FRAME_TX of parameters that encode offers one frame to the transport (R161 to R168). -/
theorem State.frameTx_encodes {s : State} {id : Nat} {e : Encoder} {args : List Word} {bs : List Byte}
    (he : s.config.schema.commandEncoders[id]? = some e) (hm : 1 ≤ e.maxSize)
    (h : encodeParams s.data s.progmem e.paramTypes args 3 (2 + e.maxSize) = .ok bs) :
    s.frameTx id args =
      .ok () (State.offer (e.maxSize + 5) (buildFrame s.config.crc (e.msgId :: bs) s.nextSeq) s) := by
  rw [State.frameTx, he]
  unfold State.offer
  cases hg : s.granted (e.maxSize + 5) with
  | false =>
    dsimp only
    rw [if_neg (by simp [hg]), if_neg (by simp), State.outReserve_refused hg]
    rfl
  | true =>
    dsimp only
    rw [if_pos hg, if_pos rfl, State.outReserve_granted hg, State.frameTxGranted, if_neg (by omega)]
    dsimp only [State.useGrant_data, State.useGrant_progmem]
    rw [h]
    dsimp only
    rw [State.sendFrame_reserved (r := List.replicate (e.maxSize + 5) 0) rfl]
    rfl

end Sys2Proof.Machine
end

