-- ==== Sys2Proof/Laws/Fetch.lean ====
section
/-! SUPPORT. Presented bytes: the reader of a form does with the bytes of a decoded instruction what the instruction
means, so a step on presented bytes is that reader, decoded or not. -/

namespace Sys2Proof.Machine

/-- The reader of a form, on the bytes of an instruction of that form, is the instruction's meaning. -/
theorem State.readForm_encode {i : Instr} {f : Form} (h : i.form? = some f) (s : State) :
    s.readForm f (encode i) = exec i s := by
  cases i <;> simp only [Instr.form?, Option.some.injEq, reduceCtorEq] at h <;> subst h <;> rfl

/-- A move that presents bytes is that form's reader on them, decoded or not. That the decoder drops no bit is the
hypothesis `back` (EncodeDecodeAgree). -/
theorem step_present (back : ∀ {f : Form} {bs : List Byte} {i : Instr}, decodeAs f bs = .ok (i, []) →
    encode i = bs ∧ i.form? = some f) {s : State} {f : Form} {bs : List Byte} {rest : List Move}
    (w : s.config.wf = true) (h : s.agenda = .present f bs :: rest) :
    step s = State.readForm f bs { s with agenda := rest } := by
  unfold step State.fetch
  simp only [w, h, Bool.not_true, State.takeMove, Bool.false_eq_true, if_false]
  cases hd : decodeAs f bs with
  | error e => rfl
  | ok r =>
    obtain ⟨i, left⟩ := r
    cases left with
    | cons b left => rfl
    | nil =>
      obtain ⟨rfl, hf⟩ := back hd
      exact (State.readForm_encode hf _).symm

end Sys2Proof.Machine
end

