-- ==== Sys2Proof/Laws/Handlers.lean ====
section
/-! SUPPORT. What a handler's run does, once, and what the loop does on commands whose handlers run: `HandlerRan` and
`Served` are what the machine computes. -/

namespace Sys2Proof.Machine

/-- The pointer words `live` name bytes of the view (R27). -/
def PointsInto (view : List Byte) (live : List (Nat × List Byte)) : Prop :=
  ∀ q d, (q, d) ∈ live → (view.drop q).take d.length = d

theorem PointsInto.nil (view : List Byte) : PointsInto view [] := fun _ _ h => absurd h List.not_mem_nil

theorem PointsInto.append {view : List Byte} {live inline : List (Nat × List Byte)} (h : PointsInto view live)
    (k : PointsInto view inline) : PointsInto view (live ++ inline) := fun q d m =>
  (List.mem_append.mp m).elim (h q d) (k q d)

/-- A window's bytes stand in the view. -/
theorem take_of_window {view d rest : List Byte} {q stop : Nat} (h : window view q stop = d ++ rest) :
    (view.drop q).take d.length = d := by
  have hl := congrArg List.length h
  simp only [window, List.length_drop, List.length_take, List.length_append] at hl
  have e : (window view q stop).take d.length = d := by rw [h, List.take_left]
  rw [window, List.drop_take, List.take_take] at e
  rwa [Nat.min_eq_left (by omega)] at e

/-- The pointer words of arguments that parse name bytes of the view (R184). -/
theorem Parses.pointsInto {ts : List ArgType} {p stop : Nat} {bs after view : List Byte} {args : List Word}
    {inline : List (Nat × List Byte)} (h : Parses ts p bs args inline) (hw : window view p stop = bs ++ after) :
    PointsInto view inline := by
  induction h with
  | done p => exact PointsInto.nil view
  | @integer t ts p v bs args inline hint hv rest ih =>
    exact ih (window_add (by rw [hw, List.append_assoc]))
  | @buffer ts p d bs args inline hlen rest ih =>
    have hd : window view (p + 1) stop = d ++ (bs ++ after) := by
      simpa using window_add (bs := [BitVec.ofNat 8 d.length]) (rest := d ++ bs ++ after) hw
    have := ih (window_add hd)
    intro q b m
    obtain e | m := List.mem_cons.mp m
    · cases e
      exact take_of_window hd
    · exact this q b m

/-- A send of a handler is the call of FRAME_TX, its result left as it was. -/
theorem State.frameTx_of_exec {s u : State} {id : Nat} {args : List Word} (h : exec (.frameTx id args) s = .next u)
    (hr : u.result = .none) :
    ∃ v, s.frameTx id args = .ok () v ∧ v.result = s.result ∧ u = { v with result := .none } := by
  change (s.frameTx id args).outcome _ = _ at h
  have keep := s.frameTx_post id args
  cases e : s.frameTx id args with
  | ok a v =>
    rw [e] at h keep
    cases h
    exact ⟨v, rfl, keep.result, rfl⟩
  | ended r v =>
    rw [e] at h
    cases h
    cases hr
  | fault f => rw [e] at h; cases h
  | refused r => rw [e] at h; cases h

/-- A send that a shutdown ends (R246). -/
theorem State.frameTx_of_exec_shutdown {s u : State} {id : Nat} {args : List Word} {r : Reason}
    (h : exec (.frameTx id args) s = .next u) (hr : u.result = .shutdown r) :
    ∃ v, s.frameTx id args = .ended r v ∧ u = v.answer (.shutdown r) := by
  change (s.frameTx id args).outcome _ = _ at h
  cases e : s.frameTx id args with
  | ok a v =>
    rw [e] at h
    cases h
    cases hr
  | ended k v =>
    rw [e] at h
    cases h
    cases hr
    exact ⟨v, rfl, rfl⟩
  | fault f => rw [e] at h; cases h
  | refused r => rw [e] at h; cases h

/-- A handler's read of live bytes (R225). -/
theorem inlineCovers_of_mem {live : List (Nat × List Byte)} {q src n : Nat} {d : List Byte} (h : (q, d) ∈ live)
    (low : q ≤ src) (high : src + n ≤ q + d.length) : inlineCovers live src n = true :=
  List.any_eq_true.mpr ⟨(q, d), h, by simp [low, high]⟩

theorem take_of_pointer {view d : List Byte} {q src n : Nat} (h : (view.drop q).take d.length = d) (low : q ≤ src)
    (high : src + n ≤ q + d.length) : (view.drop src).take n = (d.drop (src - q)).take n := by
  rw [← h, List.drop_take, List.drop_drop, List.take_take, show q + (src - q) = src by omega,
    Nat.min_eq_left (by omega)]

/-- What a handler does before its further actions (R225). -/
theorem State.runHandler_then {live : List (Nat × List Byte)} {acts : List HandlerAction} {s t : State}
    (h : HandlerRan live acts s t) {view : List Byte} (hv : PointsInto view live) (more : List HandlerAction) :
    State.runHandler view live (acts ++ more) s = State.runHandler view live more t := by
  induction h with
  | done s => rfl
  | send sent returned rest ih =>
    obtain ⟨v, e, hr, rfl⟩ := State.frameTx_of_exec sent returned
    rw [List.cons_append, State.runHandler, e]
    simpa [← hr] using ih
  | store wrote rest ih =>
    rw [List.cons_append, State.runHandler, State.storeData, wrote]
    exact ih
  | copyIn pointer low high wrote rest ih =>
    rw [List.cons_append, State.runHandler, if_pos (inlineCovers_of_mem pointer low high),
      take_of_pointer (hv _ _ pointer) low high, State.storeData, wrote]
    exact ih

/-- A handler's whole run. -/
theorem State.runHandler_ran {live : List (Nat × List Byte)} {acts : List HandlerAction} {s t : State}
    (h : HandlerRan live acts s t) {view : List Byte} (hv : PointsInto view live) :
    State.runHandler view live acts s = .ok () t := by
  simpa [State.runHandler] using State.runHandler_then h hv []

/-- What a handler's run leaves as it was. -/
theorem HandlerRan.handled {live : List (Nat × List Byte)} {acts : List HandlerAction} {s t : State}
    (h : HandlerRan live acts s t) : s.Handled t := by
  induction h with
  | done s => exact State.Handled.rfl' s
  | @send id args acts s u t sent returned rest ih =>
    obtain ⟨v, e, hr, rfl⟩ := State.frameTx_of_exec sent returned
    have keep := s.frameTx_post id args
    rw [e] at keep
    have hv : ({ ({ v with result := .none } : State) with result := s.result } : State) = v := by rw [← hr]
    rw [hv] at ih
    exact keep.toHandled.trans ih
  | @store a bs acts m s t wrote rest ih =>
    exact (State.storeData_handled (a := a) (bs := bs) (by rw [State.storeData, wrote])).trans ih
  | @copyIn a q src n d acts m s t pointer low high wrote rest ih =>
    exact (State.storeData_handled (a := a) (by rw [State.storeData, wrote])).trans ih

/-- A dispatch under a script is the event, then the scripted run (R225). -/
theorem State.dispatch_scripted {s : State} {view : List Byte} {live : List (Nat × List Byte)} {id : Byte} {r : Parsed}
    {acts : List HandlerAction} {hs : List (List HandlerAction)} (h : s.handlerRuns = acts :: hs) :
    s.dispatch view live id r = State.runHandler view (live ++ r.inline) acts
      (s.dispatched [.dispatch id r.args (r.inline.map Prod.snd)] hs) := by
  simp [State.dispatch, State.handlerOf, h, State.useHandler, State.emit, State.dispatched]

/-- A turn of the loop on a command whose handler runs. -/
theorem State.commandTurn_ran {s u : State} {view bs after : List Byte} {live : List (Nat × List Byte)}
    {p stop : Nat} {id : Byte} {parser : Parser} {args : List Word} {inline : List (Nat × List Byte)}
    {acts : List HandlerAction} {hs : List (List HandlerAction)} (hid : byteAt view p = id)
    (known : Schema.parserOf s.config.schema id = some parser) (allowed : s.shutdown = true → parser.inShutdown = true)
    (hw : window view (p + 1) stop = bs ++ after) (parsed : Parses parser.paramTypes (p + 1) bs args inline)
    (hv : PointsInto view live) (hh : s.handlerRuns = acts :: hs)
    (ran : HandlerRan (live ++ inline) acts (s.dispatched [.dispatch id args (inline.map Prod.snd)] hs) u) :
    s.commandTurn view live p stop =
      .ok (some { cursor := p + 1 + bs.length, args := args, inline := inline }) u := by
  rw [State.commandTurn_parses hid known allowed hw parsed, State.dispatch_scripted hh,
    State.runHandler_ran ran (hv.append (parsed.pointsInto hw))]

/-- A turn of the loop on a command whose handler a shutdown ends (R246). -/
theorem State.commandTurn_handlerEnded {s u t : State} {view bs after : List Byte} {live : List (Nat × List Byte)}
    {p stop : Nat} {id : Byte} {parser : Parser} {args : List Word} {inline : List (Nat × List Byte)} {r : Reason}
    {acts more : List HandlerAction} {hs : List (List HandlerAction)} (hid : byteAt view p = id)
    (known : Schema.parserOf s.config.schema id = some parser) (allowed : s.shutdown = true → parser.inShutdown = true)
    (hw : window view (p + 1) stop = bs ++ after) (parsed : Parses parser.paramTypes (p + 1) bs args inline)
    (hv : PointsInto view live) (hh : s.handlerRuns = (acts ++ more) :: hs)
    (ran : HandlerRan (live ++ inline) acts (s.dispatched [.dispatch id args (inline.map Prod.snd)] hs) u)
    (ends : State.runHandler view (live ++ inline) more u = .ended r t) :
    s.commandTurn view live p stop = .ended r t := by
  rw [State.commandTurn_parses hid known allowed hw parsed, State.dispatch_scripted hh,
    State.runHandler_then ran (hv.append (parsed.pointsInto hw)), ends]

/-- What serving commands leaves as it was. -/
theorem Served.handled {p : Nat} {payload : List Byte} {live live' : List (Nat × List Byte)} {s t : State}
    (h : Served p payload live s live' t) : s.Handled t := by
  induction h with
  | done p live s => exact State.Handled.rfl' s
  | @command p id parser bs rest args inline live live' acts hs s u t known allowed parsed scripted ran next ih =>
    have e : s.Handled (s.dispatched [.dispatch id args (inline.map Prod.snd)] hs) :=
      ⟨rfl, rfl, rfl, rfl, rfl, rfl, rfl, rfl, fun h => h, fun h => h, [.dispatch id args (inline.map Prod.snd)], rfl,
        by simp [committed, State.dispatched], by simp [State.Allows]⟩
    exact (e.trans ran.handled).trans ih

/-- The loop on commands whose handlers run: it goes on behind them (R222, R229). -/
theorem State.commandLoop_served {p : Nat} {payload : List Byte} {live live' : List (Nat × List Byte)} {s t : State}
    (h : Served p payload live s live' t) {view rest : List Byte} {stop : Nat} (hv : PointsInto view live)
    (hw : window view p stop = payload ++ rest) (hl : p + payload.length ≤ stop) :
    PointsInto view live' ∧ ∃ turns, turns ≤ payload.length ∧
      ∀ fuel, State.commandLoop view stop (fuel + turns) p live s =
        State.commandLoop view stop fuel (p + payload.length) live' t := by
  induction h with
  | done p live s => exact ⟨hv, 0, by simp, fun fuel => rfl⟩
  | @command p id parser bs more args inline live live' acts hs s u t known allowed parsed scripted ran next ih =>
    simp only [List.length_cons, List.length_append] at hl ⊢
    have hw1 : window view (p + 1) stop = bs ++ (more ++ rest) := by
      simpa using window_add (bs := [id]) (rest := bs ++ more ++ rest) hw
    have turn := State.commandTurn_ran (stop := stop) (byteAt_of_window (b := id) (bs := bs ++ more ++ rest) hw) known
      allowed hw1 parsed hv scripted ran
    obtain ⟨hv', turns, ht, e⟩ := ih (hv.append (parsed.pointsInto hw1)) (window_add hw1) (by omega)
    refine ⟨hv', turns + 1, by omega, fun fuel => ?_⟩
    rw [← Nat.add_assoc, State.commandLoop, if_pos (by omega), turn]
    dsimp only
    rw [e]
    congr 1
    omega

/-- POLL of an accepted frame whose payload begins with commands whose handlers run: the loop goes on behind them, with
turns to spare for every byte that is left, and then the frame is popped (R222 to R227). -/
theorem State.commandLoop_frame_served {s t : State} {k : CrcKind} {before rest after : List Byte} {seq : Byte}
    {live : List (Nat × List Byte)} (hl : (before ++ rest).length ≤ 59)
    (hin : s.input = buildFrame k (before ++ rest) seq ++ after) (h : Served 2 before [] s.accepted live t) :
    PointsInto s.input live ∧ ∃ fuel, rest.length ≤ fuel ∧
      State.commandLoop s.input ((before ++ rest).length + 2) (before ++ rest).length 2 [] s.accepted =
        State.commandLoop s.input ((before ++ rest).length + 2) fuel (2 + before.length) live t := by
  obtain ⟨-, -, hw, -⟩ := buildFrame_view hin hl
  obtain ⟨hv, turns, ht, e⟩ := State.commandLoop_served (stop := (before ++ rest).length + 2) h (PointsInto.nil s.input)
    hw (by simp only [List.length_append]; omega)
  have hlen : (before ++ rest).length = before.length + rest.length := List.length_append
  refine ⟨hv, (before ++ rest).length - turns, by omega, ?_⟩
  rw [← e]
  congr 1
  omega

end Sys2Proof.Machine
end

