-- ==== Sys2Proof/Laws/PerInstr.lean ====
section
/-! SUPPORT. One statement about every instruction as syntax, and its lemma for each constructor: how many bytes the
instruction takes on the wire (30_encoding.md R70 to R83, R88). -/

namespace Sys2Proof.Laws

open Sys2Proof.Machine

/-- The fewest and the most bytes of a wire form; a VLQ argument has no longest form (R112). -/
def wireLengths : Form → Nat × Option Nat
  | .frame            => (5, some 64)
  | .frameLen         => (1, some 1)
  | .frameSeq         => (1, some 1)
  | .frameCrc         => (2, some 2)
  | .frameSync        => (1, some 1)
  | .ackNakFrame      => (5, some 5)
  | .command          => (1, some 59)
  | .vlqLastByte      => (1, some 1)
  | .vlqContByte      => (1, some 1)
  | .vlqSign          => (1, some 1)
  | .vlq1             => (1, some 1)
  | .vlq2             => (2, some 2)
  | .vlq3             => (3, some 3)
  | .vlq4             => (4, some 4)
  | .vlq5             => (5, some 5)
  | .argUint32        => (1, none)
  | .argInt32         => (1, none)
  | .argUint16        => (1, none)
  | .argInt16         => (1, none)
  | .argByte          => (1, none)
  | .argBuffer        => (1, some 256)
  | .argString        => (1, some 256)
  | .argProgmemBuffer => (1, some 256)

/-- A well-formed wire form has a length its form allows; an operation has no bytes. -/
def EncodedLength.Statement (i : Instr) : Prop :=
  match i.form? with
  | none   => encode i = []
  | some f => i.wf = true → (wireLengths f).1 ≤ (encode i).length ∧ ∀ m, (wireLengths f).2 = some m → (encode i).length ≤ m

/-- A form whose length is fixed. -/
theorem EncodedLength.of_fixed {i : Instr} {f : Form} {n : Nat} (hf : i.form? = some f) (hw : wireLengths f = (n, some n))
    (hl : (encode i).length = n) : EncodedLength.Statement i := by
  simp [EncodedLength.Statement, hf, hw, hl]

/-- A VLQ has at least one byte. -/
theorem isVlq_length {v : List Byte} (h : isVlq v = true) : 1 ≤ v.length := by
  cases v with
  | nil => simp [isVlq] at h
  | cons b v => simp

/-- An argument form that is one VLQ. -/
theorem EncodedLength.of_vlqArg {i : Instr} {f : Form} {v : List Byte} (hf : i.form? = some f)
    (hw : wireLengths f = (1, none)) (he : encode i = v) (hv : i.wf = isVlq v) : EncodedLength.Statement i := by
  simp only [EncodedLength.Statement, hf, hw, he, hv]
  exact fun h => ⟨isVlq_length h, fun m e => by cases e⟩

/-- An argument form with a length byte. -/
theorem EncodedLength.of_prefixed {i : Instr} {f : Form} {d : List Byte} (hf : i.form? = some f)
    (hw : wireLengths f = (1, some 256)) (he : encode i = lengthPrefixed d) (hd : i.wf = true → d.length ≤ 255) :
    EncodedLength.Statement i := by
  simp only [EncodedLength.Statement, hf, hw, he, lengthPrefixed, List.length_cons, Option.some.injEq]
  intro h
  have := hd h
  exact ⟨by omega, fun m e => by omega⟩

/-! ### One lemma per constructor -/

theorem EncodedLength.crc16 (b : List Byte) : EncodedLength.Statement (.crc16 b) := rfl
theorem EncodedLength.vlqEnc (v : Word) (p : Option Nat) : EncodedLength.Statement (.vlqEnc v p) := rfl
theorem EncodedLength.vlqDec (b : List Byte) (p : Nat) (e : Option Nat) : EncodedLength.Statement (.vlqDec b p e) := rfl
theorem EncodedLength.frameRx : EncodedLength.Statement .frameRx := rfl
theorem EncodedLength.ackNak : EncodedLength.Statement .ackNak := rfl
theorem EncodedLength.frameTx (e : Nat) (a : List Word) : EncodedLength.Statement (.frameTx e a) := rfl
theorem EncodedLength.parse (p e : Nat) (r : Parser) : EncodedLength.Statement (.parse p e r) := rfl
theorem EncodedLength.encodeArg (t : ArgType) (a : List Word) (p c : Nat) : EncodedLength.Statement (.encodeArg t a p c) := rfl
theorem EncodedLength.poll : EncodedLength.Statement .poll := rfl
theorem EncodedLength.frame (n : BitVec 4) (payload : List Byte) (crc : Half) :
    EncodedLength.Statement (.frame n payload crc) := by
  have hl : (encode (.frame n payload crc)).length = payload.length + 5 := by
    simp [encode, frameBytes]
  intro h
  have hp : payload.length ≤ 59 := by simpa [Instr.wf] using h
  rw [hl]
  refine ⟨by simp [wireLengths], fun m e => ?_⟩
  cases e
  omega
theorem EncodedLength.frameLen (l : Byte) : EncodedLength.Statement (.frameLen l) :=
  EncodedLength.of_fixed rfl rfl rfl
theorem EncodedLength.frameSeq (n : BitVec 4) : EncodedLength.Statement (.frameSeq n) :=
  EncodedLength.of_fixed rfl rfl rfl
theorem EncodedLength.frameCrc (c : Half) : EncodedLength.Statement (.frameCrc c) :=
  EncodedLength.of_fixed rfl rfl rfl
theorem EncodedLength.frameSync : EncodedLength.Statement .frameSync :=
  EncodedLength.of_fixed rfl rfl rfl
theorem EncodedLength.ackNakFrame (n : BitVec 4) (c : Half) : EncodedLength.Statement (.ackNakFrame n c) :=
  EncodedLength.of_fixed rfl rfl rfl
theorem EncodedLength.command (id : Byte) (args : List Byte) : EncodedLength.Statement (.command id args) := by
  intro h
  have hp : args.length ≤ 58 := by simpa [Instr.wf] using h
  refine ⟨by simp [wireLengths, encode], fun m e => ?_⟩
  cases e
  simp only [encode, List.length_cons]
  omega
theorem EncodedLength.vlqLastByte (d : BitVec 7) : EncodedLength.Statement (.vlqLastByte d) :=
  EncodedLength.of_fixed rfl rfl rfl
theorem EncodedLength.vlqContByte (d : BitVec 7) : EncodedLength.Statement (.vlqContByte d) :=
  EncodedLength.of_fixed rfl rfl rfl
theorem EncodedLength.vlqSign (m : Bool) (d : BitVec 5) : EncodedLength.Statement (.vlqSign m d) :=
  EncodedLength.of_fixed rfl rfl rfl
theorem EncodedLength.vlq1 (v : BitVec 7) : EncodedLength.Statement (.vlq1 v) :=
  EncodedLength.of_fixed rfl rfl (groupBytes_length _ _)
theorem EncodedLength.vlq2 (v : BitVec 14) : EncodedLength.Statement (.vlq2 v) :=
  EncodedLength.of_fixed rfl rfl (groupBytes_length _ _)
theorem EncodedLength.vlq3 (v : BitVec 21) : EncodedLength.Statement (.vlq3 v) :=
  EncodedLength.of_fixed rfl rfl (groupBytes_length _ _)
theorem EncodedLength.vlq4 (v : BitVec 28) : EncodedLength.Statement (.vlq4 v) :=
  EncodedLength.of_fixed rfl rfl (groupBytes_length _ _)
theorem EncodedLength.vlq5 (v : BitVec 32) : EncodedLength.Statement (.vlq5 v) :=
  EncodedLength.of_fixed rfl rfl (groupBytes_length _ _)
theorem EncodedLength.argUint32 (v : List Byte) : EncodedLength.Statement (.argUint32 v) :=
  EncodedLength.of_vlqArg rfl rfl rfl rfl
theorem EncodedLength.argInt32 (v : List Byte) : EncodedLength.Statement (.argInt32 v) :=
  EncodedLength.of_vlqArg rfl rfl rfl rfl
theorem EncodedLength.argUint16 (v : List Byte) : EncodedLength.Statement (.argUint16 v) :=
  EncodedLength.of_vlqArg rfl rfl rfl rfl
theorem EncodedLength.argInt16 (v : List Byte) : EncodedLength.Statement (.argInt16 v) :=
  EncodedLength.of_vlqArg rfl rfl rfl rfl
theorem EncodedLength.argByte (v : List Byte) : EncodedLength.Statement (.argByte v) :=
  EncodedLength.of_vlqArg rfl rfl rfl rfl
theorem EncodedLength.argBuffer (d : List Byte) : EncodedLength.Statement (.argBuffer d) :=
  EncodedLength.of_prefixed rfl rfl rfl (by simp [Instr.wf])
theorem EncodedLength.argString (d : List Byte) : EncodedLength.Statement (.argString d) :=
  EncodedLength.of_prefixed rfl rfl rfl fun h => by simp_all [Instr.wf]
theorem EncodedLength.argProgmemBuffer (d : List Byte) : EncodedLength.Statement (.argProgmemBuffer d) :=
  EncodedLength.of_prefixed rfl rfl rfl (by simp [Instr.wf])

end Sys2Proof.Laws
end

