-- ==== Sys2Proof/Tests/Slice0.lean ====
section
/-! SUPPORT. The model's own tests, each one step on a small state, with results from the spec's rules and its vectors
(95_test_vectors.md); an ill-formed term for every well-formedness check; words written out from the spec's encodings;
and, for every statement with hypotheses, a state and operands that meet them together. -/

namespace Sys2Proof.Tests

open Sys2Proof.Machine

/-! ### Small states -/

/-- The test schema, a transport that grants the next three reservations, handlers that do nothing. -/
def base : State := { State.reset with grants := [true, true, true], handlerRuns := [[], [], []] }

/-- The same with bytes received. -/
def fed (bs : List Byte) : State := { base with input := bs }

/-- The same in shutdown with the reason id of the spec's examples. -/
def down (bs : List Byte) : State := { fed bs with shutdown := true, shutdownReason := 0x0123 }

/-- The same with an open reservation of `n` bytes and the string "hello" at address 16 of both memories. -/
def open_ (n : Nat) : State :=
  { base with
    reservation := some (List.replicate n 0)
    data := [(16, 0x68), (17, 0x65), (18, 0x6C), (19, 0x6C), (20, 0x6F)]
    progmem := [(16, 0x68), (17, 0x65), (18, 0x6C), (19, 0x6C), (20, 0x6F)] }

/-- The next state, if there is one. -/
def stateOf : Host.Outcome State Fault Refusal → Option State
  | .next s    => some s
  | .fault _   => none
  | .refused _ => none

/-- The refusal, if there is one. -/
def refusalOf : Host.Outcome State Fault Refusal → Option Refusal
  | .next _    => none
  | .fault _   => none
  | .refused r => some r

/-- The fault, if there is one. -/
def faultOf : Host.Outcome State Fault Refusal → Option Fault
  | .next _    => none
  | .fault f   => some f
  | .refused _ => none

/-- The result an instruction leaves. -/
def resultOf (i : Instr) (s : State) : Option Result := (stateOf (exec i s)).map State.result

/-- The events an instruction adds to an empty trace. -/
def eventsOf (i : Instr) (s : State) : Option (List Event) := (stateOf (exec i s)).map State.trace

/-- The three registers after an instruction. -/
def regsOf (i : Instr) (s : State) : Option (Byte × Bool × Bool) :=
  (stateOf (exec i s)).map fun t => (t.nextSeq, t.needSync, t.needValid)

/-- The input left by an instruction. -/
def leftOf (i : Instr) (s : State) : Option (List Byte) := (stateOf (exec i s)).map State.input

/-- What the decoder answers, or nothing. -/
def decoded (f : Form) (bs : List Byte) : Option (Instr × List Byte) :=
  match decodeAs f bs with
  | .ok r    => some r
  | .error _ => none

/-- Why the decoder rejects bytes, or nothing. -/
def rejected (f : Form) (bs : List Byte) : Option DecodeError :=
  match decodeAs f bs with
  | .ok _    => none
  | .error e => some e

/-! ### Well-formedness: an ill-formed term for each check -/

/-- A schema made of one parser and one encoder beside the reply's. -/
def schemaOf (p : Parser) (e : Encoder) : Schema where
  commandIndex := [some p]
  commandEncoders := [e, { msgId := 3, paramTypes := [.uint16], maxSize := 4 }]
  encIsShutdown := 1

def goodParser : Parser := { paramTypes := [.byte, .buffer], numArgs := 3, handler := some 0, inShutdown := false }
def goodEncoder : Encoder := { msgId := 9, paramTypes := [.uint32], maxSize := 59 }

theorem test_schema_good : (schemaOf goodParser goodEncoder).wf = true := by decide
theorem test_schema_test : Schema.test.wf = true := by decide
theorem test_schema_encode_only_parser_is_good :
    (schemaOf { goodParser with paramTypes := [.string], numArgs := 0 } goodEncoder).wf = true := by decide
set_option maxRecDepth 100000 in
theorem test_schema_a_too_many_ids :
    { schemaOf goodParser goodEncoder with commandIndex := List.replicate 257 none }.wf = false := by decide
theorem test_schema_c_num_args : (schemaOf { goodParser with numArgs := 2 } goodEncoder).wf = false := by decide
theorem test_schema_d_no_handler : (schemaOf { goodParser with handler := none } goodEncoder).wf = false := by decide
theorem test_schema_e_max_size_zero : (schemaOf goodParser { goodEncoder with maxSize := 0 }).wf = false := by decide
theorem test_schema_e_max_size_60 : (schemaOf goodParser { goodEncoder with maxSize := 60 }).wf = false := by decide
theorem test_schema_f_no_reply_encoder :
    { schemaOf goodParser goodEncoder with encIsShutdown := 2 }.wf = false := by decide
theorem test_schema_f_reply_types :
    { schemaOf goodParser goodEncoder with encIsShutdown := 0 }.wf = false := by decide

theorem test_wf_vlqDec_cursor : (Instr.vlqDec [0x00] 2 none).wf = false := by decide
theorem test_wf_vlqDec_bound : (Instr.vlqDec [0x00] 0 (some 2)).wf = false := by decide
theorem test_wf_parse_header : (Instr.parse 2 4 goodParser).wf = false := by decide
theorem test_wf_parse_order : (Instr.parse 5 4 goodParser).wf = false := by decide
theorem test_wf_parse_end : (Instr.parse 3 62 goodParser).wf = false := by decide
theorem test_wf_encode_header : (Instr.encodeArg .byte [] 2 4).wf = false := by decide
theorem test_wf_encode_order : (Instr.encodeArg .byte [] 5 4).wf = false := by decide
theorem test_wf_encode_end : (Instr.encodeArg .byte [] 3 62).wf = false := by decide
theorem test_wf_frame_payload : (Instr.frame 0 (List.replicate 60 0) 0).wf = false := by decide
theorem test_wf_frameLen_low : (Instr.frameLen 4).wf = false := by decide
theorem test_wf_frameLen_high : (Instr.frameLen 65).wf = false := by decide
theorem test_wf_command_args : (Instr.command 0 (List.replicate 59 0)).wf = false := by decide
theorem test_wf_vlq2_short : (Instr.vlq2 95).wf = false := by decide
theorem test_wf_vlq2_good : (Instr.vlq2 96).wf = true := by decide
theorem test_wf_vlq3_short : (Instr.vlq3 12287).wf = false := by decide
theorem test_wf_vlq4_short : (Instr.vlq4 1572863).wf = false := by decide
theorem test_wf_vlq5_short : (Instr.vlq5 201326591).wf = false := by decide
theorem test_wf_argUint32_open : (Instr.argUint32 [0x80]).wf = false := by decide
theorem test_wf_argInt32_empty : (Instr.argInt32 []).wf = false := by decide
theorem test_wf_argUint16_two : (Instr.argUint16 [0x00, 0x00]).wf = false := by decide
theorem test_wf_argInt16_open : (Instr.argInt16 [0x80]).wf = false := by decide
theorem test_wf_argByte_open : (Instr.argByte [0x80]).wf = false := by decide
set_option maxRecDepth 100000 in
theorem test_wf_argBuffer_long : (Instr.argBuffer (List.replicate 256 0)).wf = false := by decide
set_option maxRecDepth 100000 in
theorem test_wf_argString_long : (Instr.argString (List.replicate 256 1)).wf = false := by decide
theorem test_wf_argString_nul : (Instr.argString [0x61, 0x00]).wf = false := by decide
set_option maxRecDepth 100000 in
theorem test_wf_argProgmem_long : (Instr.argProgmemBuffer (List.replicate 256 0)).wf = false := by decide

/-! ### Decoding: every constructor's word written out from the spec's encoding -/

theorem test_decode_frame : decoded .frame [0x07, 0b00010000, 0x07, 0x2A, 0x8A, 0x31, 0b01111110, 0xFF]
    = some (.frame 0 [0x07, 0x2A] 0x8A31, [0xFF]) := by decide
theorem test_decode_frame_short : rejected .frame [0x07, 0x10, 0x07, 0x2A, 0x8A, 0x31] = some .tooShort := by decide
theorem test_decode_frame_sync : rejected .frame [0x05, 0x10, 0xF0, 0xCB, 0x7F] = some .badSync := by decide
theorem test_decode_frameLen : decoded .frameLen [0b01000000] = some (.frameLen 64, []) := by decide
theorem test_decode_frameLen_41 : rejected .frameLen [0x41] = some .badLength := by decide
theorem test_decode_frameSeq : decoded .frameSeq [0b00011111] = some (.frameSeq 15, []) := by decide
theorem test_decode_frameSeq_bit7 : rejected .frameSeq [0b10010000] = some .badTag := by decide
theorem test_decode_frameCrc : decoded .frameCrc [0xF0, 0xCB] = some (.frameCrc 0xF0CB, []) := by decide
theorem test_decode_frameSync : decoded .frameSync [0b01111110] = some (.frameSync, []) := by decide
theorem test_decode_frameSync_7F : rejected .frameSync [0x7F] = some .badSync := by decide
theorem test_decode_ackNak : decoded .ackNakFrame [0b00000101, 0b00010001, 0xE0, 0xEA, 0b01111110]
    = some (.ackNakFrame 1 0xE0EA, []) := by decide
theorem test_decode_ackNak_payload :
    rejected .ackNakFrame [0x06, 0x10, 0x02, 0x5D, 0x0D, 0x7E] = some .notEmptyPayload := by decide
theorem test_decode_command : decoded .command [0x07, 0x2A] = some (.command 0x07 [0x2A], []) := by decide
theorem test_decode_vlqLastByte : decoded .vlqLastByte [0b01100001] = some (.vlqLastByte 0b1100001, []) := by decide
theorem test_decode_vlqLastByte_more : rejected .vlqLastByte [0b11100001] = some .badPattern := by decide
theorem test_decode_vlqContByte : decoded .vlqContByte [0b10000111] = some (.vlqContByte 0b0000111, []) := by decide
theorem test_decode_vlqSign : decoded .vlqSign [0b11100001] = some (.vlqSign true 0b00001, []) := by decide
theorem test_decode_vlqSign_bit6 : rejected .vlqSign [0b01000000] = some .badPattern := by decide
theorem test_decode_vlq1 : decoded .vlq1 [0b01011111] = some (.vlq1 95, []) := by decide
theorem test_decode_vlq2 : decoded .vlq2 [0b10000111, 0b01101000] = some (.vlq2 1000, []) := by decide
theorem test_decode_vlq3 : decoded .vlq3 [0b10000110, 0b10001101, 0b00100000] = some (.vlq3 100000, []) := by decide
theorem test_decode_vlq4 : decoded .vlq4 [0x80, 0xE0, 0x80, 0x00] = some (.vlq4 1572864, []) := by decide
theorem test_decode_vlq5 : decoded .vlq5 [0b10001000, 0x80, 0x80, 0x80, 0x00] = some (.vlq5 0x80000000, []) := by decide
theorem test_decode_vlq5_bits : rejected .vlq5 [0b10011000, 0x80, 0x80, 0x80, 0x00] = some .badPattern := by decide
theorem test_decode_argUint32 : decoded .argUint32 [0x87, 0x68, 0x08] = some (.argUint32 [0x87, 0x68], [0x08]) := by decide
theorem test_decode_argInt32 : decoded .argInt32 [0x7F] = some (.argInt32 [0x7F], []) := by decide
theorem test_decode_argUint16 : decoded .argUint16 [0x83, 0xFF, 0x7F] = some (.argUint16 [0x83, 0xFF, 0x7F], []) := by decide
theorem test_decode_argInt16 : decoded .argInt16 [0x7E] = some (.argInt16 [0x7E], []) := by decide
theorem test_decode_argByte : decoded .argByte [0x05, 0x03] = some (.argByte [0x05], [0x03]) := by decide
theorem test_decode_argByte_open : rejected .argByte [0x80] = some .tooShort := by decide
theorem test_decode_argBuffer : decoded .argBuffer [0x03, 0xDE, 0xAD, 0xBE] = some (.argBuffer [0xDE, 0xAD, 0xBE], []) := by
  decide
theorem test_decode_argString : decoded .argString [0x02, 0x68, 0x69, 0x00] = some (.argString [0x68, 0x69], [0x00]) := by
  decide
theorem test_decode_argProgmem : decoded .argProgmemBuffer [0x01, 0x09] = some (.argProgmemBuffer [0x09], []) := by decide
theorem test_decode_argProgmem_short : rejected .argProgmemBuffer [0x02, 0x09] = some .tooShort := by decide
theorem test_table_word_vlq2 : decodeTableWord 16 0b1000011101101000 = some (.vlq2 1000) := by decide
theorem test_table_word_sync : decodeTableWord 8 0x7E = some .frameSync := by decide
theorem test_table_word_ackNak : decodeTableWord 40 0x0510F0CB7E = some (.ackNakFrame 0 0xF0CB) := by decide

/-! ### CRC16 and the VLQ codec -/

set_option maxRecDepth 100000 in
theorem test_crc16_check : resultOf (.crc16 [0x31, 0x32, 0x33, 0x34, 0x35, 0x36, 0x37, 0x38, 0x39]) base
    = some (.crc 0x29B1) := by decide
set_option maxRecDepth 100000 in
theorem test_crc16_reflected : crc16 .reflected [0x05, 0x10] = 0x9E81 := by decide
theorem test_vlqEnc_first_group_zero : resultOf (.vlqEnc 12288 none) base = some (.bytes [0x80, 0xE0, 0x00]) := by decide
theorem test_vlqEnc_in_place : (stateOf (exec (.vlqEnc (-33) (some 1)) (open_ 4))).map State.reservation
    = some (some [0x00, 0xFF, 0x5F, 0x00]) := by decide
theorem test_vlqDec_high_bits_lost : resultOf (.vlqDec [0x2A, 0xF0, 0x80, 0x80, 0x80, 0x00] 1 none) base
    = some (.vlq 0 6) := by decide
theorem test_vlqDec_bound : eventsOf (.vlqDec [0x87, 0x68] 0 (some 1)) base = some [.shutdown .parserError] := by decide

/-! ### FRAME_RX, ACKNAK, FRAME_TX (95_test_vectors.md sections 2.4 and 2.5) -/

set_option maxRecDepth 100000 in
/-- F20. -/
theorem test_frameRx_wraps : regsOf .frameRx { fed [0x05, 0x1F, 0x01, 0x24, 0x7E] with nextSeq := 0x1F }
    = some (0x10, false, false) := by decide
set_option maxRecDepth 100000 in
/-- F14. -/
theorem test_frameRx_latched : eventsOf .frameRx { fed [0x05, 0x10, 0xF0, 0xCA, 0x7E] with needValid := true }
    = some [.pop 5] := by decide
set_option maxRecDepth 100000 in
/-- T17. -/
theorem test_ackNak_commits : (stateOf (exec .ackNak { base with nextSeq := 0x15 })).map State.output
    = some [0x05, 0x15, 0xA0, 0x6E, 0x7E] := by decide
theorem test_ackNak_drops : eventsOf .ackNak { base with grants := [false] } = some [.drop] := by decide
set_option maxRecDepth 100000 in
/-- T2: the string cut to four characters. -/
theorem test_frameTx_truncates : (stateOf (exec (.frameTx 1 [100000, 0xFFFFFFFF, 16]) (open_ 0))).map State.output
    = some [0x11, 0x10, 0x09, 0x86, 0x8D, 0x20, 0x83, 0xFF, 0x7F, 0x04, 0x68, 0x65, 0x6C, 0x6C, 0x7F, 0xC3, 0x7E] := by
  decide
/-- T10. -/
theorem test_frameTx_encode_error :
    eventsOf (.frameTx 0 [96])
      { base with config := { Config.default with schema :=
          { Schema.test with commandEncoders := [{ msgId := 11, paramTypes := [.uint32], maxSize := 2 }] } } }
      = some [.shutdown .encodeError] := by decide

/-- The state of R209(j): "01 02 03" stands in PROGMEM only, "09 08" in DATA only. -/
def twoBuffers : State :=
  { base with
    config := { Config.default with schema :=
      { Schema.test with
        commandEncoders := [{ msgId := 13, paramTypes := [.progmemBuffer, .buffer], maxSize := 5 },
          { msgId := 12, paramTypes := [.string, .byte], maxSize := 4 },
          { msgId := 3, paramTypes := [.uint16], maxSize := 4 }]
        encIsShutdown := 2 } }
    data := [(32, 0x09), (33, 0x08), (64, 0x61), (65, 0x62)]
    progmem := [(32, 0x01), (33, 0x02), (34, 0x03)] }
set_option maxRecDepth 100000 in
/-- R209(j). -/
theorem test_frameTx_two_memories : (stateOf (exec (.frameTx 0 [1, 32, 2, 32]) twoBuffers)).map State.output
    = some [0x0A, 0x10, 0x0D, 0x01, 0x01, 0x01, 0x09, 0xDA, 0xE2, 0x7E] := by decide
set_option maxRecDepth 100000 in
/-- R209(i): the string takes all the room. -/
theorem test_frameTx_starved : eventsOf (.frameTx 1 [64, 7]) twoBuffers = some [.shutdown .encodeError] := by decide

/-! ### PARSE, ENCODE, POLL (sections 2.5 to 2.7) -/

/-- A3. -/
theorem test_parse_buffer :
    resultOf (.parse 3 7 goodParser) (fed [0x0A, 0x10, 0x08, 0x01, 0x02, 0xAA, 0xBB, 0xE6, 0xF8, 0x7E])
      = some (.parsed 7 [1, 2, 5]) := by decide
/-- A4. -/
theorem test_parse_past_end :
    eventsOf (.parse 3 7 goodParser) (fed [0x0A, 0x10, 0x08, 0x01, 0x05, 0xAA, 0xBB, 0x63, 0x68, 0x7E])
      = some [.shutdown .parserError] := by decide
theorem test_encode_short_masks : (stateOf (exec (.encodeArg .byte [0x101FF] 3 5) (open_ 6))).map State.reservation
    = some (some [0, 0, 0, 0x83, 0x7F, 0]) := by decide
theorem test_encode_string_stops_at_nul :
    (stateOf (exec (.encodeArg .string [19] 3 8) (open_ 8))).map State.reservation
      = some (some [0, 0, 0, 0x02, 0x6C, 0x6F, 0, 0]) := by decide
set_option maxRecDepth 100000 in
/-- X4. -/
theorem test_poll_in_shutdown :
    eventsOf .poll (down [0x0A, 0x10, 0x02, 0x07, 0x01, 0x07, 0x02, 0x83, 0x4F, 0x7E])
      = some [.commit [0x05, 0x11, 0xE0, 0xEA, 0x7E], .dispatch 2 [] [],
          .commit [0x08, 0x11, 0x03, 0x82, 0x23, 0x4E, 0x99, 0x7E], .pop 10] := by decide
set_option maxRecDepth 100000 in
/-- P4, the first POLL. -/
theorem test_poll_fatal :
    eventsOf .poll (fed [0x0A, 0x10, 0x07, 0x01, 0x05, 0x07, 0x02, 0x5B, 0x41, 0x7E])
      = some [.commit [0x05, 0x11, 0xE0, 0xEA, 0x7E], .dispatch 7 [1] [], .shutdown .invalidCommand] := by decide

/-- P1: the handler of 7 replies through encoder 1, that of 8 copies its buffer and echoes it through encoder 2. -/
def replying : State :=
  { fed [0x0E, 0x10, 0x07, 0x87, 0x68, 0x08, 0x05, 0x03, 0xDE, 0xAD, 0xBE, 0x5E, 0x0D, 0x7E] with
    data := [(16, 0x6F), (17, 0x6B)]
    handlerRuns := [[.send 1 [1000, 0xFFFFFFFE, 16]], [.copyIn 32 8 3, .send 2 [3, 32]]] }
set_option maxRecDepth 100000 in
theorem test_poll_handlers_send : eventsOf .poll replying
    = some [.commit [0x05, 0x11, 0xE0, 0xEA, 0x7E], .dispatch 7 [1000] [],
        .commit [0x0E, 0x11, 0x09, 0x87, 0x68, 0x83, 0xFF, 0x7E, 0x02, 0x6F, 0x6B, 0xAC, 0xAD, 0x7E],
        .dispatch 8 [5, 3, 8] [[0xDE, 0xAD, 0xBE]],
        .commit [0x0A, 0x11, 0x0A, 0x03, 0xDE, 0xAD, 0xBE, 0xD3, 0x74, 0x7E], .pop 14] := by decide

/-! ### The wire forms -/

set_option maxRecDepth 100000 in
/-- Section 1.4. -/
theorem test_frame_runs : eventsOf (.frame 0 [0x07, 0x2A] 0x8A31) base
    = some [.commit [0x05, 0x11, 0xE0, 0xEA, 0x7E], .dispatch 7 [42] [], .pop 7] := by decide
theorem test_frameLen_waits : leftOf (.frameLen 7) (fed [0x7E]) = some [0x7E, 0x07] := by decide
theorem test_frameSeq_waits : leftOf (.frameSeq 3) (fed [0x05]) = some [0x05, 0x13] := by decide
set_option maxRecDepth 100000 in
theorem test_frameCrc_high_first : leftOf (.frameCrc 0xF0CB) (fed [0x05, 0x10]) = some [0x05, 0x10, 0xF0, 0xCB] := by decide
set_option maxRecDepth 100000 in
/-- F15: the SYNC byte completes the frame. -/
theorem test_frameSync_completes : regsOf .frameSync { fed [0x05, 0x10, 0xF0, 0xCB] with needValid := true }
    = some (0x11, false, false) := by decide
set_option maxRecDepth 100000 in
/-- F16. -/
theorem test_ackNakFrame_out_of_order : eventsOf (.ackNakFrame 3 0xC0A8) base
    = some [.pop 5, .commit [0x05, 0x10, 0xF0, 0xCB, 0x7E]] := by decide
theorem test_command_buffer : eventsOf (.command 8 [0x05, 0x03, 0xDE, 0xAD, 0xBE]) base
    = some [.dispatch 8 [5, 3, 5] [[0xDE, 0xAD, 0xBE]]] := by decide
theorem test_command_unknown : eventsOf (.command 9 []) base = some [.shutdown .invalidCommand] := by decide
theorem test_vlqLastByte_minus_one : resultOf (.vlqLastByte 0x7F) base = some (.vlqByte 0xFFFFFFFF 0x7F false) := by decide
theorem test_vlqContByte_bit6_alone : resultOf (.vlqContByte 0x40) base = some (.vlqByte 0x40 0x40 true) := by decide
theorem test_vlqSign_fill : resultOf (.vlqSign true 0) base = some (.vlqByte 0xFFFFFFE0 0x60 true) := by decide
theorem test_vlq1_negative : resultOf (.vlq1 0x60) base = some (.vlq 0xFFFFFFE0 1) := by decide
theorem test_vlq2_positive_top : resultOf (.vlq2 12287) base = some (.vlq 12287 2) := by decide
theorem test_vlq3_negative : resultOf (.vlq3 0x180000) base = some (.vlq 0xFFF80000 3) := by decide
theorem test_vlq4_positive : resultOf (.vlq4 201326591) base = some (.vlq 0x0BFFFFFF 4) := by decide
theorem test_vlq5_min : resultOf (.vlq5 0x80000000) base = some (.vlq 0x80000000 5) := by decide
theorem test_argUint32_whole : resultOf (.argUint32 [0x88, 0x80, 0x80, 0x80, 0x00]) base
    = some (.parsed 5 [0x80000000]) := by decide
theorem test_argInt32_negative : resultOf (.argInt32 [0xF8, 0x18]) base = some (.parsed 2 [0xFFFFFC18]) := by decide
theorem test_argUint16_unmasked : resultOf (.argUint16 [0x86, 0x8D, 0x20]) base = some (.parsed 3 [100000]) := by decide
theorem test_argInt16_unmasked : resultOf (.argInt16 [0x7F]) base = some (.parsed 1 [0xFFFFFFFF]) := by decide
/-- R183: a `byte` sent as `[87 68]` is 1000. -/
theorem test_argByte_unmasked : resultOf (.argByte [0x87, 0x68]) base = some (.parsed 2 [1000]) := by decide
theorem test_argBuffer_pointer : resultOf (.argBuffer [0xAA, 0xBB]) base = some (.parsed 3 [2, 1]) := by decide
theorem test_argString_raises : eventsOf (.argString [0x61]) base = some [.shutdown .parserError] := by decide
theorem test_argProgmem_raises : eventsOf (.argProgmemBuffer [0x61]) base = some [.shutdown .parserError] := by decide

/-! ### The step -/

theorem test_reset_polls : stateOf (step State.reset) = some State.reset := by decide
theorem test_dead_pointer : faultOf (step { base with agenda := [.usePointer 3] }) = some .deadPointer := by decide
theorem test_store_past_space : faultOf (step { base with agenda := [.store 0xFFFFFFFF [1, 2]] })
    = some .addressOutsideSpace := by decide
/-- R132: bytes that are not of their form go to FRAME_RX all the same; one byte waits. -/
theorem test_presented_byte_waits :
    (stateOf (step { base with agenda := [.present .frameSync [0x7F]] })).map State.input = some [0x7F] := by decide
set_option maxRecDepth 100000 in
/-- R85, R136, R143 to R146: a frame that does not end in SYNC is popped and draws one NAK. -/
theorem test_presented_frame_rejected :
    (stateOf (step { base with agenda := [.present .frame [0x05, 0x10, 0xF0, 0xCB, 0x7F]] })).map
        (fun t => (t.trace, t.needSync, t.needValid))
      = some ([.pop 5, .commit [0x05, 0x10, 0xF0, 0xCB, 0x7E]], true, true) := by decide
/-- R112: `[80 00]` presented as a VLQ1 is decoded to 0. -/
theorem test_presented_vlq_long : (stateOf (step { base with agenda := [.present .vlq1 [0x80, 0x00]] })).map State.result
    = some (.vlq 0 2) := by decide
/-- R111: the bound is tested before each read, wherever the list ends. -/
theorem test_vlqDec_bound_past_list : resultOf (.vlqDec [0x05] 0 (some 5)) base = some (.vlq 5 1) := by decide
theorem test_vlqDec_at_bound : resultOf (.vlqDec [0x05] 7 (some 5)) base = some (.shutdown .parserError) := by decide
/-- R184: inline bytes are not read. -/
theorem test_parse_inline_not_read : resultOf (.parse 0 9 { goodParser with paramTypes := [.buffer] }) (fed [0x03])
    = some (.parsed 4 [3, 1]) := by decide
set_option maxRecDepth 100000 in
/-- R292: command 2, after command 8 in the same frame, still reads the inline bytes of command 8. -/
theorem test_pointer_lives_to_the_pop :
    (stateOf (exec .poll { fed (buildFrame .standard [0x08, 0x05, 0x03, 0xDE, 0xAD, 0xBE, 0x02] 0x10) with
        handlerRuns := [[], [.copyIn 64 5 3]] })).map (fun t => (t.data, t.input))
      = some ([(64, 0xDE), (65, 0xAD), (66, 0xBE)], []) := by decide
theorem test_placed_word_runs : (stateOf (step (State.reset.withFetchWord 16 0x8768))).map State.result
    = some (.vlq 1000 2) := by decide

/-! ### Witnesses: a state and operands that meet each statement's hypotheses together -/

theorem next_of_map {α : Type} {f : State → α} {a : α} {o : Host.Outcome State Fault Refusal}
    (h : (stateOf o).map f = some a) : ∃ t, o = .next t ∧ f t = a := by
  cases o with
  | next t => exact ⟨t, rfl, by simpa [stateOf] using h⟩
  | fault f => simp [stateOf] at h
  | refused r => simp [stateOf] at h

/-- A valid frame with the expected number 0 and no command. -/
def emptyFrameIn : State := fed [0x05, 0x10, 0xF0, 0xCB, 0x7E]

/-- A valid frame with the expected number 0 and the command 7(42). -/
def goodFrameIn : State := fed [0x07, 0x10, 0x07, 0x2A, 0x8A, 0x31, 0x7E]

/-- X1: a valid frame with the expected number 0 and the unknown command 9. -/
def badCommandIn : State := fed [0x06, 0x10, 0x09, 0xEC, 0x66, 0x7E]

/-- X3: the same with the null entry 5. -/
def nullCommandIn : State := fed [0x06, 0x10, 0x05, 0x2D, 0xEA, 0x7E]

theorem witness_StepRunsDecodedInstruction_call :
    base.config.wf = true ∧ { base with agenda := [.call .ackNak] }.agenda = .call .ackNak :: [] := by decide
theorem witness_StepRunsDecodedInstruction_present :
    base.config.wf = true ∧ { base with agenda := [.present .frameSync [0x7E]] }.agenda = .present .frameSync [0x7E] :: []
      ∧ decodeAs .frameSync [0x7E] = .ok (.frameSync, []) := by exact ⟨by decide, rfl, rfl⟩
theorem witness_StepRunsDecodedInstruction_poll : base.config.wf = true ∧ base.agenda = [] := by decide
theorem witness_StepRunsDecodedInstruction_word :
    base.config.wf = true ∧ decodeTableWord 16 0x8768 = some (.vlq2 1000) := by decide

theorem witness_StepMakesEnvironmentMoves (m : Move) :
    base.config.wf = true ∧ { base with agenda := [m] }.agenda = m :: [] := ⟨by decide, rfl⟩
theorem witness_StepMakesEnvironmentMoves_granted :
    State.granted 5 { base with agenda := [.reserve 5] } = true := by decide
theorem witness_StepMakesEnvironmentMoves_refused :
    State.granted 5 { base with agenda := [.reserve 5], grants := [false] } = false := by decide

/-- A state whose schema has no reply encoder. -/
def illFormed : State :=
  { base with config := { Config.default with schema := { Schema.test with encIsShutdown := 3 } } }

theorem witness_SchemaCheckedBeforeEveryStep : illFormed.config.wf = false := by decide

/-- The last two bytes of the space. -/
theorem witness_StoreThenReadBack_inside :
    base.config.wf = true ∧ Memory.wf base.data = true
      ∧ { base with agenda := [.store 0xFFFFFFFE [1, 2]] }.agenda = .store 0xFFFFFFFE [1, 2] :: []
      ∧ (0xFFFFFFFE#32).toNat + [1#8, 2#8].length ≤ 2 ^ 32 := by decide
theorem witness_StoreThenReadBack_outside :
    base.config.wf = true ∧ Memory.wf base.data = true
      ∧ { base with agenda := [.store 0xFFFFFFFF [1, 2]] }.agenda = .store 0xFFFFFFFF [1, 2] :: []
      ∧ 2 ^ 32 < (0xFFFFFFFF#32).toNat + [1#8, 2#8].length := by decide

theorem witness_DecodeEncodeAgree :
    (Instr.frame 15 (List.replicate 59 0x7E) 0xFFFF).wf = true
      ∧ (Instr.frame 15 (List.replicate 59 0x7E) 0xFFFF).form? = some .frame
      ∧ (Form.frame = .command → [0x00#8] = []) := by decide
theorem witness_DecodeEncodeAgree_command :
    (Instr.command 7 [0x2A]).wf = true ∧ (Instr.command 7 [0x2A]).form? = some .command
      ∧ (Form.command = .command → ([] : List Byte) = []) := by decide
theorem witness_EncodeDecodeAgree :
    decodeAs .vlq5 [0x8F, 0xFF, 0xFF, 0xFF, 0x7F, 0x00] = .ok (.vlq5 0xFFFFFFFF, [0x00]) := rfl
theorem witness_FrameRoundTrip : (List.replicate 59 0x7E#8).length ≤ 59 := by decide
theorem witness_CrcTableDriven : base.config.crc = .standard := rfl

theorem witness_VlqDecClosedForm : isVlq [0xF0, 0x80, 0x80, 0x80, 0x80, 0x00] = true := by decide
theorem witness_VlqDecBounded_inside :
    2 ≤ [0x87#8, 0x68, 0x08].length ∧ isVlq [0x87, 0x68] = true
      ∧ window [0x87, 0x68, 0x08] 0 2 = [0x87, 0x68] ++ [] := by decide
theorem witness_VlqDecBounded_raises :
    1 ≤ [0x87#8, 0x68].length ∧ ∀ b ∈ window [0x87, 0x68] 0 1, b.msb = true := by decide
theorem witness_VlqDecBounded_empty :
    1 ≤ [0x00#8].length ∧ ∀ b ∈ window [0x00] 1 1, b.msb = true := by decide
theorem witness_VlqDecBounded_refused :
    (∀ b ∈ ([0x00, 0x80] : List Byte).drop 1, b.msb = true) ∧ ([0x00, 0x80] : List Byte).length < 3 ∧ 1 < 3 := by decide
theorem witness_VlqDecBounded_past_list :
    window [0x05] 0 5 = [0x05] ++ [] ∧ isVlq [0x05] = true ∧ 5 ≤ 7 ∧ ∀ b ∈ window [0x05] 7 5, b.msb = true := by decide
theorem witness_VlqRowsAreWhatDecodes : (1 ≤ 1 ∧ 1 ≤ 5) ∧ (1 ≤ 5 ∧ 5 ≤ 5) := by decide
theorem witness_CanonicalVlqForms :
    (Instr.vlq2 96).wf = true ∧ (Instr.vlq3 12288).wf = true ∧ (Instr.vlq4 1572864).wf = true
      ∧ (Instr.vlq5 201326592).wf = true := by decide
/-- The first value below each row's negative end. -/
theorem witness_CanonicalVlqForms_negative :
    (Instr.vlq2 (BitVec.ofInt 14 (-33))).wf = true ∧ (Instr.vlq3 (BitVec.ofInt 21 (-4097))).wf = true
      ∧ (Instr.vlq4 (BitVec.ofInt 28 (-524289))).wf = true ∧ (Instr.vlq5 (BitVec.ofInt 32 (-67108865))).wf = true := by
  decide
/-- Presented bytes: `[80 00]` as a VLQ1, 0x7F as a VLQ.LAST_BYTE. -/
theorem witness_CanonicalVlqForms_presented :
    base.config.wf = true ∧ { base with agenda := [.present .vlq1 [0x80, 0x00]] }.agenda = .present .vlq1 [0x80, 0x00] :: []
      ∧ { base with agenda := [.present .vlqLastByte [0xFF]] }.agenda = .present .vlqLastByte [0xFF] :: [] := by decide
theorem witness_VlqEncInPlace_fits :
    (open_ 4).reservation = some (List.replicate 4 0) ∧ 2 + vlqLen 96 ≤ (List.replicate 4 (0 : Byte)).length := by decide
theorem witness_VlqEncInPlace_outside :
    (open_ 4).reservation = some (List.replicate 4 0) ∧ (List.replicate 4 (0 : Byte)).length < 3 + vlqLen 96 := by decide
theorem witness_VlqEncInPlace_none : base.reservation = none := rfl

/-- F2. -/
theorem witness_FrameRxWaitsForBytes_short :
    (fed [0x07, 0x10, 0x07, 0x2A]).needSync = false ∧ (fed [0x07, 0x10, 0x07, 0x2A]).input.length < 5 := by decide
/-- F3. -/
theorem witness_FrameRxWaitsForBytes_incomplete :
    (fed [0x07, 0x10, 0x07, 0x2A, 0x8A]).needSync = false ∧ lenOk (fed [0x07, 0x10, 0x07, 0x2A, 0x8A]).input = true
      ∧ tagOk (byteAt (fed [0x07, 0x10, 0x07, 0x2A, 0x8A]).input 1) = true
      ∧ (fed [0x07, 0x10, 0x07, 0x2A, 0x8A]).input.length
          < (byteAt (fed [0x07, 0x10, 0x07, 0x2A, 0x8A]).input 0).toNat := by decide
/-- F5. -/
theorem witness_FrameRxSwallowsLeadingSync :
    (fed [0x7E, 0x7E, 0x05, 0x10, 0xF0]).needSync = false ∧ 5 ≤ (fed [0x7E, 0x7E, 0x05, 0x10, 0xF0]).input.length
      ∧ byteAt (fed [0x7E, 0x7E, 0x05, 0x10, 0xF0]).input 0 = 0x7E#8 := by decide
set_option maxRecDepth 100000 in
/-- F13, F14. -/
theorem witness_FrameRxResyncsAndNaksOnce_invalid (v : Bool) :
    viewInvalid { fed [0x05, 0x10, 0xF0, 0xCA, 0x7E] with needValid := v }.config.crc
        { fed [0x05, 0x10, 0xF0, 0xCA, 0x7E] with needValid := v }.input = true
      ∧ byteAt { fed [0x05, 0x10, 0xF0, 0xCA, 0x7E] with needValid := v }.input 0 ≠ 0x7E#8
      ∧ { fed [0x05, 0x10, 0xF0, 0xCA, 0x7E] with needValid := v }.needValid = v := by revert v; decide
theorem witness_FrameRxResyncsAndNaksOnce_pending (v : Bool) :
    { base with needSync := true, needValid := v }.needSync = true
      ∧ { base with needSync := true, needValid := v }.needValid = v := ⟨rfl, rfl⟩

set_option maxRecDepth 100000 in
theorem emptyFrameIn_valid : frameValid emptyFrameIn.config.crc emptyFrameIn.input = true := by decide
theorem witness_FrameRxAcceptsExpectedFrame :
    emptyFrameIn.needSync = false ∧ frameValid emptyFrameIn.config.crc emptyFrameIn.input = true
      ∧ byteAt emptyFrameIn.input 1 = emptyFrameIn.nextSeq := ⟨rfl, emptyFrameIn_valid, rfl⟩
theorem witness_FrameRxDiscardsOutOfSequence :
    { emptyFrameIn with nextSeq := 0x11 }.needSync = false
      ∧ frameValid { emptyFrameIn with nextSeq := 0x11 }.config.crc { emptyFrameIn with nextSeq := 0x11 }.input = true
      ∧ byteAt { emptyFrameIn with nextSeq := 0x11 }.input 1 ≠ { emptyFrameIn with nextSeq := 0x11 }.nextSeq :=
  ⟨rfl, emptyFrameIn_valid, by decide⟩

theorem witness_AckNakSendsEmptyFrame :
    base.granted 5 = true ∧ State.granted 5 { base with grants := [false] } = false := by decide
theorem witness_FrameTxDropsWhenRefused :
    { base with grants := [false] }.config.schema.commandEncoders[0]?
        = some { msgId := 3, paramTypes := [.uint16], maxSize := 4 }
      ∧ State.granted (4 + 5) { base with grants := [false] } = false := by decide
theorem witness_FrameTxCommitsOneFrame :
    base.config.wf = true
      ∧ base.config.schema.commandEncoders[0]? = some { msgId := 3, paramTypes := [.uint16], maxSize := 4 }
      ∧ base.granted (4 + 5) = true
      ∧ encodeParams base.data base.progmem [.uint16] [0xABCD1234] 3 (2 + 4) = .ok [0xA4, 0x34] :=
  ⟨by decide, rfl, rfl, rfl⟩

/-- The encoder of T9 and T10. -/
def tight : State :=
  { base with config := { Config.default with schema :=
      { Schema.test with commandEncoders := [{ msgId := 11, paramTypes := [.uint32], maxSize := 2 }] } } }

theorem witness_FrameTxEncodeErrorCommitsNothing :
    tight.config.schema.commandEncoders[0]? = some { msgId := 11, paramTypes := [.uint32], maxSize := 2 }
      ∧ tight.granted (2 + 5) = true
      ∧ encodeParams tight.data tight.progmem [.uint32] [96] 3 (2 + 2) = .error (.shutdown .encodeError) :=
  ⟨rfl, rfl, rfl⟩
/-- R209(i): "ab" fills the room of 4 bytes, and the `byte` behind it finds none. -/
theorem witness_FrameTxEncodeErrorCommitsNothing_starved :
    twoBuffers.config.schema.commandEncoders[1]? = some { msgId := 12, paramTypes := [.string, .byte], maxSize := 4 }
      ∧ twoBuffers.granted (4 + 5) = true
      ∧ Encodes twoBuffers.data twoBuffers.progmem (2 + 4) [.string] 3 [64, 7]
          (BitVec.ofNat 8 2 :: (Memory.bytes twoBuffers.data 64 2 ++ [])) [7]
      ∧ NoRoom (2 + 4) .byte (3 + (BitVec.ofNat 8 2 :: (Memory.bytes twoBuffers.data 64 2 ++ [])).length) [7] :=
  ⟨rfl, rfl, .string (a := 64) (n := 2) (by decide) (by decide) (by decide) (by decide) (.inl rfl) (.done _ _),
    .short (.inr (.inr rfl)) (by decide)⟩
/-- R209(j). -/
theorem witness_FrameTxSizedEncoderCompletes_memories :
    twoBuffers.config.wf = true
      ∧ twoBuffers.config.schema.commandEncoders[0]?
          = some { msgId := 13, paramTypes := [.progmemBuffer, .buffer], maxSize := 5 }
      ∧ Encodes twoBuffers.data twoBuffers.progmem (2 + 5) [.progmemBuffer, .buffer] 3 [1, 32, 2, 32]
          [0x01, 0x01, 0x01, 0x09] [] :=
  ⟨by decide, rfl,
    .buffer (p := 3) (k := 1) (n := 1) (a := 32) (.inr ⟨rfl, rfl⟩) (by decide) (by decide) rfl (by decide)
      (.buffer (p := 5) (k := 1) (n := 2) (a := 32) (.inl ⟨rfl, rfl⟩) (by decide) (by decide) rfl (by decide)
        (.done _ _))⟩
theorem witness_FrameTxSizedEncoderCompletes :
    base.config.schema.commandEncoders[0]? = some { msgId := 3, paramTypes := [.uint16], maxSize := 4 }
      ∧ (∀ t ∈ [ArgType.uint16], t.isInt = true) ∧ [ArgType.uint16].length ≤ [0xFFFF#32].length
      ∧ 1 + ([ArgType.uint16].map intArgMax).sum ≤ 4 := by decide

theorem witness_EncodeFullWordIntegers :
    (open_ 8).reservation = some (List.replicate 8 0) ∧ 8 ≤ (List.replicate 8 (0 : Byte)).length
      ∧ 3 + vlqLen 0x80000000 ≤ 8 ∧ 7 < 3 + vlqLen 0x80000000 := by decide
theorem witness_EncodeShortIntegers :
    (open_ 6).reservation = some (List.replicate 6 0) ∧ 6 ≤ (List.replicate 6 (0 : Byte)).length
      ∧ 0xFFFF#32 = 0xFFFFFFFF#32 &&& 0xFFFF#32 ∧ 3 + vlqLen 0xFFFF ≤ 6 ∧ 5 < 3 + vlqLen 0xFFFF := by decide
/-- "lo" and its NUL, with room. -/
theorem witness_EncodeStringToNulOrCapacity_nul :
    (open_ 8).reservation = some (List.replicate 8 0) ∧ 8 ≤ (List.replicate 8 (0 : Byte)).length ∧ 3 < 8
      ∧ 2 ≤ 255 ∧ 2 ≤ 8 - (3 + 1) ∧ (19#32).toNat + min (2 + 1) (8 - (3 + 1)) ≤ 2 ^ 32
      ∧ (∀ j, j < 2 → Memory.get (open_ 8).data ((19#32).toNat + j) ≠ 0)
      ∧ Memory.get (open_ 8).data ((19#32).toNat + 2) = 0 := by decide
/-- "hello" cut to the room. -/
theorem witness_EncodeStringToNulOrCapacity_cut :
    (open_ 8).reservation = some (List.replicate 8 0) ∧ 8 ≤ (List.replicate 8 (0 : Byte)).length ∧ 3 < 8
      ∧ 4 ≤ 255 ∧ 4 = 8 - (3 + 1) ∧ (16#32).toNat + min (4 + 1) (8 - (3 + 1)) ≤ 2 ^ 32
      ∧ ∀ j, j < 4 → Memory.get (open_ 8).data ((16#32).toNat + j) ≠ 0 := by decide
theorem witness_EncodeStringToNulOrCapacity_raises :
    (open_ 8).reservation = some (List.replicate 8 0) ∧ 8 ≤ (List.replicate 8 (0 : Byte)).length ∧ 8 < 8 + 1 := by decide
/-- A buffer that ends at the top of the space. -/
theorem witness_EncodeBufferClamped_fits :
    (open_ 8).reservation = some (List.replicate 8 0) ∧ 8 ≤ (List.replicate 8 (0 : Byte)).length
      ∧ 4 = min (255#32).toNat (8 - (3 + 1)) ∧ (255#32).toNat ≤ 255 ∧ 3 < 8 ∧ (0xFFFFFFFC#32).toNat + 4 ≤ 2 ^ 32 := by
  decide
theorem witness_EncodeBufferClamped_raises :
    (open_ 8).reservation = some (List.replicate 8 0) ∧ 8 ≤ (List.replicate 8 (0 : Byte)).length
      ∧ 0 = min (255#32).toNat (8 - (8 + 1)) ∧ (255#32).toNat ≤ 255 ∧ 8 < 8 + 1 := by decide
theorem witness_EncodeBufferClamped_refused :
    (open_ 8).reservation = some (List.replicate 8 0) ∧ 8 ≤ (List.replicate 8 (0 : Byte)).length
      ∧ 4 = min (256#32).toNat (8 - (3 + 1)) ∧ 255 < (256#32).toNat := by decide
theorem witness_EncodeUnknownTypeRaises :
    (open_ 8).reservation = some (List.replicate 8 0) ∧ 8 ≤ (List.replicate 8 (0 : Byte)).length := by decide
theorem witness_EncodeWritesOnlyItsBytes :
    (open_ 8).reservation = some (List.replicate 8 0)
      ∧ encodeParam (open_ 8).data (open_ 8).progmem .string [16] 3 8 = .ok ([0x04, 0x68, 0x65, 0x6C, 0x6C], [])
      ∧ 3 + ([0x04, 0x68, 0x65, 0x6C, 0x6C] : List Byte).length ≤ (List.replicate 8 (0 : Byte)).length :=
  ⟨by decide, rfl, by decide⟩

theorem witness_CallsOutsideTheirDomainStop_encoder : base.config.schema.commandEncoders.length ≤ 3 := by decide
theorem witness_CallsOutsideTheirDomainStop_encode :
    base.reservation = none ∧ (open_ 7).reservation = some (List.replicate 7 0)
      ∧ encodeParam (open_ 7).data (open_ 7).progmem .string [16] 3 8 = .ok ([0x04, 0x68, 0x65, 0x6C, 0x6C], [])
      ∧ (List.replicate 7 (0 : Byte)).length < 3 + ([0x04, 0x68, 0x65, 0x6C, 0x6C] : List Byte).length
      ∧ ∀ c, ArgType.string ≠ .unknown c :=
  ⟨rfl, rfl, rfl, by decide, fun c => by simp⟩
/-- The last byte of the space is a character, and the next is past it. -/
theorem witness_CallsOutsideTheirDomainStop_string :
    { open_ 8 with data := [(0xFFFFFFFF, 0x61)] }.reservation = some (List.replicate 8 0) ∧ 1 < 8 - (3 + 1) ∧ (0xFFFFFFFF#32).toNat + 1 = 2 ^ 32
      ∧ ∀ j, j < 1 → Memory.get { open_ 8 with data := [(0xFFFFFFFF, 0x61)] }.data ((0xFFFFFFFF#32).toNat + j) ≠ 0 := by decide
theorem witness_CallsOutsideTheirDomainStop_buffer :
    (open_ 8).reservation = some (List.replicate 8 0) ∧ (4#32).toNat ≤ 255 ∧ 3 < 8
      ∧ 2 ^ 32 < (0xFFFFFFFD#32).toNat + min (4#32).toNat (8 - (3 + 1)) := by decide
/-- The view ends behind the `byte`, where the length byte of the buffer should be read. -/
theorem witness_CallsOutsideTheirDomainStop_parse :
    ((fed [0x05]).shutdown = true → goodParser.inShutdown = true)
      ∧ goodParser.paramTypes = [.byte] ++ .buffer :: [] ∧ window (fed [0x05]).input 0 2 = [0x05] ++ []
      ∧ Parses [.byte] 0 [0x05] [5] [] ∧ (fed [0x05]).input.length < 2 ∧ 0 < 2 :=
  ⟨by decide, by decide, by decide, .integer (v := [0x05]) rfl rfl (.done 1), by decide, by decide⟩
theorem witness_CallsOutsideTheirDomainStop_parse_integer :
    goodParser.paramTypes = [] ++ .byte :: [.buffer] ∧ ArgType.byte.isInt = true
      ∧ window (fed [0x85]).input 0 2 = [] ++ [0x85] ∧ (∀ b ∈ [0x85#8], b.msb = true) := by decide
theorem witness_CallsOutsideTheirDomainStop_form :
    base.config.wf = true ∧ { base with agenda := [.present .vlqSign []] }.agenda = .present .vlqSign [] :: [] :=
  ⟨by decide, rfl⟩

theorem parses_A3 : Parses [.byte, .buffer] 3 [0x01, 0x02, 0xAA, 0xBB] [1, 2, 5] [(5, [0xAA, 0xBB])] :=
  .integer (v := [0x01]) rfl rfl (.buffer (d := [0xAA, 0xBB]) (by decide) (.done 7))
theorem witness_ParseReadsArguments :
    ((fed [0x0A, 0x10, 0x08, 0x01, 0x02, 0xAA, 0xBB, 0xE6, 0xF8, 0x7E]).shutdown = true →
        goodParser.inShutdown = true)
      ∧ 7 ≤ (fed [0x0A, 0x10, 0x08, 0x01, 0x02, 0xAA, 0xBB, 0xE6, 0xF8, 0x7E]).input.length
      ∧ window (fed [0x0A, 0x10, 0x08, 0x01, 0x02, 0xAA, 0xBB, 0xE6, 0xF8, 0x7E]).input 3 7
          = [0x01, 0x02, 0xAA, 0xBB] ++ []
      ∧ Parses goodParser.paramTypes 3 [0x01, 0x02, 0xAA, 0xBB] [1, 2, 5] [(5, [0xAA, 0xBB])] ∧ goodParser.wf = true :=
  ⟨by decide, by decide, by decide, parses_A3, by decide⟩

theorem witness_ParseReadsArguments_inline :
    ({ goodParser with paramTypes := [.buffer] } : Parser).paramTypes = [.buffer] ∧ 0 < (fed [0x03]).input.length
      ∧ 3 = (byteAt (fed [0x03]).input 0).toNat ∧ 0 + 1 + 3 ≤ 4 := by decide

/-- What parses is not turned away: bytes PARSE raises on do not parse. -/
theorem not_parses {ts : List ArgType} {p : Nat} {bytes : List Byte} {e : Stop}
    (h : parseParams ts p 0 bytes = .error e)
    (bs after : List Byte) (args : List Word) (inline : List (Nat × List Byte)) (hb : bytes = bs ++ after) :
    ¬ Parses ts p bs args inline := by
  intro k
  rw [hb, parseParams_parses k 0 after] at h
  cases h
/-- A4. -/
theorem witness_ParseRaisesParserError :
    (base.shutdown = true → goodParser.inShutdown = true)
      ∧ 7 ≤ (fed [0x0A, 0x10, 0x08, 0x01, 0x05, 0xAA, 0xBB, 0x63, 0x68, 0x7E]).input.length
      ∧ ∀ bs after args inline,
        window (fed [0x0A, 0x10, 0x08, 0x01, 0x05, 0xAA, 0xBB, 0x63, 0x68, 0x7E]).input 3 7 = bs ++ after →
        ¬ Parses goodParser.paramTypes 3 bs args inline :=
  ⟨by decide, by decide, not_parses (e := .shutdown .parserError) rfl⟩
theorem witness_ParseGuardSkips :
    (down []).config.wf = true
      ∧ (down []).config.schema.commandEncoders[(down []).config.schema.encIsShutdown]?
          = some { msgId := 3, paramTypes := [.uint16], maxSize := 4 }
      ∧ (down []).shutdown = true ∧ goodParser.inShutdown = false
      ∧ 0x0123#32 = (down []).shutdownReason.setWidth 32 ∧ 1 + vlqLen 0x0123 ≤ 4 := by decide

/-- A reply encoder that holds no reason code of two bytes. -/
def smallReply : State :=
  { down [] with config := { Config.default with schema :=
      { Schema.test with commandEncoders := [{ msgId := 3, paramTypes := [.uint16], maxSize := 2 }] } } }

theorem witness_ParseGuardSkips_raises :
    smallReply.config.wf = true
      ∧ smallReply.config.schema.commandEncoders[smallReply.config.schema.encIsShutdown]?
          = some { msgId := 3, paramTypes := [.uint16], maxSize := 2 }
      ∧ smallReply.shutdown = true ∧ 0x0123#32 = smallReply.shutdownReason.setWidth 32
      ∧ 2 < 1 + vlqLen 0x0123 ∧ smallReply.granted (2 + 5) = true := by decide

theorem commands_7_42 : Commands Schema.test false 2 [0x07, 0x2A] [.dispatch 7 [42] []] :=
  .command (id := 0x07) (bs := [0x2A]) (args := [42]) (inline := []) rfl nofun (.integer (v := [0x2A]) rfl rfl (.done 4)) (.done 4)
set_option maxRecDepth 100000 in
theorem witness_PollRunsCommandsInWireOrder :
    goodFrameIn.needSync = false ∧ goodFrameIn.seqTagged = true ∧ ([0x07, 0x2A] : List Byte).length ≤ 59
      ∧ goodFrameIn.input = buildFrame goodFrameIn.config.crc [0x07, 0x2A] goodFrameIn.nextSeq ++ []
      ∧ Commands goodFrameIn.config.schema goodFrameIn.shutdown 2 [0x07, 0x2A] [.dispatch 7 [42] []]
      ∧ goodFrameIn.handlerRuns = List.replicate [Event.dispatch 7 [42] []].length [] ++ [[], []] :=
  ⟨rfl, by decide, by decide, by decide, commands_7_42, rfl⟩
set_option maxRecDepth 100000 in
/-- The frame of P1, its two handlers sending. -/
theorem witness_PollRunsCommandsInWireOrder_handlers :
    replying.needSync = false ∧ replying.seqTagged = true
      ∧ ([0x07, 0x87, 0x68, 0x08, 0x05, 0x03, 0xDE, 0xAD, 0xBE] : List Byte).length ≤ 59
      ∧ replying.input
          = buildFrame replying.config.crc [0x07, 0x87, 0x68, 0x08, 0x05, 0x03, 0xDE, 0xAD, 0xBE] replying.nextSeq ++ []
      ∧ ∃ live t, Served 2 [0x07, 0x87, 0x68, 0x08, 0x05, 0x03, 0xDE, 0xAD, 0xBE] [] replying.accepted live t :=
  ⟨rfl, by decide, by decide, by decide, _, _,
    .command (id := 0x07) (bs := [0x87, 0x68]) (args := [1000]) (inline := []) rfl nofun
      (.integer (v := [0x87, 0x68]) rfl rfl (.done 5)) rfl (.send rfl rfl (.done _))
      (.command (id := 0x08) (bs := [0x05, 0x03, 0xDE, 0xAD, 0xBE]) (args := [5, 3, 8])
        (inline := [(8, [0xDE, 0xAD, 0xBE])]) rfl nofun
        (.integer (v := [0x05]) rfl rfl (.buffer (d := [0xDE, 0xAD, 0xBE]) (by decide) (.done 11))) rfl
        (.copyIn (q := 8) (d := [0xDE, 0xAD, 0xBE]) (by decide) (by decide) (by decide) rfl (.send rfl rfl (.done _)))
        (.done 11 _ _))⟩
set_option maxRecDepth 100000 in
theorem witness_DeliveredFrameRuns :
    base.needSync = false ∧ base.input = [] ∧ base.nextSeq = seqByte 0
      ∧ 0x8A31#16 = crc16 base.config.crc (BitVec.ofNat 8 (([0x07, 0x2A] : List Byte).length + 5) :: seqByte 0 :: [0x07, 0x2A])
      ∧ Commands base.config.schema base.shutdown 2 [0x07, 0x2A] [.dispatch 7 [42] []]
      ∧ base.handlerRuns = List.replicate [Event.dispatch 7 [42] []].length [] ++ [[], []]
      ∧ 0xF0CB#16 = crc16 base.config.crc [0x05, seqByte 0] :=
  ⟨rfl, rfl, rfl, by decide, commands_7_42, rfl, by decide⟩

set_option maxRecDepth 100000 in
theorem goodFrameIn_accepts : goodFrameIn.accepts = true := by decide
set_option maxRecDepth 100000 in
theorem badCommandIn_accepts : badCommandIn.accepts = true := by decide
set_option maxRecDepth 100000 in
theorem witness_PollAcknowledgesBeforeCommands :
    goodFrameIn.accepts = true ∧ ∃ t, exec .poll goodFrameIn = .next t ∧ t.result = .none :=
  ⟨goodFrameIn_accepts, next_of_map (f := State.result) (by decide)⟩
set_option maxRecDepth 100000 in
theorem witness_FrameSurvivesShutdown :
    badCommandIn.accepts = true ∧ ∃ t, exec .poll badCommandIn = .next t ∧ t.result = .shutdown .invalidCommand :=
  ⟨badCommandIn_accepts, next_of_map (f := State.result) (by decide)⟩
theorem witness_UnknownCommandRaises_command :
    base.config.schema.commandIndex.length ≤ (9#8).toNat ∧ base.config.schema.commandIndex[(5#8).toNat]? = some none := by
  decide
theorem witness_UnknownCommandRaises_poll :
    badCommandIn.accepts = true ∧ 5 < (byteAt badCommandIn.input 0).toNat
      ∧ badCommandIn.config.schema.commandIndex.length ≤ (byteAt badCommandIn.input 2).toNat :=
  ⟨badCommandIn_accepts, by decide, by decide⟩
set_option maxRecDepth 100000 in
theorem witness_UnknownCommandRaises_null :
    nullCommandIn.accepts = true ∧ 5 < (byteAt nullCommandIn.input 0).toNat
      ∧ nullCommandIn.config.schema.commandIndex[(byteAt nullCommandIn.input 2).toNat]? = some none := by decide
/-- P4, P8: command 7 with 1, then a command that raises, then more. -/
def badSecond (bad : List Byte) : State := fed (buildFrame .standard ([0x07, 0x01] ++ bad) 0x10)
theorem commands_7_1 : Commands Schema.test false 2 [0x07, 0x01] [.dispatch 7 [1] []] :=
  .command (id := 0x07) (bs := [0x01]) (args := [1]) (inline := []) rfl nofun (.integer (v := [0x01]) rfl rfl (.done 4)) (.done 4)
theorem witness_UnknownCommandRaises_later :
    (badSecond [0x05, 0x07, 0x02]).needSync = false ∧ (badSecond [0x05, 0x07, 0x02]).seqTagged = true
      ∧ ([0x07, 0x01] ++ 0x05 :: [0x07, 0x02] : List Byte).length ≤ 59
      ∧ (badSecond [0x05, 0x07, 0x02]).input = buildFrame .standard ([0x07, 0x01] ++ 0x05 :: [0x07, 0x02]) 0x10 ++ []
      ∧ Commands (badSecond [0x05, 0x07, 0x02]).config.schema (badSecond [0x05, 0x07, 0x02]).shutdown 2 [0x07, 0x01]
          [.dispatch 7 [1] []]
      ∧ (badSecond [0x05, 0x07, 0x02]).handlerRuns = List.replicate [Event.dispatch 7 [1] []].length [] ++ [[], []]
      ∧ (badSecond [0x05, 0x07, 0x02]).config.schema.commandIndex[(0x05#8).toNat]? = some none :=
  ⟨rfl, rfl, by decide, rfl, commands_7_1, rfl, rfl⟩
theorem witness_ParseRaisesParserError_later :
    (badSecond [0x08, 0x01]).needSync = false ∧ (badSecond [0x08, 0x01]).seqTagged = true
      ∧ ([0x07, 0x01] ++ 0x08 :: [0x01] : List Byte).length ≤ 59
      ∧ (badSecond [0x08, 0x01]).input = buildFrame .standard ([0x07, 0x01] ++ 0x08 :: [0x01]) 0x10 ++ []
      ∧ Commands (badSecond [0x08, 0x01]).config.schema (badSecond [0x08, 0x01]).shutdown 2 [0x07, 0x01]
          [.dispatch 7 [1] []]
      ∧ (badSecond [0x08, 0x01]).handlerRuns = List.replicate [Event.dispatch 7 [1] []].length [] ++ [[], []]
      ∧ (badSecond [0x08, 0x01]).config.schema.commandIndex[(0x08#8).toNat]?
          = some (some { paramTypes := [.byte, .buffer], numArgs := 3, handler := some 8, inShutdown := false })
      ∧ ((badSecond [0x08, 0x01]).shutdown = true → false = true)
      ∧ ∀ bs after args inline, ([0x01] : List Byte) = bs ++ after →
          ¬ Parses [.byte, .buffer] (3 + ([0x07, 0x01] : List Byte).length) bs args inline :=
  ⟨rfl, rfl, by decide, rfl, commands_7_1, rfl, rfl, id, not_parses (e := .shutdown .parserError) rfl⟩

/-- X4: command 2 runs in shutdown, the first 7 draws the reply, the second is discarded. -/
def skipSecond : State := down (buildFrame .standard ([0x02] ++ [0x07, 0x01, 0x07, 0x02]) 0x10)
theorem witness_PollSkipsInShutdown :
    skipSecond.config.wf = true ∧ skipSecond.needSync = false ∧ skipSecond.seqTagged = true
      ∧ ([0x02] ++ 0x07 :: [0x01, 0x07, 0x02] : List Byte).length ≤ 59
      ∧ skipSecond.input = buildFrame .standard ([0x02] ++ 0x07 :: [0x01, 0x07, 0x02]) 0x10 ++ []
      ∧ skipSecond.shutdown = true ∧ Commands skipSecond.config.schema true 2 [0x02] [.dispatch 2 [] []]
      ∧ skipSecond.handlerRuns = List.replicate [Event.dispatch 2 [] []].length [] ++ [[], []]
      ∧ skipSecond.config.schema.commandIndex[(0x07#8).toNat]?
          = some (some { paramTypes := [.uint32], numArgs := 1, handler := some 7, inShutdown := false })
      ∧ skipSecond.config.schema.commandEncoders[skipSecond.config.schema.encIsShutdown]?
          = some { msgId := 3, paramTypes := [.uint16], maxSize := 4 }
      ∧ 0x0123#32 = skipSecond.shutdownReason.setWidth 32 ∧ 1 + vlqLen 0x0123 ≤ 4 :=
  ⟨by decide, rfl, rfl, by decide, rfl, rfl, .command (id := 0x02) (bs := []) (args := []) (inline := []) rfl (fun _ => rfl) (.done 3) (.done 3), rfl, rfl, rfl,
    by decide, by decide⟩

theorem witness_CommandDispatches :
    base.config.schema.commandIndex[(8#8).toNat]?
        = some (some { paramTypes := [.byte, .buffer], numArgs := 3, handler := some 8, inShutdown := false })
      ∧ (base.shutdown = true → false = true)
      ∧ Parses [.byte, .buffer] 3 [0x01, 0x02, 0xAA, 0xBB] [1, 2, 5] [(5, [0xAA, 0xBB])]
      ∧ base.handlerRuns = [] :: [[], []] :=
  ⟨rfl, id, parses_A3, rfl⟩
theorem witness_CommandDispatches_raises :
    ∀ bs after args inline, ([0x01] : List Byte) = bs ++ after → ¬ Parses [.byte, .buffer] 3 bs args inline :=
  not_parses (e := .shutdown .parserError) rfl

/-- Command 7 alone in shutdown, a reply that fits and one that does not. -/
theorem witness_CommandDispatches_skips :
    (down []).config.wf = true
      ∧ (down []).config.schema.commandIndex[(7#8).toNat]?
          = some (some { paramTypes := [.uint32], numArgs := 1, handler := some 7, inShutdown := false })
      ∧ (down []).config.schema.commandEncoders[(down []).config.schema.encIsShutdown]?
          = some { msgId := 3, paramTypes := [.uint16], maxSize := 4 }
      ∧ (down []).shutdown = true ∧ 0x0123#32 = (down []).shutdownReason.setWidth 32 ∧ 1 + vlqLen 0x0123 ≤ 4 := by decide
theorem witness_CommandDispatches_skip_raises :
    smallReply.config.wf = true
      ∧ smallReply.config.schema.commandIndex[(7#8).toNat]?
          = some (some { paramTypes := [.uint32], numArgs := 1, handler := some 7, inShutdown := false })
      ∧ smallReply.config.schema.commandEncoders[smallReply.config.schema.encIsShutdown]?
          = some { msgId := 3, paramTypes := [.uint16], maxSize := 2 }
      ∧ smallReply.shutdown = true ∧ 2 < 1 + vlqLen 0x0123 ∧ smallReply.granted (2 + 5) = true := by decide

theorem witness_CommandDispatches_empty :
    base.config.wf = true ∧ { base with agenda := [.present .command []] }.agenda = .present .command [] :: [] := by decide

/-- A device whose one command takes a buffer, and a handler that stores, does one thing more, and stores again. -/
def handling (act : HandlerAction) : State :=
  { base with
    config := { Config.default with schema := { Schema.test with commandIndex :=
      [some { paramTypes := [.buffer], numArgs := 2, handler := some 0, inShutdown := false }] } }
    handlerRuns := [[.store 64 [0x01], act, .store 65 [0x02]]] }
/-- The state after the first store. -/
def handlingThen (act : HandlerAction) : State :=
  { (handling act).dispatched [.dispatch 0 [2, 4] [[0xAA, 0xBB]]] [] with data := [(64, 0x01)] }

theorem witness_HandlerActionsTakeEffect (act : HandlerAction) :
    (handling act).config.schema.commandIndex[(0#8).toNat]?
        = some (some { paramTypes := [.buffer], numArgs := 2, handler := some 0, inShutdown := false })
      ∧ ((handling act).shutdown = true → false = true) ∧ ([0xAA, 0xBB] : List Byte).length ≤ 255
      ∧ (handling act).handlerRuns = ([.store 64 [0x01]] ++ act :: [.store 65 [0x02]]) :: []
      ∧ HandlerRan [(4, [0xAA, 0xBB])] [.store 64 [0x01]]
          ((handling act).dispatched [.dispatch 0 [BitVec.ofNat 32 2, 4#32] [[0xAA, 0xBB]]] []) (handlingThen act)
      ∧ Memory.wf (handlingThen act).data = true
      ∧ ∃ t, HandlerRan [(4, [0xAA, 0xBB])] [.store 65 [0x02]] (handlingThen act) t :=
  ⟨rfl, nofun, by decide, rfl, .store rfl (.done _), rfl, _, .store rfl (.done _)⟩
set_option maxRecDepth 100000 in
theorem witness_HandlerActionsTakeEffect_send :
    ∃ v t, exec (.frameTx 0 [5]) (handlingThen (.send 0 [5])) = .next v ∧ v.result = .none
      ∧ HandlerRan [(4, [0xAA, 0xBB])] [.store 65 [0x02]] { v with result := (handlingThen (.send 0 [5])).result } t :=
  ⟨_, _, rfl, rfl, .store rfl (.done _)⟩
/-- The same device with an encoder that holds no two bytes beside the message id. -/
def handlingTight : State :=
  { handlingThen (.send 0 [96]) with
    config := { Config.default with schema :=
      { (handling (.send 0 [96])).config.schema with
        commandEncoders := [{ msgId := 11, paramTypes := [.uint32], maxSize := 2 }] } } }
set_option maxRecDepth 100000 in
theorem witness_HandlerActionsTakeEffect_send_raises :
    handlingTight.config.schema.commandIndex[(0#8).toNat]?
        = some (some { paramTypes := [.buffer], numArgs := 2, handler := some 0, inShutdown := false })
      ∧ ∃ u, exec (.frameTx 0 [96]) handlingTight = .next u ∧ u.result = .shutdown .encodeError :=
  ⟨rfl, next_of_map (f := State.result) (by decide)⟩
theorem witness_HandlerActionsTakeEffect_space : 2 ^ 32 < (0xFFFFFFFF#32).toNat + ([0x01, 0x02] : List Byte).length := by
  decide
set_option maxRecDepth 100000 in
/-- A handler that sends and then raises: nothing of its run behind that happens (D17). -/
theorem test_handler_sends_then_raises :
    eventsOf (.command 0 [0x02, 0xAA, 0xBB])
      { handling (.store 64 []) with handlerRuns := [[.send 0 [5], .raise (.other 9), .send 0 [5]]] }
      = some [.dispatch 0 [2, 4] [[0xAA, 0xBB]], .commit (buildFrame .standard [0x03, 0x05] 0x10),
          .shutdown (.other 9)] := by decide
/-- The frame of P1; the handler of its second command copies its buffer, then does one thing. -/
def ending (act : HandlerAction) : State := { replying with handlerRuns := [[], [.copyIn 32 8 3, act, .send 2 [3, 32]]] }
set_option maxRecDepth 100000 in
theorem witness_HandlerActionsTakeEffect_poll (act : HandlerAction) :
    (ending act).needSync = false ∧ (ending act).seqTagged = true
      ∧ ([0x07, 0x87, 0x68] ++ 0x08 :: ([0x05, 0x03, 0xDE, 0xAD, 0xBE] ++ []) : List Byte).length ≤ 59
      ∧ (ending act).input = buildFrame (ending act).config.crc
          ([0x07, 0x87, 0x68] ++ 0x08 :: ([0x05, 0x03, 0xDE, 0xAD, 0xBE] ++ [])) (ending act).nextSeq ++ []
      ∧ (ending act).config.schema.commandIndex[(0x08#8).toNat]?
          = some (some { paramTypes := [.byte, .buffer], numArgs := 3, handler := some 8, inShutdown := false })
      ∧ Parses [.byte, .buffer] (3 + ([0x07, 0x87, 0x68] : List Byte).length) [0x05, 0x03, 0xDE, 0xAD, 0xBE] [5, 3, 8]
          [(8, [0xDE, 0xAD, 0xBE])]
      ∧ ∃ u v, Served 2 [0x07, 0x87, 0x68] [] (ending act).accepted [] u ∧ (u.shutdown = true → false = true)
        ∧ u.handlerRuns = ([.copyIn 32 8 3] ++ act :: [.send 2 [3, 32]]) :: []
        ∧ HandlerRan ([] ++ [(8, [0xDE, 0xAD, 0xBE])]) [.copyIn 32 8 3]
            (u.dispatched [.dispatch 8 [5, 3, 8] [[0xDE, 0xAD, 0xBE]]] []) v :=
  ⟨rfl, show replying.seqTagged = true by decide, by decide,
    show replying.input = buildFrame .standard [0x07, 0x87, 0x68, 0x08, 0x05, 0x03, 0xDE, 0xAD, 0xBE] 0x10 ++ [] by decide,
    rfl,
    .integer (v := [0x05]) rfl rfl (.buffer (d := [0xDE, 0xAD, 0xBE]) (by decide) (.done 11)), _, _,
    .command (id := 0x07) (bs := [0x87, 0x68]) (args := [1000]) (inline := []) rfl nofun
      (.integer (v := [0x87, 0x68]) rfl rfl (.done 5)) rfl (.done _) (.done 5 _ _), nofun, rfl,
    .copyIn (q := 8) (d := [0xDE, 0xAD, 0xBE]) (by decide) (by decide) (by decide) rfl (.done _)⟩
/-- A second command, without arguments, whose handler reads the first one's bytes. -/
def reading : State :=
  { base with
    config := { Config.default with schema := { Schema.test with commandIndex :=
      [some { paramTypes := [.buffer], numArgs := 2, handler := some 0, inShutdown := false },
       some { paramTypes := [], numArgs := 0, handler := some 1, inShutdown := false }] } }
    input := buildFrame .standard (0 :: (lengthPrefixed [0xAA, 0xBB] ++ [1])) 0x10
    handlerRuns := [[], [.copyIn 64 (4 + 1) 1]] }
theorem witness_HandlerActionsTakeEffect_later :
    reading.needSync = false ∧ reading.seqTagged = true ∧ ([0xAA, 0xBB] : List Byte).length ≤ 56
      ∧ reading.input = buildFrame reading.config.crc (0 :: (lengthPrefixed [0xAA, 0xBB] ++ [1])) reading.nextSeq ++ []
      ∧ reading.config.schema.commandIndex[(0#8).toNat]?
          = some (some { paramTypes := [.buffer], numArgs := 2, handler := some 0, inShutdown := false })
      ∧ reading.config.schema.commandIndex[(1#8).toNat]?
          = some (some { paramTypes := [], numArgs := 0, handler := some 1, inShutdown := false })
      ∧ (reading.shutdown = true → false = true ∧ false = true) ∧ 1 + 1 ≤ ([0xAA, 0xBB] : List Byte).length
      ∧ reading.handlerRuns = [] :: [.copyIn 64 (4 + 1) 1] :: [] ∧ Memory.wf reading.data = true
      ∧ (64#32).toNat + 1 ≤ 2 ^ 32 :=
  ⟨rfl, rfl, by decide, rfl, rfl, rfl, nofun, by decide, rfl, rfl, by decide⟩
theorem witness_HandlerActionsTakeEffect_copyIn :
    0 + 2 ≤ ([0xAA, 0xBB] : List Byte).length ∧ (0xFFFFFFFE#32).toNat + 2 ≤ 2 ^ 32
      ∧ 4 + ([0xAA, 0xBB] : List Byte).length < 5 + 2 ∧ 3 < 4 := by decide

set_option maxRecDepth 100000 in
theorem witness_ArgFormsParse : isVlq [0x88, 0x80, 0x80, 0x80, 0x00] = true ∧ (List.replicate 255 (0 : Byte)).length ≤ 255 := by
  decide
theorem witness_ArgFormsParse_more :
    base.config.wf = true ∧ isVlq [0x05] = true
      ∧ { base with agenda := [.present .argByte ([0x05] ++ [0xAA])] }.agenda = .present .argByte ([0x05] ++ [0xAA]) :: []
      ∧ { base with agenda := [.present .argBuffer (lengthPrefixed [0xAA] ++ [0xBB])] }.agenda
          = .present .argBuffer (lengthPrefixed [0xAA] ++ [0xBB]) :: [] := by
  decide
theorem witness_ArgFormsParse_raises :
    base.config.wf = true ∧ (∀ b ∈ [0x80#8], b.msb = true)
      ∧ ([0x02, 0xAA] : List Byte).length < 1 + (byteAt [0x02, 0xAA] 0).toNat
      ∧ { base with agenda := [.present .argBuffer [0x02, 0xAA]] }.agenda = .present .argBuffer [0x02, 0xAA] :: [] := by
  decide
theorem witness_FrameFieldsEnterTheFifo_any :
    (Instr.frameCrc 0xF0CB).form? = some .frameCrc ∧ pollsInput (.frameCrc 0xF0CB) = true ∧ base.config.wf = true
      ∧ { base with agenda := [.present .frame [0x7E]] }.agenda = .present .frame [0x7E] :: [] := by decide
theorem witness_FrameFieldsEnterTheFifo :
    base.needSync = false ∧ viewWaits (base.input ++ [0x40]) = true ∧ viewWaits (base.input ++ [seqByte 15]) = true
      ∧ viewWaits (base.input ++ [hiByte 0xF0CB, loByte 0xF0CB]) = true ∧ viewWaits (base.input ++ [syncByte]) = true := by
  decide
theorem witness_FrameFieldsEnterTheFifo_resync :
    { fed [0x11, 0x22] with needSync := true, needValid := true }.needSync = true
      ∧ { fed [0x11, 0x22] with needSync := true, needValid := true }.needValid = true
      ∧ syncByte ∉ { fed [0x11, 0x22] with needSync := true, needValid := true }.input := by decide

set_option maxRecDepth 100000 in
/-- Also of StepKeepsConfigAndProgmem, CommittedFramesAreValid and OutputIsCommittedFrames. -/
theorem witness_StepKeepsInvariant :
    goodFrameIn.Inv = true ∧ ∃ t, step goodFrameIn = .next t ∧ t.nextSeq = 0x11 :=
  ⟨by decide, next_of_map (f := State.nextSeq) (by decide)⟩
theorem witness_OutputIsCommittedFrames_drain :
    ∃ t, step { base with agenda := [.drain 2], output := [1, 2, 3] } = .next t ∧ t.output = [3] :=
  next_of_map (f := State.output) (by decide)
set_option maxRecDepth 100000 in
/-- Also of OnlyFrameLayerWritesRegisters. -/
theorem witness_NextSeqAdvancesOnlyForExpectedFrame :
    ∃ t, exec (.frame 0 [0x07, 0x2A] 0x8A31) base = .next t ∧ t.nextSeq = 0x11 :=
  next_of_map (f := State.nextSeq) (by decide)
theorem witness_OnlyFrameLayerWritesRegisters :
    pollsInput .ackNak = false ∧ dispatches .ackNak = false
      ∧ ∃ t, exec .ackNak { base with grants := [false] } = .next t ∧ t.trace = [.drop] :=
  ⟨rfl, rfl, next_of_map (f := State.trace) (by decide)⟩
theorem witness_ShutdownIsNeverCleared :
    (down []).shutdown = true ∧ ∃ t, exec .poll (down []) = .next t ∧ t.shutdown = true :=
  ⟨rfl, next_of_map (f := State.shutdown) (by decide)⟩
theorem witness_QuiescentPollChangesNothing :
    (fed [0x07, 0x10, 0x07, 0x2A, 0x8A]).quiescent = true
      ∧ { base with needSync := true, needValid := true }.quiescent = true := by decide

end Sys2Proof.Tests
end

section
/-! No step changes the configuration or PROGMEM (O54). The shape: what one move and one step can do is said once
(`State.Makes`, `step_cases`), every meaning keeps the two fields, and so does every move. -/

namespace Sys2Proof.Machine

/-! ### What a call and a step can do -/

/-- The state a call ends in is the answered last state of its inner operation, or the answered state of a shutdown
raised there (R246). -/
theorem Ran.Post.outcome_next {α : Type} {Q : State → Prop} {r : Ran α} {f : α → Result} {t : State} (p : r.Post Q)
    (h : r.outcome f = .next t) :
    (∃ u a, Q u ∧ t = u.answer (f a)) ∨ ∃ u k, Q u ∧ t = (u.raiseShutdown k).answer (.shutdown k) := by
  cases r with
  | ok a u =>
    cases h
    exact .inl ⟨u, a, p, rfl⟩
  | ended k v =>
    cases h
    obtain ⟨u, q, rfl⟩ := p
    exact .inr ⟨u, k, q, rfl⟩
  | fault f => cases h
  | refused k => cases h

/-- `s.Makes m t`: in `s`, whose agenda no longer holds `m`, the move `m` leads to `t` (R57). The use of a stale pointer
leads nowhere (R292). -/
inductive State.Makes (s : State) : Move → State → Prop
  | call {i : Instr} {t : State} (ran : exec i s = .next t) : State.Makes s (.call i) t
  | decoded {f : Form} {bs : List Byte} {i : Instr} {t : State} (isForm : decodeAs f bs = .ok (i, []))
      (ran : exec i s = .next t) : State.Makes s (.present f bs) t
  | read {f : Form} {bs : List Byte} {t : State} (ran : s.readForm f bs = .next t) : State.Makes s (.present f bs) t
  | arrive (bs : List Byte) : State.Makes s (.arrive bs) (s.arrive bs)
  | drain (n : Nat) : State.Makes s (.drain n) (s.drain n)
  | setShutdown (on : Bool) (r : Half) : State.Makes s (.setShutdown on r) (s.setShutdown on r)
  | store {a : Word} {bs : List Byte} {t : State} (wrote : s.storeData a bs = some t) : State.Makes s (.store a bs) t
  | reserve (n : Nat) : State.Makes s (.reserve n) (s.outReserve n)

/-- Everything a step can do: with a well-formed schema it polls when the agenda is empty, else it makes the first move
of the agenda (R50, R57, R285). -/
theorem step_cases {s t : State} (h : step s = .next t) :
    s.config.wf = true ∧ ((s.agenda = [] ∧ exec .poll s = .next t)
      ∨ ∃ m rest, s.agenda = m :: rest ∧ State.Makes { s with agenda := rest } m t) := by
  unfold step State.fetch at h
  cases w : s.config.wf with
  | false =>
    rw [w] at h
    cases h
  | true =>
    refine ⟨rfl, ?_⟩
    rw [w, if_neg (by decide)] at h
    cases ha : s.agenda with
    | nil =>
      rw [ha] at h
      exact .inl ⟨rfl, h⟩
    | cons m rest =>
      rw [ha] at h
      refine .inr ⟨m, rest, rfl, ?_⟩
      cases m with
      | call i => exact .call h
      | present f bs =>
        simp only [State.takeMove] at h
        cases hd : decodeAs f bs with
        | error e =>
          rw [hd] at h
          exact .read h
        | ok r =>
          obtain ⟨i, left⟩ := r
          rw [hd] at h
          cases left with
          | nil => exact .decoded hd h
          | cons b left => exact .read h
      | arrive bs =>
        cases h
        exact .arrive bs
      | drain n =>
        cases h
        exact .drain n
      | setShutdown on r =>
        cases h
        exact .setShutdown on r
      | store a bs =>
        simp only [State.takeMove] at h
        cases hs : State.storeData a bs { s with agenda := rest } with
        | none =>
          rw [hs] at h
          cases h
        | some u =>
          rw [hs] at h
          cases h
          exact .store hs
      | reserve n =>
        cases h
        exact .reserve n
      | usePointer p => cases h

/-! ### What keeps the configuration and PROGMEM -/

/-- `t` has the configuration and the read-only memory of `s`. -/
structure State.KeepsSetup (s t : State) : Prop where
  config  : t.config = s.config
  progmem : t.progmem = s.progmem

theorem State.KeepsSetup.trans {s t u : State} (h : s.KeepsSetup t) (k : t.KeepsSetup u) : s.KeepsSetup u :=
  ⟨k.config.trans h.config, k.progmem.trans h.progmem⟩

/-- What is kept from a state is kept from any state with the same setup. -/
theorem State.KeepsSetup.of_eq {s s' t : State} (h : s'.KeepsSetup t) (config : s'.config = s.config)
    (progmem : s'.progmem = s.progmem) : s.KeepsSetup t :=
  ⟨h.config.trans config, h.progmem.trans progmem⟩

theorem State.Handled.keepsSetup {s t : State} (h : s.Handled t) : s.KeepsSetup t := ⟨h.config, h.progmem⟩

theorem State.offer_keepsSetup (n : Nat) (f : List Byte) (s : State) : s.KeepsSetup (s.offer n f) := by
  unfold State.offer
  split_ifs <;> exact ⟨rfl, rfl⟩

theorem State.nakOnce_keepsSetup (s : State) : s.KeepsSetup s.nakOnce := by
  rw [State.nakOnce_eq]
  split_ifs
  · exact ⟨rfl, rfl⟩
  · exact (State.offer_keepsSetup _ _ _).of_eq rfl rfl

theorem State.frameRx_keepsSetup (s : State) : s.KeepsSetup s.frameRx.2 := by
  have resynced : s.KeepsSetup s.scanned.nakOnce := s.scanned.nakOnce_keepsSetup.of_eq rfl rfl
  rcases s.frameRx_cases with ⟨_, e⟩ | ⟨_, _, e⟩ | ⟨_, _, e⟩ | ⟨_, _, _, e⟩ | ⟨_, e⟩ | ⟨_, _, _, e⟩ <;> rw [e]
  · exact resynced
  · exact ⟨rfl, rfl⟩
  · exact ⟨rfl, rfl⟩
  · exact resynced
  · exact (State.offer_keepsSetup _ _ _).of_eq rfl rfl
  · exact (State.offer_keepsSetup _ _ _).of_eq rfl rfl

theorem State.walkFrame_keepsSetup (view : List Byte) (msglen : Nat) (s : State) :
    (s.walkFrame view msglen).Post s.KeepsSetup := by
  rcases s.walkFrame_cases view msglen with ⟨u, h, e⟩ | ⟨r, u, h, e⟩ | ⟨f, e⟩ | ⟨r, e⟩ <;> rw [e]
  · exact h.keepsSetup.trans ⟨rfl, rfl⟩
  · exact ⟨u, h.keepsSetup, rfl⟩
  · trivial
  · trivial

theorem State.pollOnce_keepsSetup (s : State) : s.pollOnce.Post s.KeepsSetup := by
  have rx := s.frameRx_keepsSetup
  unfold State.pollOnce
  revert rx
  obtain ⟨_ | msglen, u⟩ := s.frameRx
  · exact id
  · exact fun rx => (u.walkFrame_keepsSetup s.inPeek msglen).mono fun _ => rx.trans

/-! ### Every meaning -/

theorem Ran.Post.outcome_keepsSetup {α : Type} {s t : State} {r : Ran α} {f : α → Result} (p : r.Post s.KeepsSetup)
    (h : r.outcome f = .next t) : s.KeepsSetup t := by
  rcases p.outcome_next h with ⟨u, a, k, rfl⟩ | ⟨u, r, k, rfl⟩ <;> exact k.trans ⟨rfl, rfl⟩

theorem Ran.Post.outcome_sent_keepsSetup {α : Type} {s t : State} {r : Ran α} {f : α → Result} (p : r.Post s.Sent)
    (h : r.outcome f = .next t) : s.KeepsSetup t :=
  (p.mono fun _ k => k.toHandled.keepsSetup).outcome_keepsSetup h

theorem execVlqEnc_keepsSetup {v : Word} {pos : Option Nat} {s t : State} (h : execVlqEnc v pos s = .next t) :
    s.KeepsSetup t := by
  unfold execVlqEnc at h
  split at h
  · cases h
    exact ⟨rfl, rfl⟩
  · split at h
    · cases h
    · split_ifs at h
      cases h
      exact ⟨rfl, rfl⟩

theorem execVlqDec_keepsSetup {bytes : List Byte} {p : Nat} {bound : Option Nat} {s t : State}
    (h : execVlqDec bytes p bound s = .next t) : s.KeepsSetup t := by
  cases bound with
  | none =>
    simp only [execVlqDec, vlqDecUnbounded] at h
    split at h
    · cases h
    · cases h
      exact ⟨rfl, rfl⟩
  | some stop =>
    simp only [execVlqDec, vlqDecBounded] at h
    split at h
    · exact (Ran.Post.ofStop s _).outcome_sent_keepsSetup h
    · cases h
      exact ⟨rfl, rfl⟩

theorem execEncodeArg_keepsSetup {ty : ArgType} {args : List Word} {p capEnd : Nat} {s t : State}
    (h : execEncodeArg ty args p capEnd s = .next t) : s.KeepsSetup t := by
  unfold execEncodeArg at h
  split at h
  · cases h
  · split at h
    · exact (Ran.Post.ofStop s _).outcome_sent_keepsSetup h
    · split_ifs at h
      cases h
      exact ⟨rfl, rfl⟩

theorem State.deliver_keepsSetup {bs : List Byte} {s t : State} (h : s.deliver bs = .next t) : s.KeepsSetup t :=
  ((s.arrive bs).pollOnce_keepsSetup.outcome_keepsSetup h).of_eq rfl rfl

theorem State.readCommand_keepsSetup {bs : List Byte} {s t : State} (h : s.readCommand bs = .next t) :
    s.KeepsSetup t := by
  cases bs with
  | nil =>
    cases h
    exact ⟨rfl, rfl⟩
  | cons id args =>
    exact ((s.commandTurn_post _ _ _ _).mono fun _ => State.Handled.keepsSetup).outcome_keepsSetup h

theorem State.readFirstByte_keepsSetup {bs : List Byte} {s t : State} (h : s.readFirstByte bs = .next t) :
    s.KeepsSetup t := by
  cases bs <;> cases h
  exact ⟨rfl, rfl⟩

theorem State.readVlq_keepsSetup {bs : List Byte} {s t : State} (h : s.readVlq bs = .next t) : s.KeepsSetup t := by
  unfold State.readVlq at h
  split at h
  · cases h
  · cases h
    exact ⟨rfl, rfl⟩

theorem State.readArg_keepsSetup {ty : ArgType} {bs : List Byte} {s t : State} (h : s.readArg ty bs = .next t) :
    s.KeepsSetup t := by
  have p : (Ran.ofExcept s (parseParams [ty] 0 0 bs)).Post s.Sent := by
    cases parseParams [ty] 0 0 bs with
    | error k => exact Ran.Post.ofStop s k
    | ok r => exact State.Sent.rfl' s
  exact p.outcome_sent_keepsSetup h

/-- The reader of every form keeps the setup, whatever bytes it is given. -/
theorem State.readForm_keepsSetup {f : Form} {bs : List Byte} {s t : State} (h : s.readForm f bs = .next t) :
    s.KeepsSetup t := by
  cases f with
  | frame | frameLen | frameSeq | frameCrc | frameSync | ackNakFrame => exact State.deliver_keepsSetup h
  | command => exact State.readCommand_keepsSetup h
  | vlqLastByte | vlqContByte | vlqSign => exact State.readFirstByte_keepsSetup h
  | vlq1 | vlq2 | vlq3 | vlq4 | vlq5 => exact State.readVlq_keepsSetup h
  | argUint32 | argInt32 | argUint16 | argInt16 | argByte | argBuffer | argString | argProgmemBuffer =>
    exact State.readArg_keepsSetup h

/-- Every instruction keeps the setup: the nine operations each by its own lemma, a wire form by its reader. -/
theorem exec_keepsSetup {i : Instr} {s t : State} (h : exec i s = .next t) : s.KeepsSetup t := by
  cases i with
  | crc16 bytes =>
    cases h
    exact ⟨rfl, rfl⟩
  | vlqEnc v pos => exact execVlqEnc_keepsSetup h
  | vlqDec bytes p bound => exact execVlqDec_keepsSetup h
  | frameRx =>
    cases h
    exact s.frameRx_keepsSetup.trans ⟨rfl, rfl⟩
  | ackNak =>
    cases h
    exact s.ackNak_sent.toHandled.keepsSetup.trans ⟨rfl, rfl⟩
  | frameTx id args => exact (s.frameTx_post id args).outcome_sent_keepsSetup h
  | parse p stop parser => exact (s.parse_post s.inPeek p stop parser).outcome_sent_keepsSetup h
  | encodeArg ty args p capEnd => exact execEncodeArg_keepsSetup h
  | poll => exact s.pollOnce_keepsSetup.outcome_keepsSetup h
  | _ => exact State.readForm_keepsSetup ((State.readForm_encode rfl s).trans h)

/-! ### Every move, every step -/

/-- Every move keeps the setup: the environment writes DATA, the FIFOs, the reservation and the shutdown state only. -/
theorem State.Makes.keepsSetup {s t : State} {m : Move} (h : s.Makes m t) : s.KeepsSetup t := by
  cases h with
  | call ran => exact exec_keepsSetup ran
  | decoded _ ran => exact exec_keepsSetup ran
  | read ran => exact State.readForm_keepsSetup ran
  | arrive bs => exact ⟨rfl, rfl⟩
  | drain n => exact ⟨rfl, rfl⟩
  | setShutdown on r => exact ⟨rfl, rfl⟩
  | store wrote => exact (State.storeData_handled wrote).keepsSetup
  | reserve n => exact (s.outReserve_sent n).toHandled.keepsSetup

theorem step_keepsSetup {s t : State} (h : step s = .next t) : s.KeepsSetup t := by
  obtain ⟨-, ⟨-, polled⟩ | ⟨m, rest, -, made⟩⟩ := step_cases h
  · exact exec_keepsSetup polled
  · exact made.keepsSetup.of_eq rfl rfl

/-- Settles O54: an empty agenda polls and every other step makes one move, and both keep the two fields. -/
theorem stepKeepsConfigAndProgmem : Obligations.StepKeepsConfigAndProgmem := by
  unfold Obligations.StepKeepsConfigAndProgmem
  intro s t h
  obtain ⟨config, progmem⟩ := step_keepsSetup h
  exact ⟨config, progmem⟩

end Sys2Proof.Machine
end

section
/-! Reset meets the invariant, every step keeps it, and each instruction writes only the fields of its kind (O2, O53,
O59). The shape: what FRAME_RX writes (`State.Listened`) and what any instruction can do (`State.Ends`) is said once, and
the invariant and the frame facts are read off. -/

namespace Sys2Proof.Machine

/-- Settles O2: the reset state is a literal, and its memories list nothing. -/
theorem resetMeetsInvariant : Obligations.ResetMeetsInvariant := by
  unfold Obligations.ResetMeetsInvariant
  decide

/-! ### What FRAME_RX writes -/

/-- `s.Listened u`: `u` is `s` after FRAME_RX's own writes, before its ACK or NAK. They leave the agenda, the memories and
the handlers' script, and the number stays tagged and the NAK latch set in a resync (R32). -/
structure State.Listened (s u : State) : Prop where
  agenda      : u.agenda = s.agenda
  data        : u.data = s.data
  progmem     : u.progmem = s.progmem
  handlerRuns : u.handlerRuns = s.handlerRuns
  tagged      : s.seqTagged = true → u.seqTagged = true
  latched     : s.latched = true → u.latched = true

/-- The number R140 stores has its tag, whatever the frame's byte. -/
theorem tagOk_nextSeqAfter (b : Byte) : tagOk (nextSeqAfter b) = true := by
  revert b
  decide

theorem State.latched_of_synced {s : State} (h : s.needSync = false) : s.latched = true := by
  simp [State.latched, h]

/-- The NAK latch sets `NEED_VALID`, then sends at most one frame (R145, R146). -/
theorem State.nakOnce_sent (s : State) : State.Sent { s with needValid := true } s.nakOnce := by
  unfold State.nakOnce
  split_ifs with h
  · rw [← h]
    exact State.Sent.rfl' s
  · exact State.ackNak_sent _

/-- FRAME_RX writes its registers, then sends at most one frame (R131 to R147). -/
theorem State.frameRx_listened (s : State) : ∃ u, s.Listened u ∧ u.Sent s.frameRx.2 := by
  have resynced : ∃ u, s.Listened u ∧ u.Sent s.scanned.nakOnce := by
    refine ⟨_, ?_, s.scanned.nakOnce_sent⟩
    exact ⟨rfl, rfl, rfl, rfl, id, fun _ => Bool.or_true _⟩
  rcases s.frameRx_cases with ⟨_, e⟩ | ⟨_, _, e⟩ | ⟨_, _, e⟩ | ⟨_, _, _, e⟩ | ⟨a, e⟩ | ⟨h, _, _, e⟩ <;> rw [e]
  · exact resynced
  · exact ⟨s, ⟨rfl, rfl, rfl, rfl, id, id⟩, .rfl' s⟩
  · exact ⟨s.inPop 1, ⟨rfl, rfl, rfl, rfl, id, id⟩, .rfl' _⟩
  · exact resynced
  · have h : s.needSync = false := by
      simp only [State.accepts, Bool.and_eq_true, Bool.not_eq_true'] at a
      exact a.1.1
    unfold State.accepted
    rw [← State.ackNak_eq_offer]
    refine ⟨_, ?_, State.ackNak_sent _⟩
    exact ⟨rfl, rfl, rfl, rfl, fun _ => tagOk_nextSeqAfter _, fun _ => State.latched_of_synced h⟩
  · have discarded := State.ackNak_sent (State.inPop (byteAt s.input 0).toNat { s with needValid := false })
    rw [State.ackNak_eq_offer] at discarded
    refine ⟨_, ?_, discarded⟩
    exact ⟨rfl, rfl, rfl, rfl, id, fun _ => State.latched_of_synced h⟩

/-! ### What an instruction can do -/

/-- `s.Ends polls runs t`: an instruction that gives the input to FRAME_RX when `polls`, and may run handlers when
`runs`, takes `s` to `t`. It only sends; or runs commands; or is FRAME_RX; or bytes arrive, FRAME_RX runs, then commands
do, and the frame is popped or is not (R227, R248). -/
inductive State.Ends (s : State) : Bool → Bool → State → Prop
  | sent {u : State} (keeps : s.Sent u) (r : Result) : State.Ends s false false (u.answer r)
  | handled {u : State} (keeps : s.Handled u) (r : Result) : State.Ends s false true (u.answer r)
  | received (r : Result) : State.Ends s true false (s.frameRx.2.answer r)
  | polled {bs : List Byte} {u : State} (keeps : (s.arrive bs).frameRx.2.Handled u) (r : Result) :
      State.Ends s true true (u.answer r)
  | popped {bs : List Byte} {u : State} (keeps : (s.arrive bs).frameRx.2.Handled u) (n : Nat) (r : Result) :
      State.Ends s true true ((u.inPop n).answer r)

theorem Ran.Post.outcome_sent_ends {α : Type} {s t : State} {r : Ran α} {f : α → Result} (p : r.Post s.Sent)
    (h : r.outcome f = .next t) : s.Ends false false t := by
  rcases p.outcome_next h with ⟨u, a, k, rfl⟩ | ⟨u, r, k, rfl⟩
  · exact .sent k _
  · exact .sent (k.trans (.raiseShutdown u r)) _

theorem Ran.Post.outcome_handled_ends {α : Type} {s t : State} {r : Ran α} {f : α → Result} (p : r.Post s.Handled)
    (h : r.outcome f = .next t) : s.Ends false true t := by
  rcases p.outcome_next h with ⟨u, a, k, rfl⟩ | ⟨u, r, k, rfl⟩
  · exact .handled k _
  · exact .handled (k.trans (State.Sent.raiseShutdown u r).toHandled) _

theorem State.outWrite_sent (p : Nat) (bs : List Byte) (s : State) : s.Sent (s.outWrite p bs) :=
  ⟨⟨rfl, rfl, rfl, rfl, rfl, rfl, rfl, rfl, id, id, [], by simp [committed]⟩, rfl, rfl⟩

theorem execVlqEnc_ends {v : Word} {pos : Option Nat} {s t : State} (h : execVlqEnc v pos s = .next t) :
    s.Ends false false t := by
  unfold execVlqEnc at h
  split at h
  · cases h
    exact .sent (.rfl' s) _
  · split at h
    · cases h
    · split_ifs at h
      cases h
      exact .sent (s.outWrite_sent _ _) _

theorem execVlqDec_ends {bytes : List Byte} {p : Nat} {bound : Option Nat} {s t : State}
    (h : execVlqDec bytes p bound s = .next t) : s.Ends false false t := by
  cases bound with
  | none =>
    simp only [execVlqDec, vlqDecUnbounded] at h
    split at h
    · cases h
    · cases h
      exact .sent (.rfl' s) _
  | some stop =>
    simp only [execVlqDec, vlqDecBounded] at h
    split at h
    · exact (Ran.Post.ofStop s _).outcome_sent_ends h
    · cases h
      exact .sent (.rfl' s) _

theorem execEncodeArg_ends {ty : ArgType} {args : List Word} {p capEnd : Nat} {s t : State}
    (h : execEncodeArg ty args p capEnd s = .next t) : s.Ends false false t := by
  unfold execEncodeArg at h
  split at h
  · cases h
  · split at h
    · exact (Ran.Post.ofStop s _).outcome_sent_ends h
    · split_ifs at h
      cases h
      exact .sent (s.outWrite_sent _ _) _

theorem State.readVlqByte_ends {c : Byte} {s t : State} (h : s.readVlqByte c = .next t) : s.Ends false false t := by
  cases h
  exact .sent (.rfl' s) _

theorem State.readVlq_ends {bs : List Byte} {s t : State} (h : s.readVlq bs = .next t) : s.Ends false false t := by
  unfold State.readVlq at h
  split at h
  · cases h
  · cases h
    exact .sent (.rfl' s) _

theorem State.readArg_ends {ty : ArgType} {bs : List Byte} {s t : State} (h : s.readArg ty bs = .next t) :
    s.Ends false false t := by
  have p : (Ran.ofExcept s (parseParams [ty] 0 0 bs)).Post s.Sent := by
    cases parseParams [ty] 0 0 bs with
    | error k => exact Ran.Post.ofStop s k
    | ok r => exact State.Sent.rfl' s
  exact p.outcome_sent_ends h

theorem execCommand_ends {id : Byte} {args : List Byte} {s t : State} (h : execCommand id args s = .next t) :
    s.Ends false true t :=
  (s.commandTurn_post _ _ _ _).outcome_handled_ends h

/-- Bytes arrive and a POLL takes them: FRAME_RX, then the walk of the frame it returned, if any (R228). -/
theorem State.deliver_ends {bs : List Byte} {s t : State} (h : s.deliver bs = .next t) : s.Ends true true t := by
  unfold State.deliver State.pollOnce at h
  split at h
  · next v e =>
    cases h
    exact .polled (bs := bs) (e ▸ .rfl' v) _
  · next msglen v e =>
    rcases v.walkFrame_cases (s.arrive bs).inPeek msglen with ⟨u, k, w⟩ | ⟨r, u, k, w⟩ | ⟨f, w⟩ | ⟨r, w⟩ <;>
      rw [w] at h <;> cases h
    · exact .popped (bs := bs) (e ▸ k) msglen _
    · exact .polled (bs := bs) (e ▸ k.trans (State.Sent.raiseShutdown u r).toHandled) _

/-- A POLL is a delivery of no byte. -/
theorem execPoll_eq_deliver (s : State) : execPoll s = s.deliver [] := by
  rw [State.deliver, State.arrive, List.append_nil]
  rfl

/-- The inversion of `exec`: every instruction ends in one of the ways of its kind. -/
theorem exec_ends {i : Instr} {s t : State} (h : exec i s = .next t) : s.Ends (pollsInput i) (dispatches i) t := by
  cases i with
  | crc16 bytes =>
    cases h
    exact .sent (.rfl' s) _
  | vlqEnc v pos => exact execVlqEnc_ends h
  | vlqDec bytes p bound => exact execVlqDec_ends h
  | frameRx =>
    cases h
    exact .received _
  | ackNak =>
    cases h
    exact .sent s.ackNak_sent _
  | frameTx id args => exact (s.frameTx_post id args).outcome_sent_ends h
  | parse p stop parser => exact (s.parse_post s.inPeek p stop parser).outcome_sent_ends h
  | encodeArg ty args p capEnd => exact execEncodeArg_ends h
  | poll => exact State.deliver_ends ((execPoll_eq_deliver s).symm.trans h)
  | frame | frameLen | frameSeq | frameCrc | frameSync | ackNakFrame => exact State.deliver_ends h
  | command id args => exact execCommand_ends h
  | vlqLastByte | vlqContByte | vlqSign => exact State.readVlqByte_ends h
  | vlq1 | vlq2 | vlq3 | vlq4 | vlq5 => exact State.readVlq_ends h
  | argUint32 | argInt32 | argUint16 | argInt16 | argByte | argBuffer => exact State.readArg_ends h
  | argString data => exact State.readArg_ends (ty := .string) (bs := lengthPrefixed data) h
  | argProgmemBuffer data => exact State.readArg_ends (ty := .progmemBuffer) (bs := lengthPrefixed data) h

/-- The inversion of `readForm`, whatever bytes the reader is given. -/
theorem State.readForm_ends {f : Form} {bs : List Byte} {s t : State} (h : s.readForm f bs = .next t) :
    ∃ polls runs, s.Ends polls runs t := by
  cases f with
  | frame | frameLen | frameSeq | frameCrc | frameSync | ackNakFrame => exact ⟨_, _, State.deliver_ends h⟩
  | command =>
    cases bs with
    | nil =>
      cases h
      exact ⟨_, _, .sent (.rfl' s) _⟩
    | cons id args => exact ⟨_, _, execCommand_ends h⟩
  | vlqLastByte | vlqContByte | vlqSign =>
    cases bs with
    | nil => cases h
    | cons c bs => exact ⟨_, _, State.readVlqByte_ends (c := c) h⟩
  | vlq1 | vlq2 | vlq3 | vlq4 | vlq5 => exact ⟨_, _, State.readVlq_ends h⟩
  | argUint32 | argInt32 | argUint16 | argInt16 | argByte | argBuffer | argString | argProgmemBuffer =>
    exact ⟨_, _, State.readArg_ends h⟩

/-! ### The invariant (O53) -/

/-- The invariant is kept where the memories and the two parts of R32 are. -/
theorem State.Inv.of_parts {s t : State} (inv : s.Inv = true) (tagged : s.seqTagged = true → t.seqTagged = true)
    (latched : s.latched = true → t.latched = true) (data : Memory.wf s.data = true → Memory.wf t.data = true)
    (progmem : t.progmem = s.progmem) : t.Inv = true := by
  simp only [State.Inv, Bool.and_eq_true, progmem] at inv ⊢
  obtain ⟨⟨⟨hs, hl⟩, hd⟩, hp⟩ := inv
  exact ⟨⟨⟨tagged hs, latched hl⟩, data hd⟩, hp⟩

theorem State.Handled.inv {s t : State} (h : s.Handled t) (inv : s.Inv = true) : t.Inv = true :=
  State.Inv.of_parts inv (by simp [State.seqTagged, h.nextSeq]) (by simp [State.latched, h.needSync, h.needValid])
    h.dataWf h.progmem

theorem State.Listened.inv {s u : State} (h : s.Listened u) (inv : s.Inv = true) : u.Inv = true :=
  State.Inv.of_parts inv h.tagged h.latched (by simp [h.data]) h.progmem

theorem State.frameRx_inv {s : State} (inv : s.Inv = true) : s.frameRx.2.Inv = true := by
  obtain ⟨u, listened, sent⟩ := s.frameRx_listened
  exact sent.toHandled.inv (listened.inv inv)

/-- However an instruction ends, the invariant holds: answers, arrivals and pops touch none of its fields. -/
theorem State.Ends.inv {s t : State} {polls runs : Bool} (h : s.Ends polls runs t) (inv : s.Inv = true) :
    t.Inv = true := by
  cases h with
  | sent keeps r => exact keeps.toHandled.inv inv
  | handled keeps r => exact keeps.inv inv
  | received r => exact State.frameRx_inv inv
  | polled keeps r => exact keeps.inv (State.frameRx_inv inv)
  | popped keeps n r => exact keeps.inv (State.frameRx_inv inv)

theorem State.Makes.inv {s t : State} {m : Move} (h : s.Makes m t) (inv : s.Inv = true) : t.Inv = true := by
  cases h with
  | call ran => exact (exec_ends ran).inv inv
  | decoded _ ran => exact (exec_ends ran).inv inv
  | read ran =>
    obtain ⟨_, _, ends⟩ := State.readForm_ends ran
    exact ends.inv inv
  | arrive | drain | setShutdown => exact inv
  | store wrote => exact (State.storeData_handled wrote).inv inv
  | reserve n => exact (s.outReserve_sent n).toHandled.inv inv

/-- Settles O53: an empty agenda polls and every other step makes one move, and both keep the invariant. -/
theorem stepKeepsInvariant : Obligations.StepKeepsInvariant := by
  unfold Obligations.StepKeepsInvariant
  intro s t inv h
  obtain ⟨-, ⟨-, polled⟩ | ⟨m, rest, -, made⟩⟩ := step_cases h
  · exact (exec_ends polled).inv inv
  · exact made.inv inv

/-! ### The frame of every instruction (O59) -/

theorem State.frameRx_agenda (s : State) : s.frameRx.2.agenda = s.agenda := by
  obtain ⟨u, listened, sent⟩ := s.frameRx_listened
  exact sent.agenda.trans listened.agenda

theorem State.Ends.agenda {s t : State} {polls runs : Bool} (h : s.Ends polls runs t) : t.agenda = s.agenda := by
  cases h with
  | sent keeps r => exact keeps.agenda
  | handled keeps r => exact keeps.agenda
  | received r => exact s.frameRx_agenda
  | polled keeps r => exact keeps.agenda.trans (State.frameRx_agenda _)
  | popped keeps n r => exact keeps.agenda.trans (State.frameRx_agenda _)

/-- What does not give the input to FRAME_RX keeps the registers and the input (R20). -/
theorem State.Ends.sameRegs {s t : State} {runs : Bool} (h : s.Ends false runs t) : s.sameRegs t := by
  cases h with
  | sent keeps r => exact ⟨keeps.nextSeq, keeps.needSync, keeps.needValid, keeps.input⟩
  | handled keeps r => exact ⟨keeps.nextSeq, keeps.needSync, keeps.needValid, keeps.input⟩

/-- What runs no handler keeps DATA and the handlers' script (R225). -/
theorem State.Ends.data {s t : State} {polls : Bool} (h : s.Ends polls false t) :
    t.data = s.data ∧ t.handlerRuns = s.handlerRuns := by
  cases h with
  | sent keeps r => exact ⟨keeps.data, keeps.handlerRuns⟩
  | received r =>
    obtain ⟨u, listened, sent⟩ := s.frameRx_listened
    exact ⟨sent.data.trans listened.data, sent.handlerRuns.trans listened.handlerRuns⟩

/-- Settles O59: each instruction ends in a way of its kind, and the kind says what is kept. -/
theorem onlyFrameLayerWritesRegisters : Obligations.OnlyFrameLayerWritesRegisters := by
  unfold Obligations.OnlyFrameLayerWritesRegisters
  intro i s t h
  obtain ⟨config, progmem⟩ := exec_keepsSetup h
  have ends := exec_ends h
  refine ⟨⟨config, progmem, ends.agenda⟩, fun quiet => ?_, fun handlerless => ?_⟩
  · rw [quiet] at ends
    exact ends.sameRegs
  · rw [handlerless] at ends
    exact ends.data

end Sys2Proof.Machine
end

section
/-! What one step does, as equations: it refuses an ill-formed schema (O5), runs what is called or decoded (O3), and makes
the moves of the environment (O4), a task's store among them (O6). -/

namespace Sys2Proof.Machine

/-! ### The fetch -/

theorem State.fetch_illFormed {s : State} (w : s.config.wf = false) : s.fetch = .refused .schemaIllFormed := by
  simp [State.fetch, w]

theorem State.fetch_nil {s : State} (w : s.config.wf = true) (h : s.agenda = []) : s.fetch = .run .poll s := by
  simp [State.fetch, w, h]

theorem State.fetch_cons {s : State} {m : Move} {rest : List Move} (w : s.config.wf = true)
    (h : s.agenda = m :: rest) : s.fetch = State.takeMove m { s with agenda := rest } := by
  simp [State.fetch, w, h]

/-! ### Running an instruction (O3) -/

theorem step_call {s : State} {i : Instr} {rest : List Move} (w : s.config.wf = true)
    (h : s.agenda = .call i :: rest) : step s = exec i { s with agenda := rest } := by
  rw [step, State.fetch_cons w h]
  rfl

theorem step_poll {s : State} (w : s.config.wf = true) (h : s.agenda = []) : step s = exec .poll s := by
  rw [step, State.fetch_nil w h]

theorem step_decoded {s : State} {f : Form} {bs : List Byte} {i : Instr} {rest : List Move} (w : s.config.wf = true)
    (h : s.agenda = .present f bs :: rest) (isForm : decodeAs f bs = .ok (i, [])) :
    step s = exec i { s with agenda := rest } := by
  rw [step, State.fetch_cons w h, State.takeMove, isForm]

/-- A table word that decodes is, as bytes, exactly one instruction of the form they are classified as (log 18). -/
theorem decodeTableWord_some {nbits w : Nat} {i : Instr} (h : decodeTableWord nbits w = some i) :
    decodeAs (classify (wordBytes nbits w)) (wordBytes nbits w) = .ok (i, []) := by
  unfold decodeTableWord at h
  split at h
  · next e =>
    cases h
    exact e
  · cases h
  · cases h

/-- Settles O3: the fetch of each kind of move, and a placed word is a presented move. -/
theorem stepRunsDecodedInstruction : Obligations.StepRunsDecodedInstruction := by
  unfold Obligations.StepRunsDecodedInstruction
  exact ⟨fun _ _ _ => step_call, fun _ _ _ _ _ => step_decoded, fun _ => step_poll,
    fun s nbits w _ wf word => step_decoded (s := s.withFetchWord nbits w) wf rfl (decodeTableWord_some word)⟩

/-! ### The environment's moves (O4) -/

theorem step_moved {s t : State} {m : Move} {rest : List Move} (w : s.config.wf = true) (h : s.agenda = m :: rest)
    (moved : State.takeMove m { s with agenda := rest } = .moved t) : step s = .next t := by
  rw [step, State.fetch_cons w h, moved]

theorem step_fault {s : State} {m : Move} {rest : List Move} {f : Fault} (w : s.config.wf = true)
    (h : s.agenda = m :: rest) (faults : State.takeMove m { s with agenda := rest } = .fault f) :
    step s = .fault f := by
  rw [step, State.fetch_cons w h, faults]

/-- Settles O4: each move is one operation on the state whose agenda no longer holds it. -/
theorem stepMakesEnvironmentMoves : Obligations.StepMakesEnvironmentMoves := by
  unfold Obligations.StepMakesEnvironmentMoves
  intro s m rest w h
  refine ⟨?arrive, ?drain, ?setShutdown, ?granted, ?refused, ?usePointer⟩
  case arrive =>
    rintro bs rfl
    exact step_moved w h rfl
  case drain =>
    rintro n rfl
    exact step_moved w h rfl
  case setShutdown =>
    rintro on r rfl
    exact step_moved w h rfl
  case granted =>
    rintro n rfl grant
    exact step_moved w h (congrArg Fetched.moved (State.outReserve_granted (s := { s with agenda := rest }) grant))
  case refused =>
    rintro n rfl refuse
    exact step_moved w h (congrArg Fetched.moved (State.outReserve_refused (s := { s with agenda := rest }) refuse))
  case usePointer =>
    rintro p rfl
    exact step_fault w h rfl

/-! ### The schema (O5) -/

/-- The words the parameters fill: one for an integer, two for a buffer, none for another type (R27). -/
theorem sum_argWords (ts : List ArgType) :
    (ts.map ArgType.argWords).sum = ts.countP ArgType.isInt + 2 * ts.count .buffer := by
  induction ts with
  | nil => rfl
  | cons t ts ih =>
    have one : t.argWords = (if t.isInt then 1 else 0) + 2 * (if t == .buffer then 1 else 0) := by
      cases t <;> rfl
    rw [List.map_cons, List.sum_cons, List.countP_cons, List.count_cons, ih, one]
    omega

theorem Parser.wf_iff (p : Parser) :
    p.wf = true ↔ p.numArgs = p.paramTypes.countP ArgType.isInt + 2 * p.paramTypes.count .buffer ∧ p.handler ≠ none := by
  simp [Parser.wf, sum_argWords, Option.isSome_iff_ne_none]

theorem Encoder.wf_iff (e : Encoder) : e.wf = true ↔ 1 ≤ e.maxSize ∧ e.maxSize ≤ 59 := by
  simp [Encoder.wf]

/-- The check of R50 in full. -/
theorem Schema.wf_iff (c : Schema) :
    c.wf = true ↔ c.commandIndex.length ≤ 256 ∧ (∀ p, some p ∈ c.commandIndex → p.wf = true)
      ∧ (∀ e ∈ c.commandEncoders, e.wf = true)
      ∧ ∃ e, c.commandEncoders[c.encIsShutdown]? = some e ∧ e.paramTypes = [.uint16] := by
  simp only [Schema.wf, Bool.and_eq_true, decide_eq_true_eq, List.all_eq_true, and_assoc]
  refine and_congr_right' (and_congr ?entries (and_congr_right' ?isShutdown))
  case entries =>
    refine ⟨fun h p mem => h (some p) mem, fun h o mem => ?_⟩
    cases o with
    | none => rfl
    | some p => exact h p mem
  case isShutdown =>
    cases c.commandEncoders[c.encIsShutdown]? <;> simp

/-- Settles O5: each part of the check says its condition of R50, and the fetch makes the check first. -/
theorem schemaCheckedBeforeEveryStep : Obligations.SchemaCheckedBeforeEveryStep := by
  unfold Obligations.SchemaCheckedBeforeEveryStep
  refine ⟨fun c => ?_, fun s w => ?_⟩
  · simp only [Config.wf, Schema.wf_iff, Parser.wf_iff, Encoder.wf_iff]
  · rw [step, State.fetch_illFormed w]

/-! ### A task's store (O6) -/

theorem Memory.write_inside {m : Memory} {x : Nat} {bs : List Byte} (h : x + bs.length ≤ Memory.size) :
    ∃ m', Memory.write m x bs = some m' :=
  ⟨_, if_pos h⟩

theorem Memory.write_outside {m : Memory} {x : Nat} {bs : List Byte} (h : Memory.size < x + bs.length) :
    Memory.write m x bs = none :=
  if_neg (by omega)

theorem State.takeMove_store {s : State} {a : Word} {bs : List Byte} {m : Memory}
    (h : Memory.write s.data a.toNat bs = some m) : State.takeMove (.store a bs) s = .moved { s with data := m } := by
  simp only [State.takeMove, State.storeData, h]

theorem State.takeMove_store_outside {s : State} {a : Word} {bs : List Byte}
    (h : Memory.write s.data a.toNat bs = none) :
    State.takeMove (.store a bs) s = .fault .addressOutsideSpace := by
  simp only [State.takeMove, State.storeData, h]

/-- Settles O6: the step writes DATA once, and the laws of a memory write say what is then read. -/
theorem storeThenReadBack : Obligations.StoreThenReadBack := by
  unfold Obligations.StoreThenReadBack
  intro s a bs rest w canonical h
  refine ⟨fun inside => ?_, fun outside => ?_⟩
  · obtain ⟨m, wrote⟩ := Memory.write_inside (m := s.data) inside
    refine ⟨m, step_moved w h (State.takeMove_store wrote), Memory.write_wf canonical wrote, fun j hj => ?_,
      fun x hx => ?_⟩
    · rw [Memory.write_get canonical wrote, if_pos (by omega), Nat.add_sub_cancel_left, byteAt]
    · rw [Memory.write_get canonical wrote, if_neg (by omega)]
  · exact step_fault w h (State.takeMove_store_outside (Memory.write_outside outside))

end Sys2Proof.Machine
end

section
/-! The output grows by the committed frames of a step, and only the drain takes from it (O56). The shape: every operation
appends events to the trace and, to the output, just what those events commit (`State.Publishes`); the inversions
`frameRx_cases`, `exec_ends` and `step_cases` carry this to every step. -/

namespace Sys2Proof.Machine

/-- From `s` to `t` the output has grown by exactly the committed frames among the events added (R47, R58(b)). -/
def State.Publishes (s t : State) : Prop :=
  ∃ es, t.trace = s.trace ++ es ∧ t.output = s.output ++ committed es

theorem State.Publishes.trans {s t u : State} (h : s.Publishes t) (k : t.Publishes u) : s.Publishes u := by
  obtain ⟨es, he, ho⟩ := h
  obtain ⟨fs, hf, hp⟩ := k
  exact ⟨es ++ fs, by rw [hf, he, List.append_assoc], by rw [hp, ho, committed_append, List.append_assoc]⟩

/-- An operation that adds no event and leaves the output. -/
theorem State.Publishes.of_eq {s t : State} (trace : t.trace = s.trace) (output : t.output = s.output) :
    s.Publishes t :=
  ⟨[], by simp [trace], by simp [output, committed]⟩

theorem State.inPop_publishes (n : Nat) (s : State) : s.Publishes (s.inPop n) :=
  ⟨[.pop n], rfl, by simp [committed]⟩

theorem State.Handled.publishes {s t : State} (h : s.Handled t) : s.Publishes t := by
  obtain ⟨es, he, ho, -⟩ := h.trace
  exact ⟨es, he, ho⟩

theorem State.offer_publishes (n : Nat) (f : List Byte) (s : State) : s.Publishes (s.offer n f) := by
  unfold State.offer
  split_ifs
  · exact ⟨[.commit f], rfl, by simp [committed]⟩
  · exact ⟨[.drop], rfl, by simp [committed]⟩

/-- The scan of a resync and the NAK after it (R144 to R146). -/
theorem State.scanned_nakOnce_publishes (s : State) : s.Publishes s.scanned.nakOnce := by
  have scan : s.Publishes s.scanned := ⟨[.pop (syncScan s.input)], rfl, by simp [committed, State.scanned]⟩
  exact scan.trans s.scanned.nakOnce_sent.toHandled.publishes

theorem State.frameRx_publishes (s : State) : s.Publishes s.frameRx.2 := by
  rcases s.frameRx_cases with ⟨_, e⟩ | ⟨_, _, e⟩ | ⟨_, _, e⟩ | ⟨_, _, _, e⟩ | ⟨_, e⟩ | ⟨_, _, _, e⟩ <;> rw [e]
  · exact s.scanned_nakOnce_publishes
  · exact .of_eq rfl rfl
  · exact s.inPop_publishes 1
  · exact s.scanned_nakOnce_publishes
  · exact State.offer_publishes 5 _ { s with needValid := false, nextSeq := _ }
  · exact (State.inPop_publishes _ { s with needValid := false }).trans (State.offer_publishes 5 _ _)

/-- However an instruction ends, its events say what it committed: answers and arrivals touch neither. -/
theorem State.Ends.publishes {s t : State} {polls runs : Bool} (h : s.Ends polls runs t) : s.Publishes t := by
  cases h with
  | sent keeps r => exact keeps.toHandled.publishes
  | handled keeps r => exact keeps.publishes
  | received r => exact s.frameRx_publishes
  | @polled bs u keeps r => exact (s.arrive bs).frameRx_publishes.trans keeps.publishes
  | @popped bs u keeps n r =>
    exact ((s.arrive bs).frameRx_publishes.trans keeps.publishes).trans (u.inPop_publishes n)

/-- Every move but the drain. -/
theorem State.Makes.publishes_or_drains {s t : State} {m : Move} (h : s.Makes m t) :
    s.Publishes t ∨ ∃ n, m = .drain n ∧ t.output = s.output.drop n := by
  cases h with
  | drain n => exact .inr ⟨n, rfl, rfl⟩
  | call ran => exact .inl (exec_ends ran).publishes
  | decoded _ ran => exact .inl (exec_ends ran).publishes
  | read ran =>
    obtain ⟨_, _, ends⟩ := State.readForm_ends ran
    exact .inl ends.publishes
  | arrive | setShutdown => exact .inl (.of_eq rfl rfl)
  | store wrote => exact .inl (State.storeData_handled wrote).publishes
  | reserve n => exact .inl (s.outReserve_sent n).toHandled.publishes

/-- Settles O56: an empty agenda polls, and of all the moves only the drain takes from the output. -/
theorem outputIsCommittedFrames : Obligations.OutputIsCommittedFrames := by
  unfold Obligations.OutputIsCommittedFrames
  intro s t h
  obtain ⟨-, ⟨-, polled⟩ | ⟨m, rest, agenda, made⟩⟩ := step_cases h
  · exact .inl (exec_ends polled).publishes
  · obtain published | ⟨n, rfl, drained⟩ := made.publishes_or_drains
    · exact .inl published
    · exact .inr ⟨n, rest, agenda, drained⟩

end Sys2Proof.Machine
end

section
/-! The wire forms and their bytes (O7 to O10): each decoder reads what `encode` writes and drops no bit, and a built
frame is valid. The shape: one lemma per kind of form in each direction, from the field lemmas of Laws/Decode, then a
case split over the instructions, or over the forms. -/

namespace Sys2Proof

open Sys2Proof.Machine

/-- Settles O7: each word is read by its decoder. -/
theorem decodedSampleWords : Obligations.DecodedSampleWords := by
  unfold Obligations.DecodedSampleWords
  exact ⟨rfl, rfl, rfl, rfl, rfl, rfl, rfl, rfl, rfl, rfl, rfl, rfl⟩

/-! ### Fields of one byte -/

theorem lastByte_msb (d : BitVec 7) : (d.setWidth 8 : Byte).msb = false := by revert d; decide

theorem contByte_msb (d : BitVec 7) : (0x80#8 ||| d.setWidth 8).msb = true := by revert d; decide

theorem contByte_data (d : BitVec 7) : (0x80#8 ||| d.setWidth 8).setWidth 7 = d := by revert d; decide

/-- The VLQ byte with both sign bits set (R77). -/
def signByte (more : Bool) (d : BitVec 5) : Byte := (if more then 0xE0#8 else 0x60#8) ||| d.setWidth 8

theorem encode_vlqSign (more : Bool) (d : BitVec 5) : encode (.vlqSign more d) = [signByte more d] := rfl

theorem signByte_signBits (more : Bool) (d : BitVec 5) : signByte more d &&& 0x60#8 = 0x60#8 := by
  revert more d; decide

theorem signByte_msb (more : Bool) (d : BitVec 5) : (signByte more d).msb = more := by revert more d; decide

theorem signByte_low (more : Bool) (d : BitVec 5) : (signByte more d).setWidth 5 = d := by revert more d; decide

theorem lastByte_of_msb (b : Byte) (h : b.msb = false) : (b.setWidth 7).setWidth 8 = b := by revert b; decide

theorem contByte_of_msb (b : Byte) (h : b.msb = true) : 0x80#8 ||| (b.setWidth 7).setWidth 8 = b := by revert b; decide

theorem signByte_of_signBits (b : Byte) (h : b &&& 0x60#8 = 0x60#8) : signByte b.msb (b.setWidth 5) = b := by
  revert b; decide

/-! ### The longest VLQ row: bits 6:4 of its first byte are clear (R78) -/

theorem groupBytes_cons {w : Nat} (v : BitVec w) {k : Nat} (hk : 1 ≤ k) :
    groupBytes v (k + 1) = (group7 v k ||| 0x80#8) :: groupBytes v k := by
  obtain ⟨j, rfl⟩ : ∃ j, k = j + 1 := ⟨k - 1, by omega⟩
  rfl

/-- Bits 6:4 of a byte are clear exactly when each of them is. -/
theorem topBits_clear_iff (b : Byte) : b &&& 0x70#8 = 0 ↔ ∀ m, m < 7 → 4 ≤ m → b.getLsbD m = false := by
  revert b; decide

theorem vlq5_topBits_clear (v : BitVec 32) : (group7 v 4 ||| 0x80#8) &&& 0x70#8 = 0 := by
  refine (topBits_clear_iff _).mpr fun m h7 h4 => ?_
  have past : v.getLsbD (7 * 4 + m) = false := BitVec.getLsbD_of_ge v _ (by omega)
  have cont : (0x80#8).getLsbD m = false := by interval_cases m <;> rfl
  rw [BitVec.getLsbD_or, group7_bit v 4 m h7, past, cont]
  rfl

/-- A row whose groups carry all the bits of its value. -/
theorem decodeVlqRow_joinGroups {w : Nat} (v : BitVec w) (k : Nat) (mk : BitVec w → Instr) (rest : List Byte)
    (hk : 1 ≤ k) (hw : w ≤ 7 * k) :
    decodeVlqRow k (fun gs => mk (joinGroups w gs)) (groupBytes v k ++ rest) = .ok (mk v, rest) := by
  rw [decodeVlqRow_groupBytes v k rest _ hk, joinGroups_groupBytes v k hw]

theorem decodeVlq5_groupBytes (v : BitVec 32) (rest : List Byte) :
    decodeVlq5 (groupBytes v 5 ++ rest) = .ok (.vlq5 v, rest) := by
  have row := decodeVlqRow_joinGroups v 5 .vlq5 rest (by decide) (by decide)
  rw [groupBytes_cons v (by decide), List.cons_append] at row ⊢
  rw [decodeVlq5, vlq5_topBits_clear, if_pos (by decide), row]

theorem decodeVlq5_ok {bs rest : List Byte} {i : Instr} (h : decodeVlq5 bs = .ok (i, rest)) :
    ∃ v, i = .vlq5 v ∧ groupBytes v 5 ++ rest = bs := by
  cases bs with
  | nil => cases h
  | cons b bs =>
    simp only [decodeVlq5, decodeVlqRow, beq_iff_eq] at h
    split_ifs at h with top short vlq
    cases h
    refine ⟨_, rfl, ?_⟩
    rw [groupBytes_joinGroups _ 5 (by decide) (by rw [List.length_take]; omega) vlq (by decide)
      fun m h7 h4 => (topBits_clear_iff b).mp top m h7 (by omega), List.take_append_drop]

/-! ### An empty frame (R83) -/

theorem decodeAckNak_frameBytes (n : BitVec 4) (crc : Half) (rest : List Byte) :
    decodeAckNak (frameBytes (seqByte n) [] crc ++ rest) = .ok (.ackNakFrame n crc, rest) :=
  decodeFrame_frameBytes (fun n _ crc => .ackNakFrame n crc) n [] rest crc (by decide)

theorem decodeAckNak_ok {bs rest : List Byte} {i : Instr} (h : decodeAckNak bs = .ok (i, rest)) :
    ∃ n c, i = .ackNakFrame n c ∧ frameBytes (seqByte n) [] c ++ rest = bs := by
  cases bs with
  | nil => cases h
  | cons l bs =>
    simp only [decodeAckNak, beq_iff_eq] at h
    split_ifs at h with empty
    obtain ⟨n, payload, c, rfl, short, bytes⟩ := decodeFrame_ok h
    have len : (BitVec.ofNat 8 (payload.length + 5)).toNat = 5 := by
      rw [(List.cons.inj bytes).1, empty]
      rfl
    obtain rfl : payload = [] := by
      rw [BitVec.toNat_ofNat] at len
      exact List.eq_nil_of_length_eq_zero (by omega)
    exact ⟨n, c, rfl, bytes⟩

/-! ### Decoding what was encoded (O8) -/

/-- Settles O8: each form's decoder reads its fields back. -/
theorem decodeEncodeAgree : Obligations.DecodeEncodeAgree := by
  unfold Obligations.DecodeEncodeAgree
  intro i f rest wf form alone
  cases i with
  | crc16 | vlqEnc | vlqDec | frameRx | ackNak | frameTx | parse | encodeArg | poll => cases form
  | frame n payload crc =>
    cases form
    exact decodeFrame_frameBytes .frame n payload rest crc (of_decide_eq_true wf)
  | frameLen len =>
    cases form
    simpa [decodeAs, encode, decodeByte, Instr.wf] using wf
  | frameSeq n =>
    cases form
    simp [decodeAs, encode, decodeByte, seqByte_tagOk, seqByte_number]
  | frameCrc crc =>
    cases form
    simp [decodeAs, encode, decodeCrc, halfOf_hi_lo]
  | frameSync =>
    cases form
    simp [decodeAs, encode, decodeByte]
  | ackNakFrame n crc =>
    cases form
    exact decodeAckNak_frameBytes n crc rest
  | command id args =>
    cases form
    obtain rfl := alone rfl
    simp [decodeAs, encode, decodeCommand]
  | vlqLastByte d =>
    cases form
    simp [decodeAs, encode, decodeByte, lastByte_msb]
  | vlqContByte d =>
    cases form
    simp only [decodeAs, encode, List.singleton_append, decodeByte, contByte_msb, contByte_data, if_true]
  | vlqSign more d =>
    cases form
    simp [decodeAs, encode_vlqSign, decodeByte, signByte_signBits, signByte_msb, signByte_low]
  | vlq1 v | vlq2 v | vlq3 v | vlq4 v =>
    cases form
    exact decodeVlqRow_joinGroups v _ _ rest (by decide) (by decide)
  | vlq5 v =>
    cases form
    exact decodeVlq5_groupBytes v rest
  | argUint32 v | argInt32 v | argUint16 v | argInt16 v | argByte v =>
    cases form
    exact decodeVlqArg_isVlq _ v rest wf
  | argBuffer d | argProgmemBuffer d =>
    cases form
    exact decodePrefixed_lengthPrefixed _ d rest (of_decide_eq_true wf)
  | argString d =>
    cases form
    exact decodePrefixed_lengthPrefixed _ d rest (of_decide_eq_true (Bool.and_eq_true_iff.mp wf).1)

/-! ### Encoding what was decoded (O9) -/

theorem decodeAs_ok {f : Form} {bs rest : List Byte} {i : Instr} (h : decodeAs f bs = .ok (i, rest)) :
    encode i ++ rest = bs ∧ i.form? = some f := by
  cases f with
  | frame =>
    obtain ⟨n, payload, crc, rfl, -, bytes⟩ := decodeFrame_ok h
    exact ⟨bytes, rfl⟩
  | frameLen =>
    obtain ⟨b, rfl, -, rfl⟩ := decodeByte_ok h
    exact ⟨rfl, rfl⟩
  | frameSeq =>
    obtain ⟨b, rfl, tag, rfl⟩ := decodeByte_ok h
    exact ⟨congrArg (· :: rest) (tagOk_seqByte b tag), rfl⟩
  | frameCrc =>
    match bs, h with
    | hi :: lo :: bs, h =>
      cases h
      simp [encode, hiByte_halfOf, loByte_halfOf, Instr.form?]
  | frameSync =>
    obtain ⟨b, rfl, sync, rfl⟩ := decodeByte_ok h
    exact ⟨congrArg (· :: rest) (beq_iff_eq.mp sync).symm, rfl⟩
  | ackNakFrame =>
    obtain ⟨n, crc, rfl, bytes⟩ := decodeAckNak_ok h
    exact ⟨bytes, rfl⟩
  | command =>
    cases bs with
    | nil => cases h
    | cons id args =>
      cases h
      exact ⟨List.append_nil _, rfl⟩
  | vlqLastByte =>
    obtain ⟨b, rfl, last, rfl⟩ := decodeByte_ok h
    exact ⟨congrArg (· :: rest) (lastByte_of_msb b (by simpa using last)), rfl⟩
  | vlqContByte =>
    obtain ⟨b, rfl, cont, rfl⟩ := decodeByte_ok h
    exact ⟨congrArg (· :: rest) (contByte_of_msb b cont), rfl⟩
  | vlqSign =>
    obtain ⟨b, rfl, sign, rfl⟩ := decodeByte_ok h
    exact ⟨congrArg (· :: rest) (signByte_of_signBits b (beq_iff_eq.mp sign)), rfl⟩
  | vlq1 | vlq2 | vlq3 | vlq4 =>
    obtain ⟨v, rfl, bytes⟩ := decodeVlqRow_ok (by decide) rfl h
    exact ⟨bytes, rfl⟩
  | vlq5 =>
    obtain ⟨v, rfl, bytes⟩ := decodeVlq5_ok h
    exact ⟨bytes, rfl⟩
  | argUint32 | argInt32 | argUint16 | argInt16 | argByte =>
    obtain ⟨v, rfl, bytes⟩ := decodeVlqArg_ok h
    exact ⟨bytes, rfl⟩
  | argBuffer | argString | argProgmemBuffer =>
    obtain ⟨d, rfl, bytes⟩ := decodePrefixed_ok h
    exact ⟨bytes, rfl⟩

/-- Settles O9: what each decoder read, written again. -/
theorem encodeDecodeAgree : Obligations.EncodeDecodeAgree := by
  unfold Obligations.EncodeDecodeAgree
  exact fun _ _ _ _ => decodeAs_ok

/-! ### A built frame (O10) -/

/-- The fields FRAME_RX reads of a frame, whatever follows it (R70, R74, R75). -/
theorem frameBytes_fields {seq : Byte} {payload b rest : List Byte} {crc : Half}
    (frame : b = frameBytes seq payload crc ++ rest) (short : payload.length ≤ 59) :
    (byteAt b 0).toNat = payload.length + 5 ∧ byteAt b 1 = seq
      ∧ b.take (payload.length + 2) = BitVec.ofNat 8 (payload.length + 5) :: seq :: payload
      ∧ byteAt b (payload.length + 2) = hiByte crc ∧ byteAt b (payload.length + 3) = loByte crc
      ∧ byteAt b (payload.length + 4) = syncByte ∧ b.length = payload.length + 5 + rest.length := by
  subst frame
  refine ⟨?_, rfl, ?_, ?_, ?_, ?_, ?_⟩
  · show (BitVec.ofNat 8 (payload.length + 5)).toNat = _
    rw [BitVec.toNat_ofNat]
    omega
  all_goals simp [frameBytes, byteAt]
  omega

/-- A built frame is valid, whatever follows it (R84). -/
theorem frameValid_buildFrame (k : CrcKind) {payload : List Byte} {seq : Byte} (rest : List Byte)
    (tag : tagOk seq = true) (short : payload.length ≤ 59) :
    frameValid k (buildFrame k payload seq ++ rest) = true := by
  generalize frame : buildFrame k payload seq ++ rest = b
  obtain ⟨len, seqAt, covered, hi, lo, sync, whole⟩ := frameBytes_fields frame.symm short
  have at3 : payload.length + 5 - 3 = payload.length + 2 := by omega
  have at2 : payload.length + 5 - 2 = payload.length + 3 := by omega
  have at1 : payload.length + 5 - 1 = payload.length + 4 := by omega
  have crcMatches : frameCrcComputed k b = frameCrcField b := by
    rw [frameCrcComputed, frameCrcField, len, at3, at2, covered, hi, lo, halfOf_hi_lo]
  simp only [frameValid, lenOk, len, seqAt, tag, at1, sync, whole, crcMatches, messageMin, messageMax, beq_self_eq_true,
    Bool.and_eq_true, decide_eq_true_eq, and_true]
  omega

/-- Settles O10: the fields of a frame stand where FRAME_RX reads them. -/
theorem frameRoundTrip : Obligations.FrameRoundTrip := by
  unfold Obligations.FrameRoundTrip
  intro k payload rest n short
  refine ⟨frameValid_buildFrame k rest (seqByte_tagOk n) short, ?_, rfl, ?_⟩ <;> simp [buildFrame, frameBytes]

end Sys2Proof
end

section
/-! The VLQ forms (O18, O19). The shape: the closed form of R110 on the bytes of a row is the value of its groups (R78),
and the encoder's length of that value is the row's own (R115); a single byte is one read of VLQ_DEC's loop. -/

namespace Sys2Proof.Machine

/-! ### The value of a row -/

theorem group7_toNat {w : Nat} (v : BitVec w) (i : Nat) : (group7 v i).toNat = v.toNat / 128 ^ i % 128 := by
  have mask : (0x7F#8).toNat = 2 ^ 7 - 1 := rfl
  rw [group7, BitVec.toNat_and, mask, Nat.and_two_pow_sub_one_eq_mod, BitVec.toNat_setWidth, BitVec.toNat_ushiftRight,
    Nat.shiftRight_eq_div_pow, Nat.mod_mod_of_dvd _ (by decide), pow_mul]
  rfl

theorem dataBits_toNat (b : Byte) : (b &&& 0x7F#8).toNat = b.toNat % 128 := by revert b; decide

theorem dataBits_cont_toNat (b : Byte) : ((b ||| 0x80#8) &&& 0x7F#8).toNat = b.toNat % 128 := by revert b; decide

/-- The first byte of a row carries the top group, and the others are the row of the lower groups. -/
theorem groupBytes_head {w : Nat} (v : BitVec w) (k : Nat) :
    ∃ b, groupBytes v (k + 1) = b :: groupBytes v k ∧ (b &&& 0x7F#8).toNat = v.toNat / 128 ^ k % 128 := by
  cases k with
  | zero => exact ⟨group7 v 0, rfl, by rw [dataBits_toNat, group7_toNat, Nat.mod_mod]⟩
  | succ k => exact ⟨group7 v (k + 1) ||| 0x80#8, rfl, by rw [dataBits_cont_toNat, group7_toNat, Nat.mod_mod]⟩

/-- The loop of R110 over a row. -/
theorem foldl_groupBytes {w : Nat} (v : BitVec w) (k : Nat) (x : Int) :
    (groupBytes v k).foldl (fun (acc : Int) c => acc * 128 + (c &&& 0x7F#8).toNat) x =
      x * 128 ^ k + (v.toNat % 128 ^ k : Nat) := by
  induction k generalizing x with
  | zero => simp [groupBytes, Nat.mod_one]
  | succ k ih =>
    obtain ⟨b, bytes, top⟩ := groupBytes_head v k
    rw [bytes, List.foldl_cons, ih, top, Nat.mod_pow_succ]
    push_cast
    ring

/-- The value of a row by its top group. -/
theorem groupsValue_succ (k n : Nat) :
    groupsValue (k + 1) n =
      (if 0x60 ≤ n / 128 ^ k then ((n / 128 ^ k : Nat) : Int) - 128 else ((n / 128 ^ k : Nat) : Int)) * 128 ^ k
        + (n % 128 ^ k : Nat) := by
  have split : (n : Int) = 128 ^ k * (n / 128 ^ k : Nat) + (n % 128 ^ k : Nat) := by
    exact_mod_cast (Nat.div_add_mod n (128 ^ k)).symm
  have bound : 3 * 2 ^ (7 * (k + 1) - 2) = 0x60 * 128 ^ k := by
    rw [show 7 * (k + 1) - 2 = 7 * k + 5 by omega, pow_add, pow_mul]
    ring
  have modulus : (2 : Int) ^ (7 * (k + 1)) = 128 * 128 ^ k := by
    rw [pow_mul, pow_succ]
    ring
  have top : 0x60 * 128 ^ k ≤ n ↔ 0x60 ≤ n / 128 ^ k := (Nat.le_div_iff_mul_le (by positivity)).symm
  rw [groupsValue, bound, modulus]
  simp only [top]
  split_ifs <;> rw [split] <;> ring

/-- VLQ_DEC's closed form of a row is the value of its groups (R78, R110). -/
theorem vlqInt_groupBytes {w : Nat} (v : BitVec w) {k : Nat} (hk : 1 ≤ k) (hw : w ≤ 7 * k) :
    vlqInt (groupBytes v k) = groupsValue k v.toNat := by
  obtain ⟨j, rfl⟩ : ∃ j, k = j + 1 := ⟨k - 1, by omega⟩
  have small : v.toNat < 128 ^ (j + 1) := by
    calc v.toNat < 2 ^ w := v.isLt
      _ ≤ 2 ^ (7 * (j + 1)) := Nat.pow_le_pow_right (by decide) hw
      _ = 128 ^ (j + 1) := pow_mul 2 7 (j + 1)
  have top : v.toNat / 128 ^ j < 128 := by
    rw [Nat.div_lt_iff_lt_mul (by positivity), ← pow_succ']
    exact small
  obtain ⟨b, bytes, data⟩ := groupBytes_head v j
  rw [Nat.mod_eq_of_lt top] at data
  rw [bytes, vlqInt, foldl_groupBytes, data, groupsValue_succ]

/-- Executing a row gives its value and its length (log 17). -/
theorem State.readVlq_groupBytes {w : Nat} (v : BitVec w) {k : Nat} (hk : 1 ≤ k) (hw : w ≤ 7 * k) (s : State) :
    s.readVlq (groupBytes v k) = .next { s with result := .vlq (BitVec.ofInt 32 (groupsValue k v.toNat)) k } := by
  have read := vlqDec_isVlq [] (groupBytes_isVlq v k hk)
  rw [List.append_nil, groupBytes_length, vlqInt_groupBytes v hk hw] at read
  rw [State.readVlq, read]
  rfl

/-! ### The row of a value -/

/-- VLQ_LEN picks the first row of R78 that holds the value (R115). -/
theorem vlqLen_le_iff (v : Word) {k : Nat} (low : 1 ≤ k) (high : k ≤ 5) :
    vlqLen v ≤ k ↔ inVlqRow k v.toInt = true := by
  have lo := v.le_toInt
  have hi := v.toInt_lt
  simp only [vlqLen, inVlqRow, Bool.and_eq_true, decide_eq_true_eq]
  interval_cases k <;> split_ifs <;> omega

theorem groupsValue_inVlqRow {k n : Nat} (hk : 1 ≤ k) (hn : n < 2 ^ (7 * k)) :
    inVlqRow k (groupsValue k n) = true := by
  have modulus : 2 ^ (7 * k) = 4 * 2 ^ (7 * k - 2) := by
    obtain ⟨m, hm⟩ : ∃ m, 7 * k = m + 2 := ⟨7 * k - 2, by omega⟩
    rw [hm, Nat.add_sub_cancel, pow_add]
    omega
  have modulusInt : (2 : Int) ^ (7 * k) = 4 * 2 ^ (7 * k - 2) := by exact_mod_cast modulus
  have row : (2 : Int) ^ (7 * k - 2) = (2 ^ (7 * k - 2) : Nat) := by push_cast; rfl
  simp only [inVlqRow, groupsValue, Bool.and_eq_true, decide_eq_true_eq, modulusInt, row]
  split_ifs <;> omega

/-- Every value of a row but the longest is a word's own value. -/
theorem toInt_groupsValue {k n : Nat} (low : 1 ≤ k) (high : k ≤ 4) (hn : n < 2 ^ (7 * k)) :
    (BitVec.ofInt 32 (groupsValue k n)).toInt = groupsValue k n := by
  have row := groupsValue_inVlqRow low hn
  simp only [inVlqRow, Bool.and_eq_true, decide_eq_true_eq] at row
  obtain ⟨above, below⟩ := row
  refine BitVec.toInt_ofInt_eq_self (by decide) ?_ ?_ <;> interval_cases k <;> omega

theorem setWidth_ofInt (x : Int) {w : Nat} (hw : w ≤ 32) : (BitVec.ofInt 32 x).setWidth w = BitVec.ofInt w x := by
  apply BitVec.eq_of_toNat_eq
  have divides : ((2 ^ w : Nat) : Int) ∣ (2 ^ 32 : Nat) := by exact_mod_cast Nat.pow_dvd_pow 2 hw
  rw [BitVec.toNat_setWidth, BitVec.toNat_ofInt, BitVec.toNat_ofInt, ← Int.emod_emod_of_dvd x divides,
    Int.toNat_emod (Int.emod_nonneg _ (by decide)) (by positivity), Int.toNat_natCast]

theorem ofInt_groupsValue {k : Nat} (v : BitVec (7 * k)) : BitVec.ofInt (7 * k) (groupsValue k v.toNat) = v := by
  apply BitVec.eq_of_toNat_eq
  have same : groupsValue k v.toNat % (2 ^ (7 * k) : Nat) = v.toNat % (2 ^ (7 * k) : Nat) := by
    unfold groupsValue
    split_ifs <;> simp
  rw [BitVec.toNat_ofInt, same, ← Int.natCast_emod, Int.toNat_natCast, Nat.mod_eq_of_lt v.isLt]

/-- The row of `k` bytes reads the low `7k` bits only. -/
theorem groupBytes_setWidth {w : Nat} (x : BitVec w) {k : Nat} (hk : 1 ≤ k) :
    groupBytes (x.setWidth (7 * k)) k = groupBytes x k := by
  refine isVlq_ext (groupBytes_isVlq _ k hk) (groupBytes_isVlq x k hk) (by simp only [groupBytes_length]) fun j m hm => ?_
  by_cases hj : j < k
  · rw [groupBytes_bit _ k j hj m hm, groupBytes_bit x k j hj m hm, BitVec.getLsbD_setWidth,
      decide_eq_true (by omega), Bool.true_and]
  · rw [List.getD_eq_default _ _ (by rw [groupBytes_length]; omega),
      List.getD_eq_default _ _ (by rw [groupBytes_length]; omega)]

/-- In the range of its own row, a row is what the encoder gives for its value (R78, R115). -/
theorem vlqEnc_groupsValue {k : Nat} (v : BitVec (7 * k)) (low : 1 ≤ k) (high : k ≤ 4)
    (own : 2 ≤ k → inVlqRow (k - 1) (groupsValue k v.toNat) = false) :
    vlqEnc (BitVec.ofInt 32 (groupsValue k v.toNat)) = groupBytes v k := by
  have value := toInt_groupsValue low high v.isLt
  have upper : vlqLen (BitVec.ofInt 32 (groupsValue k v.toNat)) ≤ k := by
    rw [vlqLen_le_iff _ low (by omega), value]
    exact groupsValue_inVlqRow low v.isLt
  have lower : 2 ≤ k → ¬ vlqLen (BitVec.ofInt 32 (groupsValue k v.toNat)) ≤ k - 1 := fun two => by
    rw [vlqLen_le_iff _ (by omega) (by omega), value, own two]
    decide
  have len : vlqLen (BitVec.ofInt 32 (groupsValue k v.toNat)) = k := by
    have := vlqLen_pos (BitVec.ofInt 32 (groupsValue k v.toNat))
    omega
  rw [vlqEnc, len, ← groupBytes_setWidth _ low, setWidth_ofInt _ (by omega), ofInt_groupsValue]

/-- The same for the longest row, whose value is its word. -/
theorem vlqEnc_vlq5 {v : BitVec 32} (own : inVlqRow 4 v.toInt = false) : vlqEnc v = groupBytes v 5 := by
  have lower : ¬ vlqLen v ≤ 4 := by
    rw [vlqLen_le_iff _ (by decide) (by decide), own]
    decide
  have upper := vlqLen_le v
  rw [vlqEnc, show vlqLen v = 5 by omega]

theorem groupsValue_five (v : BitVec 32) : BitVec.ofInt 32 (groupsValue 5 v.toNat) = v := by
  have small := v.isLt
  rw [groupsValue, if_neg (by omega), BitVec.ofInt_natCast, BitVec.ofNat_toNat, BitVec.setWidth_eq]

/-! ### Bytes presented as a VLQ form -/

/-- The reader of a VLQ form is VLQ_DEC from the cursor 0 (log 33). -/
theorem State.readVlq_eq_vlqDec (bs : List Byte) (s : State) : s.readVlq bs = exec (.vlqDec bs 0 none) s := by
  show _ = vlqDecUnbounded bs 0 s
  unfold State.readVlq vlqDecUnbounded
  rw [List.drop_zero]
  cases vlqDec bs with
  | none => rfl
  | some r =>
    dsimp only
    rw [Nat.zero_add]

/-- A step on presented bytes is that form's reader, by the decoder that drops no bit. -/
theorem step_reads {s : State} {f : Form} {bs : List Byte} {rest : List Move} (w : s.config.wf = true)
    (h : s.agenda = .present f bs :: rest) : step s = State.readForm f bs { s with agenda := rest } :=
  step_present (fun decoded => by simpa using decodeAs_ok decoded) w h

/-- Settles O18: a row is read as its value, its own value is written as the row, and every VLQ form has one reader. -/
theorem canonicalVlqForms : Obligations.CanonicalVlqForms := by
  unfold Obligations.CanonicalVlqForms
  refine ⟨fun v s => ⟨?_, ?_⟩, fun v s => ⟨?_, fun own => ?_⟩, fun v s => ⟨?_, fun own => ?_⟩,
    fun v s => ⟨?_, fun own => ?_⟩, fun v s => ⟨?_, fun own => ?_⟩, fun f bs s rest form w h => ?_⟩
  · exact State.readVlq_groupBytes v (by decide) (by decide) s
  · exact vlqEnc_groupsValue (k := 1) v (by decide) (by decide) (absurd · (by decide))
  · exact State.readVlq_groupBytes v (by decide) (by decide) s
  · exact vlqEnc_groupsValue (k := 2) v (by decide) (by decide) fun _ => by simpa [Instr.wf] using own
  · exact State.readVlq_groupBytes v (by decide) (by decide) s
  · exact vlqEnc_groupsValue (k := 3) v (by decide) (by decide) fun _ => by simpa [Instr.wf] using own
  · exact State.readVlq_groupBytes v (by decide) (by decide) s
  · exact vlqEnc_groupsValue (k := 4) v (by decide) (by decide) fun _ => by simpa [Instr.wf] using own
  · exact (State.readVlq_groupBytes v (by decide) (by decide) s).trans (by rw [groupsValue_five])
  · exact vlqEnc_vlq5 (by simpa [Instr.wf] using own)
  · rw [step_reads w h, ← State.readVlq_eq_vlqDec]
    obtain rfl | rfl | rfl | rfl | rfl := form <;> rfl

/-! ### One VLQ byte -/

/-- What one byte seeds VLQ_DEC with is the value of its seven data bits (R110). -/
theorem vlqSeed_groupsValue (c : Byte) : vlqSeed c = BitVec.ofInt 32 (groupsValue 1 (c.setWidth 7).toNat) := by
  revert c; decide

theorem State.readVlqByte_eq (c : Byte) (s : State) :
    s.readVlqByte c = .next { s with
      result := .vlqByte (BitVec.ofInt 32 (groupsValue 1 (c.setWidth 7).toNat)) (c.setWidth 7) c.msb } := by
  rw [State.readVlqByte, vlqSeed_groupsValue, vlqMore_msb]
  rfl

theorem lastByte_data (d : BitVec 7) : (d.setWidth 8 : Byte).setWidth 7 = d := by revert d; decide

theorem signByte_data (more : Bool) (d : BitVec 5) : (signByte more d).setWidth 7 = 3#2 ++ d := by
  revert more d; decide

/-- Both sign bits set: the value is the five bits below them, less 32 (R77). -/
theorem groupsValue_sign (d : BitVec 5) : groupsValue 1 (3#2 ++ d).toNat = (d.toNat : Int) - 32 := by
  revert d; decide

/-- Settles O19: each of the three forms, and any byte presented as one, is one read of VLQ_DEC's loop. -/
theorem vlqByteForms : Obligations.VlqByteForms := by
  unfold Obligations.VlqByteForms
  refine ⟨fun d s => ?_, fun d s => ?_, fun more d s => ?_, fun f c bs s rest form w h => ?_⟩
  · have read := s.readVlqByte_eq (d.setWidth 8)
    rwa [lastByte_data, lastByte_msb] at read
  · have read := s.readVlqByte_eq (0x80#8 ||| d.setWidth 8)
    rwa [contByte_data, contByte_msb] at read
  · have read := s.readVlqByte_eq (signByte more d)
    rwa [signByte_data, signByte_msb, groupsValue_sign] at read
  · rw [step_reads w h]
    obtain rfl | rfl | rfl := form <;> exact State.readVlqByte_eq c _

end Sys2Proof.Machine
end

section
/-! The forms of the payload and of the frame, executed: an argument form (O50), a command alone (O48), and a whole frame
delivered into an empty FIFO (O43). The shape: PARSE's loop by `Parses`, a turn of POLL's loop by how its PARSE ends, and
POLL of an accepted frame by `Commands`. -/

namespace Sys2Proof.Machine

/-! ### Argument forms (O50) -/

/-- The reader of an argument form on an argument, whatever follows it (R183, R184). -/
theorem State.readArg_parses {t : ArgType} {bs : List Byte} {args : List Word} {inline : List (Nat × List Byte)}
    (h : Parses [t] 0 bs args inline) (after : List Byte) (s : State) :
    s.readArg t (bs ++ after) = .next { s with result := .parsed bs.length args } := by
  rw [State.readArg, parseParams_parses h, Nat.zero_add]
  rfl

/-- A parameter that PARSE's loop rejects raises (R185, R187). -/
theorem State.readArg_raises {t : ArgType} {bs : List Byte} (s : State)
    (h : parseParams [t] 0 0 bs = .error (.shutdown .parserError)) :
    ∃ u, s.readArg t bs = .next u ∧ State.Trapped s .parserError u := by
  refine ⟨_, ?_, s.raiseShutdown_trapped .parserError⟩
  rw [State.readArg, h]
  rfl

theorem Parses.one_integer {t : ArgType} {v : List Byte} (int : t.isInt = true) (p : Nat) (hv : isVlq v = true) :
    Parses [t] p v [BitVec.ofInt 32 (vlqInt v)] [] := by
  simpa using Parses.integer int hv (.done (p + v.length))

theorem Parses.one_buffer {d : List Byte} (p : Nat) (hd : d.length ≤ 255) :
    Parses [.buffer] p (lengthPrefixed d) [BitVec.ofNat 32 d.length, BitVec.ofNat 32 (p + 1)] [(p + 1, d)] := by
  simpa [lengthPrefixed] using Parses.buffer hd (.done (p + 1 + d.length))

/-- An integer argument that ends before its last byte (R185). -/
theorem parseParams_integer_cut {t : ArgType} {bs : List Byte} (int : t.isInt = true) (cut : ∀ b ∈ bs, b.msb = true)
    (p : Nat) : parseParams [t] p 0 bs = .error (.shutdown .parserError) := by
  simp [parseParams, int, vlqDec_none cut, pastEnd_zero]

/-- A buffer argument that ends before its last byte (R185). -/
theorem parseParams_buffer_cut {bs : List Byte} (cut : bs = [] ∨ bs.length < 1 + (byteAt bs 0).toNat) (p : Nat) :
    parseParams [.buffer] p 0 bs = .error (.shutdown .parserError) := by
  cases bs with
  | nil => simp [parseParams, ArgType.isInt, pastEnd_zero]
  | cons n rest =>
    have counted : rest.length + 1 < 1 + n.toNat := cut.resolve_left (List.cons_ne_nil n rest)
    have short : rest.length < n.toNat := by omega
    simp [parseParams, ArgType.isInt, short]

/-- The five integer forms are read under an integer type (R79, R183). -/
theorem State.readForm_integer {f : Form}
    (int : f = .argUint32 ∨ f = .argInt32 ∨ f = .argUint16 ∨ f = .argInt16 ∨ f = .argByte) :
    ∃ t : ArgType, t.isInt = true ∧ ∀ (bs : List Byte) (s : State), s.readForm f bs = s.readArg t bs := by
  obtain rfl | rfl | rfl | rfl | rfl := int
  exacts [⟨.uint32, rfl, fun _ _ => rfl⟩, ⟨.int32, rfl, fun _ _ => rfl⟩, ⟨.uint16, rfl, fun _ _ => rfl⟩,
    ⟨.int16, rfl, fun _ _ => rfl⟩, ⟨.byte, rfl, fun _ _ => rfl⟩]

/-- Settles O50: a form is read under its type, and the cut ones and the encode-only ones raise. -/
theorem argFormsParse : Obligations.ArgFormsParse := by
  unfold Obligations.ArgFormsParse
  refine ⟨fun vlq s hv i int => ?_, fun d s hd => ?_, fun f bs after s rest w h => ⟨fun int hv => ?_, ?_⟩,
    fun f bs s rest w h cut => ?_⟩
  · have read {t : ArgType} (ht : t.isInt = true) := State.readArg_parses (Parses.one_integer ht 0 hv) [] s
    rw [List.append_nil] at read
    obtain rfl | rfl | rfl | rfl | rfl := int <;> exact read rfl
  · have read := State.readArg_parses (Parses.one_buffer 0 hd) [] s
    rwa [List.append_nil, lengthPrefixed, List.length_cons, Nat.add_comm] at read
  · obtain ⟨t, ht, reader⟩ := State.readForm_integer int
    rw [step_reads w h, reader]
    exact State.readArg_parses (Parses.one_integer ht 0 hv) after _
  · rintro d rfl rfl hd
    have read := State.readArg_parses (Parses.one_buffer 0 hd) after { s with agenda := rest }
    rw [step_reads w h]
    rwa [lengthPrefixed, List.length_cons, Nat.add_comm] at read
  · rw [step_reads w h]
    obtain ⟨int, cut⟩ | ⟨rfl, cut⟩ | rfl | rfl := cut
    · obtain ⟨t, ht, reader⟩ := State.readForm_integer int
      rw [reader]
      exact State.readArg_raises _ (parseParams_integer_cut ht cut 0)
    · exact State.readArg_raises _ (parseParams_buffer_cut cut 0)
    · exact State.readArg_raises (t := .string) _ rfl
    · exact State.readArg_raises (t := .progmemBuffer) _ rfl

/-! ### A turn of the loop, by how its PARSE ends -/

/-- PARSE of a command that the mode allows and whose bytes, all inside the view, are not its arguments (R185). -/
theorem State.parse_parserError {s : State} {view : List Byte} {p stop : Nat} {parser : Parser}
    (allowed : s.shutdown = true → parser.inShutdown = true) (inside : stop ≤ view.length)
    (bad : ∀ bs after args inline, window view p stop = bs ++ after → ¬ Parses parser.paramTypes p bs args inline) :
    s.parse view p stop parser = .ended .parserError (s.raiseShutdown .parserError) := by
  rw [State.parse, State.not_guarded allowed, beyond_eq_zero inside, parseParams_error bad]
  rfl

/-- A turn whose PARSE ends in a shutdown ends in it (R246). -/
theorem State.commandTurn_parseEnded {s t : State} {view : List Byte} {live : List (Nat × List Byte)} {p stop : Nat}
    {id : Byte} {parser : Parser} {r : Reason} (hid : byteAt view p = id)
    (known : Schema.parserOf s.config.schema id = some parser)
    (ended : s.parse view (p + 1) stop parser = .ended r t) : s.commandTurn view live p stop = .ended r t := by
  simp only [State.commandTurn, hid, known, ended]

/-- A turn whose PARSE skips is a skip (R226). -/
theorem State.commandTurn_parseSkip {s t : State} {view : List Byte} {live : List (Nat × List Byte)} {p stop : Nat}
    {id : Byte} {parser : Parser} (hid : byteAt view p = id)
    (known : Schema.parserOf s.config.schema id = some parser)
    (skip : s.parse view (p + 1) stop parser = .ok none t) : s.commandTurn view live p stop = .ok none t := by
  simp only [State.commandTurn, hid, known, skip]

/-! ### The `is_shutdown` reply -/

/-- FRAME_TX of parameters that do not encode raises when the reservation is granted, and abandons it (R247). -/
theorem State.frameTx_raises {s : State} {id : Nat} {e : Encoder} {args : List Word}
    (he : s.config.schema.commandEncoders[id]? = some e) (granted : s.granted (e.maxSize + 5) = true)
    (h : encodeParams s.data s.progmem e.paramTypes args 3 (2 + e.maxSize) = .error (.shutdown .encodeError)) :
    s.frameTx id args = .ended .encodeError (s.useGrant.raiseShutdown .encodeError) := by
  rw [State.frameTx, he]
  dsimp only
  rw [if_pos granted, State.outReserve_granted granted, State.frameTxGranted]
  split_ifs
  · rfl
  · dsimp only [State.useGrant_data, State.useGrant_progmem]
    rw [h]
    rfl

/-- A reason id is a 16-bit word: the mask of R202 leaves it. -/
theorem mask_setWidth (r : Half) : r.setWidth 32 &&& 0xFFFF#32 = r.setWidth 32 := by
  have ones : (0xFFFF#32).toNat = 2 ^ 16 - 1 := rfl
  apply BitVec.eq_of_toNat_eq
  rw [BitVec.toNat_and, ones, Nat.and_two_pow_sub_one_eq_mod, BitVec.toNat_setWidth]
  omega

/-- The encoder of `is_shutdown` of a well-formed schema takes one `uint16` (R50(f)). -/
theorem Config.isShutdown_paramTypes {c : Config} {e : Encoder} (w : c.wf = true)
    (he : c.schema.commandEncoders[c.schema.encIsShutdown]? = some e) : e.paramTypes = [.uint16] := by
  obtain ⟨-, -, -, e', he', types⟩ := (Schema.wf_iff c.schema).mp w
  obtain rfl : e = e' := Option.some.inj (he.symm.trans he')
  exact types

/-- In shutdown a command without the flag is PARSE's Skip, the reply offered where it fits (R181). -/
theorem State.parse_skips {s : State} {e : Encoder} {v : Word} {parser : Parser} (w : s.config.wf = true)
    (he : s.config.schema.commandEncoders[s.config.schema.encIsShutdown]? = some e) (on : s.shutdown = true)
    (closed : parser.inShutdown = false) (hv : v = s.shutdownReason.setWidth 32) (fits : 1 + vlqLen v ≤ e.maxSize)
    (view : List Byte) (p stop : Nat) :
    s.parse view p stop parser =
      .ok none (State.offer (e.maxSize + 5) (buildFrame s.config.crc (e.msgId :: vlqEnc v) s.nextSeq) s) := by
  have encodes : Encodes s.data s.progmem (2 + e.maxSize) e.paramTypes 3 [v] (vlqEnc v) [] := by
    rw [Config.isShutdown_paramTypes w he, ← List.append_nil (vlqEnc v)]
    exact .short (.inl rfl) (by rw [hv, mask_setWidth]) (by omega) (.done _ _)
  have sent := State.frameTx_encodes he (Schema.encoder_bound w he).1 (encodeParams_encodes encodes)
  rw [hv] at sent ⊢
  simp only [State.parse, State.isShutdown, on, closed, Bool.not_false, Bool.and_self, if_true, sent]

/-- Where the granted reply does not fit, PARSE raises (R181, R253). -/
theorem State.parse_replyTooLong {s : State} {e : Encoder} {v : Word} {parser : Parser} (w : s.config.wf = true)
    (he : s.config.schema.commandEncoders[s.config.schema.encIsShutdown]? = some e) (on : s.shutdown = true)
    (closed : parser.inShutdown = false) (hv : v = s.shutdownReason.setWidth 32) (long : e.maxSize < 1 + vlqLen v)
    (granted : s.granted (e.maxSize + 5) = true) (view : List Byte) (p stop : Nat) :
    s.parse view p stop parser = .ended .encodeError (s.useGrant.raiseShutdown .encodeError) := by
  have noRoom : NoRoom (2 + e.maxSize) .uint16 3 [v] :=
    .short (.inl rfl) (by rw [hv, mask_setWidth, ← hv]; omega)
  have raised := State.frameTx_raises (args := [v]) he granted (by
    rw [Config.isShutdown_paramTypes w he]
    exact encodeParams_noRoom (.done 3 [v]) noRoom)
  rw [hv] at raised
  simp only [State.parse, State.isShutdown, on, closed, Bool.not_false, Bool.and_self, if_true, raised]

/-! ### A command alone (O48) -/

/-- The arguments of a command alone are the whole window behind its id (log 15). -/
theorem window_commandView (seq id : Byte) (args : List Byte) :
    window (commandView seq (id :: args)) 3 (args.length + 3) = args := by
  simp [window, commandView]

theorem commandView_length (seq id : Byte) (args : List Byte) :
    (commandView seq (id :: args)).length = args.length + 3 := by
  simp [commandView]

/-- A command alone is one turn of POLL's loop (log 15): a shutdown in its PARSE ends it. -/
theorem exec_command_ended {s t : State} {id : Byte} {args : List Byte} {parser : Parser} {r : Reason}
    (known : Schema.parserOf s.config.schema id = some parser)
    (ended : s.parse (commandView s.nextSeq (id :: args)) 3 (args.length + 3) parser = .ended r t) :
    exec (.command id args) s = .next (t.answer (.shutdown r)) := by
  show (State.commandTurn _ _ _ _ _).outcome _ = _
  rw [State.commandTurn_parseEnded rfl known ended]
  rfl

theorem exec_command_skip {s t : State} {id : Byte} {args : List Byte} {parser : Parser}
    (known : Schema.parserOf s.config.schema id = some parser)
    (skip : s.parse (commandView s.nextSeq (id :: args)) 3 (args.length + 3) parser = .ok none t) :
    exec (.command id args) s = .next (t.answer .skip) := by
  show (State.commandTurn _ _ _ _ _).outcome _ = _
  rw [State.commandTurn_parseSkip rfl known skip]
  rfl

theorem exec_command_dispatches {s : State} {id : Byte} {parser : Parser} {bs after : List Byte} {args : List Word}
    {inline : List (Nat × List Byte)} {hs : List (List HandlerAction)}
    (known : Schema.parserOf s.config.schema id = some parser) (allowed : s.shutdown = true → parser.inShutdown = true)
    (parsed : Parses parser.paramTypes 3 bs args inline) (hh : s.handlerRuns = [] :: hs) :
    exec (.command id (bs ++ after)) s =
      .next ((s.dispatched [.dispatch id args (inline.map Prod.snd)] hs).answer (.cursor (3 + bs.length))) := by
  show (State.commandTurn _ _ _ _ _).outcome _ = _
  rw [State.commandTurn_dispatches rfl known allowed (window_commandView _ id _) parsed hh]
  rfl

/-- Settles O48: the turn of a known command, by how its PARSE ends, and the empty payload. -/
theorem commandDispatches : Obligations.CommandDispatches := by
  unfold Obligations.CommandDispatches
  refine ⟨fun s id parser hs entry allowed => ⟨?dispatched, ?parserError⟩,
    fun s id parser e v bytes w entry he on closed hv => ⟨?skipped, ?tooLong⟩, ?empty⟩
  case dispatched =>
    intro bs after args inline parsed hh
    exact exec_command_dispatches (Schema.parserOf_some entry) allowed parsed hh
  case parserError =>
    intro bytes bad
    refine ⟨_, exec_command_ended (Schema.parserOf_some entry) ?_, s.raiseShutdown_trapped .parserError⟩
    refine State.parse_parserError allowed (commandView_length _ _ _).ge ?_
    rwa [window_commandView]
  case skipped =>
    intro fits
    exact exec_command_skip (Schema.parserOf_some entry) (State.parse_skips w he on closed hv fits _ _ _)
  case tooLong =>
    intro long granted
    exact ⟨_, exec_command_ended (Schema.parserOf_some entry)
      (State.parse_replyTooLong w he on closed hv long granted _ _ _), s.useGrant.raiseShutdown_trapped .encodeError⟩
  case empty =>
    intro s rest w h
    rw [step_reads w h]
    rfl

/-! ### A delivered frame (O43) -/

/-- A built frame with the expected number at the head of the input is accepted (R138, R139). -/
theorem State.accepts_buildFrame {s : State} {payload after : List Byte} (synced : s.needSync = false)
    (tagged : s.seqTagged = true) (short : payload.length ≤ 59)
    (hin : s.input = buildFrame s.config.crc payload s.nextSeq ++ after) : s.accepts = true := by
  obtain ⟨-, seqAt, -, -⟩ := buildFrame_view hin short
  have valid : frameValid s.config.crc s.input = true := by
    rw [hin]
    exact frameValid_buildFrame s.config.crc after tagged short
  rw [State.accepts, synced, valid, seqAt, beq_self_eq_true]
  rfl

/-- POLL of a frame of commands whose handlers do nothing: they are dispatched in wire order, then the frame is popped
(R222 to R227). -/
theorem State.pollOnce_commands {s : State} {payload after : List Byte} {es : List Event}
    {hs : List (List HandlerAction)} (synced : s.needSync = false) (tagged : s.seqTagged = true)
    (short : payload.length ≤ 59) (hin : s.input = buildFrame s.config.crc payload s.nextSeq ++ after)
    (hc : Commands s.config.schema s.shutdown 2 payload es) (hh : s.handlerRuns = List.replicate es.length [] ++ hs) :
    s.pollOnce = .ok () { s.accepted with
      input := after
      handlerRuns := hs
      trace := s.accepted.trace ++ es ++ [.pop (payload.length + 5)] } := by
  obtain ⟨config, shutdown, -, runs, input⟩ := s.accepted_keeps
  obtain ⟨len, -, view, behind⟩ := buildFrame_view hin short
  have loop := State.commandLoop_commands hc s.accepted hs payload.length [] (by rw [config]) shutdown view
    (Nat.add_comm _ _) le_rfl (runs.trans hh)
  rw [State.pollOnce_accepts (State.accepts_buildFrame synced tagged short hin), State.walkFrame, len,
    show payload.length + 5 - 3 = payload.length + 2 by omega, Nat.add_sub_cancel, loop]
  dsimp only
  rw [State.inPop, State.dispatched_input, input, behind]
  rfl

/-- Bytes delivered into an empty FIFO are polled alone (log 14). -/
theorem State.deliver_empty {s : State} (h : s.input = []) (bs : List Byte) :
    s.deliver bs = (State.pollOnce { s with input := bs }).outcome fun _ => .none := by
  rw [State.deliver, State.arrive, h, List.nil_append]

/-- Settles O43: the delivered bytes are a built frame, and its commands run; an empty frame has none. -/
theorem deliveredFrameRuns : Obligations.DeliveredFrameRuns := by
  unfold Obligations.DeliveredFrameRuns
  intro s u n es hs synced empty number
  have tagged : s.seqTagged = true := by rw [State.seqTagged, number, seqByte_tagOk]
  refine ⟨fun payload crc short hcrc commands hh hu => ?_, fun crc hcrc hu => ?_⟩
  · have built : encode (.frame n payload crc) = buildFrame s.config.crc payload s.nextSeq ++ [] := by
      rw [List.append_nil, number, hcrc]
      rfl
    have polled := State.pollOnce_commands (s := { s with input := encode (.frame n payload crc) }) synced tagged short
      built commands hh
    rw [← hu] at polled
    exact (State.deliver_empty empty _).trans (congrArg (Ran.outcome fun _ => .none) polled)
  · have built : encode (.ackNakFrame n crc) = buildFrame s.config.crc [] s.nextSeq ++ [] := by
      rw [List.append_nil, number, hcrc]
      rfl
    obtain ⟨-, -, -, runs, -⟩ := State.accepted_keeps { s with input := encode (.ackNakFrame n crc) }
    rw [← hu] at runs
    have polled := State.pollOnce_commands (s := { s with input := encode (.ackNakFrame n crc) }) (es := []) synced tagged
      (Nat.zero_le _) built (.done 2) runs.symm
    rw [← hu, List.append_nil] at polled
    exact (State.deliver_empty empty _).trans (congrArg (Ran.outcome fun _ => .none) polled)

end Sys2Proof.Machine
end

section
/-! CRC16 byte by byte: the bit-serial form is the table-driven one (O11), and a list with its own CRC appended has CRC
zero (O12). The shape: the inner step is linear over XOR and no more than a shift while the top bit is clear, so that
eight steps shift the low byte up and send the high byte through the table. -/

namespace Sys2Proof.Machine

/-! ### The inner steps -/

/-- The inner step is linear over XOR: the polynomial goes in for each top bit that is set. -/
theorem crcShift_xor (c d : Half) : crcShift (c ^^^ d) = crcShift c ^^^ crcShift d := by
  unfold crcShift
  rw [BitVec.msb_xor, BitVec.shiftLeft_xor_distrib]
  cases c.msb <;> cases d.msb
  case false.false => rfl
  case false.true => exact BitVec.xor_assoc ..
  case true.false =>
    change (c <<< 1 ^^^ d <<< 1) ^^^ 0x1021#16 = (c <<< 1 ^^^ 0x1021#16) ^^^ d <<< 1
    ac_rfl
  case true.true =>
    change c <<< 1 ^^^ d <<< 1 = (c <<< 1 ^^^ 0x1021#16) ^^^ (d <<< 1 ^^^ 0x1021#16)
    rw [BitVec.xor_comm (d <<< 1), BitVec.xor_assoc, ← BitVec.xor_assoc 0x1021#16, BitVec.xor_self, BitVec.zero_xor]

theorem crcShifts_xor (n : Nat) (c d : Half) : crcShifts n (c ^^^ d) = crcShifts n c ^^^ crcShifts n d := by
  induction n generalizing c d with
  | zero => rfl
  | succ n ih => rw [crcShifts, crcShift_xor, ih, crcShifts, crcShifts]

/-- While no set bit reaches the top, the inner steps only shift. -/
theorem crcShifts_eq_shiftLeft (n : Nat) (c : Half) (small : c.toNat * 2 ^ n < 2 ^ 16) : crcShifts n c = c <<< n := by
  induction n generalizing c with
  | zero => exact (BitVec.shiftLeft_zero c).symm
  | succ n ih =>
    have clear : c.toNat * 2 < 2 ^ 16 := by
      calc c.toNat * 2 ≤ c.toNat * 2 ^ (n + 1) := Nat.mul_le_mul_left _ (Nat.le_self_pow n.succ_ne_zero 2)
        _ < 2 ^ 16 := small
    have top : c.msb = false := BitVec.msb_eq_false_iff_two_mul_lt.mpr (by omega)
    have shifted : (c <<< 1).toNat = c.toNat * 2 := by
      rw [BitVec.toNat_shiftLeft, Nat.shiftLeft_eq, pow_one, Nat.mod_eq_of_lt clear]
    have one : crcShift c = c <<< 1 := by rw [crcShift, top]; rfl
    rw [crcShifts, one, ih _ (by rwa [shifted, Nat.mul_assoc, ← pow_succ']), ← BitVec.shiftLeft_add, Nat.add_comm]

/-- The eight steps of a byte shift the low byte of the register into the high one. -/
theorem crcShifts_eight_byte (b : Byte) : crcShifts 8 (b.setWidth 16) = b.setWidth 16 <<< 8 := by
  apply crcShifts_eq_shiftLeft
  rw [BitVec.toNat_setWidth_of_le (by decide)]
  have := b.isLt
  omega

/-! ### One byte -/

/-- A byte of input meets the high byte of the register; the low byte stands apart. -/
theorem xor_byte_eq_hi_lo (c : Half) (b : Byte) :
    c ^^^ (b.setWidth 16 <<< 8) = ((hiByte c ^^^ b).setWidth 16 <<< 8) ^^^ (loByte c).setWidth 16 := by
  ext i hi
  by_cases low : i < 8
  · simp [hiByte, loByte, low, hi]
  · simp [hiByte, loByte, low, hi, show i - 8 < 8 by omega, show 8 + (i - 8) = i by omega]

theorem loByte_shiftLeft_eight (c : Half) : (loByte c).setWidth 16 <<< 8 = c <<< 8 := by
  ext i hi
  simp [loByte, show i - 8 < 8 by omega, BitVec.getLsbD_eq_getElem (show i - 8 < 16 by omega)]

/-- Eight inner steps on a byte are one look into the table (R101). -/
theorem crcByte_eq_crcTableByte (c : Half) (b : Byte) : crcByte c b = crcTableByte c b :=
  calc crcByte c b
      = crcShifts 8 (((hiByte c ^^^ b).setWidth 16 <<< 8) ^^^ (loByte c).setWidth 16) := by
        rw [crcByte, xor_byte_eq_hi_lo]
    _ = crcTable (hiByte c ^^^ b) ^^^ (c <<< 8) := by
        rw [crcShifts_xor, crcShifts_eight_byte, loByte_shiftLeft_eight, crcTable]
    _ = crcTableByte c b := BitVec.xor_comm ..

/-- CRC16 is the table-driven fold (R101). -/
theorem crcStandard_eq_foldl_crcTableByte (bytes : List Byte) :
    crcStandard bytes = bytes.foldl crcTableByte crcInit := by
  rw [crcStandard, funext₂ crcByte_eq_crcTableByte]

/-- Settles O11: CRC16 answers and changes nothing else, and each byte of the default is one look into the table. -/
theorem crcTableDriven : Obligations.CrcTableDriven := by
  unfold Obligations.CrcTableDriven
  refine ⟨fun bytes s => rfl, fun bytes s standard => ?_, by decide, by decide⟩
  have table : crc16 s.config.crc bytes = bytes.foldl crcTableByte crcInit := by
    rw [standard]
    exact crcStandard_eq_foldl_crcTableByte bytes
  exact congrArg (fun c => Host.Outcome.next (s.answer (.crc c))) table

/-! ### The residue -/

/-- The register's own high byte cancels it: the table is read at 0, and the low byte moves up. -/
theorem crcByte_hiByte (c : Half) : crcByte c (hiByte c) = c <<< 8 := by
  have cancelled : (c >>> 8).setWidth 8 ^^^ hiByte c = 0 := BitVec.xor_self
  have zero : crcTable 0 = 0#16 := by decide
  rw [crcByte_eq_crcTableByte, crcTableByte, cancelled, zero, BitVec.xor_zero]

theorem hiByte_shiftLeft_eight (c : Half) : hiByte (c <<< 8) = loByte c := by
  ext i hi
  simp [hiByte, loByte, show 8 + i < 16 by omega, BitVec.getLsbD_eq_getElem (show i < 16 by omega)]

/-- Settles O12: each CRC byte cancels the high byte of the register, which two shifts by eight then empty. -/
theorem crcResidueIsZero : Obligations.CrcResidueIsZero := by
  unfold Obligations.CrcResidueIsZero
  intro h
  generalize hc : crcStandard h = c
  calc crcStandard (h ++ [hiByte c, loByte c])
      = crcByte (crcByte c (hiByte c)) (hiByte (c <<< 8)) := by
        rw [crcStandard, List.foldl_append, ← crcStandard, hc, hiByte_shiftLeft_eight]
        rfl
    _ = c <<< 8 <<< 8 := by rw [crcByte_hiByte, crcByte_hiByte]
    _ = 0#16 := by rw [← BitVec.shiftLeft_add, BitVec.shiftLeft_eq_zero (by decide)]

end Sys2Proof.Machine
end

section
/-! The VLQ codec as it is called (O13 to O17, O20). The shape: the bytes of a row with room for a value decode to that
value, which gives the round trip and the ranges of R117; the decoder's one lemma on a VLQ and its one lemma on bytes
that all have bit 7 set give every call of VLQ_DEC. -/

namespace Sys2Proof.Machine

/-! ### VLQ_LEN by ranges (R115) -/

/-- A signed test of R115 is an unsigned range at each end of the words. -/
theorem signedTest_iff_range (v : Word) {a b : Nat} (ha : a ≤ 2 ^ 31) (hb : b < 2 ^ 31) :
    (-(a : Int) ≤ v.toInt ∧ v.toInt < (b + 1 : Nat)) ↔ (v.toNat ≤ b ∨ 2 ^ 32 - a ≤ v.toNat) := by
  have small := v.isLt
  rw [BitVec.toInt_eq_toNat_cond]
  split_ifs <;> omega

theorem vlqLen_eq_vlqLenHex (v : Word) : vlqLen v = vlqLenHex v.toNat :=
  if_congr (signedTest_iff_range v (a := 32) (b := 0x5F) (by decide) (by decide)) rfl <|
  if_congr (signedTest_iff_range v (a := 4096) (b := 0x2FFF) (by decide) (by decide)) rfl <|
  if_congr (signedTest_iff_range v (a := 524288) (b := 0x17FFFF) (by decide) (by decide)) rfl <|
  if_congr (signedTest_iff_range v (a := 67108864) (b := 0xBFFFFFF) (by decide) (by decide)) rfl rfl

/-- VLQ_ENC answers the encoding and changes nothing else (R114). -/
theorem exec_vlqEnc_pure (v : Word) (s : State) :
    exec (.vlqEnc v none) s = .next { s with result := .bytes (vlqEnc v) } := rfl

/-- Settles O13: the encoding has VLQ_LEN bytes, and each signed test is its range. -/
theorem vlqEncLengthByRange : Obligations.VlqEncLengthByRange := by
  unfold Obligations.VlqEncLengthByRange
  intro v s
  refine ⟨vlqEnc v, exec_vlqEnc_pure v s, ?_, ?_⟩
  · rw [vlqEnc_length, vlqLen_eq_vlqLenHex]
  · rw [vlqEnc_length]
    norm_num [vlqLen]

/-! ### The calls of VLQ_DEC -/

/-- Bytes that start with a VLQ at the cursor give its value (R110). -/
theorem exec_vlqDec_unbounded_isVlq {bytes v after : List Byte} {p : Nat} (hv : isVlq v = true)
    (cut : bytes.drop p = v ++ after) (s : State) :
    exec (.vlqDec bytes p none) s =
      .next { s with result := .vlq (BitVec.ofInt 32 (vlqInt v)) (p + v.length) } := by
  show vlqDecUnbounded bytes p s = _
  rw [vlqDecUnbounded, cut, vlqDec_isVlq after hv]
  rfl

/-- The same under a bound past the VLQ (R111). -/
theorem exec_vlqDec_bounded_isVlq {bytes v after : List Byte} {p stop : Nat} (hv : isVlq v = true)
    (cut : window bytes p stop = v ++ after) (s : State) :
    exec (.vlqDec bytes p (some stop)) s =
      .next { s with result := .vlq (BitVec.ofInt 32 (vlqInt v)) (p + v.length) } := by
  show vlqDecBounded bytes p stop s = _
  rw [vlqDecBounded, cut, vlqDec_isVlq after hv]
  rfl

/-- A list that ends while bit 7 is set has no result (U1). -/
theorem exec_vlqDec_unbounded_cut {bytes : List Byte} {p : Nat} (more : ∀ b ∈ bytes.drop p, b.msb = true)
    (s : State) :
    exec (.vlqDec bytes p none) s = .refused .vlqRunsOffList := by
  show vlqDecUnbounded bytes p s = _
  rw [vlqDecUnbounded, vlqDec_none more]

/-- Under a bound the same list stops as `pastEnd` says of the indices it lacks (R111). -/
theorem exec_vlqDec_bounded_cut {bytes : List Byte} {p stop : Nat} (more : ∀ b ∈ window bytes p stop, b.msb = true)
    (s : State) :
    exec (.vlqDec bytes p (some stop)) s =
      (Ran.ofStop s (pastEnd (beyond bytes p stop)) : Ran Unit).outcome fun _ => .none := by
  show vlqDecBounded bytes p stop s = _
  rw [vlqDecBounded, vlqDec_none more]

/-- Settles O15: what stands at the cursor is the VLQ and what follows it. -/
theorem vlqDecClosedForm : Obligations.VlqDecClosedForm := by
  unfold Obligations.VlqDecClosedForm
  intro before v after s hv
  refine exec_vlqDec_unbounded_isVlq (after := after) hv ?_ s
  rw [List.append_assoc, List.drop_left]

/-- Settles O16: the bound cuts the list, and the indices it leaves beyond the list tell the raise from the refusal.
(`vlqDecBounded` itself is the model's function.) -/
theorem vlqDecBounded_holds : Obligations.VlqDecBounded := by
  unfold Obligations.VlqDecBounded
  intro bytes p stop s
  refine ⟨fun v after hv cut => exec_vlqDec_bounded_isVlq hv cut s, fun inside more => ?_,
    fun more => exec_vlqDec_unbounded_cut more s, fun past low more => ?_⟩
  · have none_beyond : beyond bytes p stop = 0 := by
      unfold beyond
      omega
    refine ⟨_, ?_, s.raiseShutdown_trapped .parserError⟩
    rw [exec_vlqDec_bounded_cut more, none_beyond]
    rfl
  · have some_beyond : beyond bytes p stop ≠ 0 := by
      unfold beyond
      omega
    have whole : window bytes p stop = bytes.drop p := by rw [window, List.take_of_length_le past.le]
    rw [exec_vlqDec_bounded_cut (whole ▸ more), pastEnd, if_neg some_beyond]
    rfl

/-! ### A value in a row with room for it -/

/-- The groups of a word, read as a row that holds its signed value, are that value. -/
theorem groupsValue_setWidth {v : Word} {k : Nat} (low : 1 ≤ k) (high : k ≤ 4) (row : inVlqRow k v.toInt = true) :
    groupsValue k (v.setWidth (7 * k)).toNat = v.toInt := by
  have small := v.isLt
  simp only [inVlqRow, Bool.and_eq_true, decide_eq_true_eq, BitVec.toInt_eq_toNat_cond] at row
  rw [BitVec.toNat_setWidth, groupsValue, BitVec.toInt_eq_toNat_cond]
  interval_cases k <;> split_ifs at row ⊢ <;> omega

/-- A row of `k` bytes with room for a value decodes to it. -/
theorem vlqInt_groupBytes_of_vlqLen_le {v : Word} {k : Nat} (low : 1 ≤ k) (high : k ≤ 5) (fits : vlqLen v ≤ k) :
    BitVec.ofInt 32 (vlqInt (groupBytes v k)) = v := by
  obtain rfl | short : k = 5 ∨ k ≤ 4 := by omega
  · rw [vlqInt_groupBytes v (by decide) (by decide), groupsValue_five]
  · rw [← groupBytes_setWidth v low, vlqInt_groupBytes _ low le_rfl,
      groupsValue_setWidth low short ((vlqLen_le_iff v low high).mp fits), BitVec.ofInt_toInt]

/-- Settles O14: the encoding is the row of VLQ_LEN bytes, and 0 has a second, longer row. -/
theorem vlqRoundTrip : Obligations.VlqRoundTrip := by
  unfold Obligations.VlqRoundTrip
  refine ⟨fun v s => ⟨vlqEnc v, exec_vlqEnc_pure v s, vlqEnc_length v, fun t => ?_⟩,
    [0x80, 0x00], 0, by decide, fun t => rfl, by decide⟩
  have row : isVlq (vlqEnc v) = true := groupBytes_isVlq v _ (vlqLen_pos v)
  rw [exec_vlqDec_unbounded_isVlq row (List.append_nil _).symm, Nat.zero_add, vlqEnc_length, vlqEnc,
    vlqInt_groupBytes_of_vlqLen_le (vlqLen_pos v) (vlqLen_le v) le_rfl]

/-- VLQ_DEC of a VLQ alone. -/
theorem vlqDec_whole {bs : List Byte} (hv : isVlq bs = true) :
    vlqDec bs = some (BitVec.ofInt 32 (vlqInt bs), bs.length) := by
  simpa using vlqDec_isVlq [] hv

/-- No VLQ of a value is shorter than its encoding (R117). -/
theorem vlqLen_vlqInt_le {bs : List Byte} (hv : isVlq bs = true) :
    vlqLen (BitVec.ofInt 32 (vlqInt bs)) ≤ bs.length := by
  have low := Laws.isVlq_length hv
  obtain long | short : 5 ≤ bs.length ∨ bs.length ≤ 4 := by omega
  · exact (vlqLen_le _).trans long
  · have bytes : groupBytes (joinGroups (7 * bs.length) bs) bs.length = bs :=
      groupBytes_joinGroups bs _ low rfl hv (by omega) fun m hm above => by omega
    have value := vlqInt_groupBytes (joinGroups (7 * bs.length) bs) low le_rfl
    rw [bytes] at value
    rw [vlqLen_le_iff _ low (by omega), value, toInt_groupsValue low short (BitVec.isLt _)]
    exact groupsValue_inVlqRow low (BitVec.isLt _)

/-- The values that `k` bytes decode to are those whose encoding is not longer (R117). -/
theorem exists_vlqDec_iff_vlqLen_le {k : Nat} (v : Word) (low : 1 ≤ k) (high : k ≤ 5) :
    (∃ bs, bs.length = k ∧ isVlq bs = true ∧ vlqDec bs = some (v, k)) ↔ vlqLen v ≤ k := by
  constructor
  · rintro ⟨bs, rfl, hv, dec⟩
    have value : BitVec.ofInt 32 (vlqInt bs) = v :=
      congrArg Prod.fst (Option.some.inj ((vlqDec_whole hv).symm.trans dec))
    exact value ▸ vlqLen_vlqInt_le hv
  · intro fits
    have row := groupBytes_isVlq v k low
    refine ⟨groupBytes v k, groupBytes_length v k, row, ?_⟩
    rw [vlqDec_whole row, groupBytes_length, vlqInt_groupBytes_of_vlqLen_le low high fits]

/-- The row of `k` bytes by its ends; five bytes hold every word (R117). -/
theorem vlqLen_le_iff_range {k : Nat} (v : Word) (low : 1 ≤ k) (high : k ≤ 5) :
    vlqLen v ≤ k ↔ k = 5 ∨ (-(2 ^ (7 * k - 2) : Int) ≤ v.toInt ∧ v.toInt ≤ 3 * 2 ^ (7 * k - 2) - 1) := by
  rw [Int.le_sub_one_iff]
  by_cases five : k = 5
  · subst five
    simp [vlqLen_le v]
  · simp [vlqLen_le_iff v low high, inVlqRow, five]

/-- Settles O17: both descriptions are VLQ_LEN's. -/
theorem vlqRowsAreWhatDecodes : Obligations.VlqRowsAreWhatDecodes := by
  unfold Obligations.VlqRowsAreWhatDecodes
  intro k v low high
  have decodes := exists_vlqDec_iff_vlqLen_le v low high
  exact ⟨decodes.trans (vlqLen_le_iff_range v low high), decodes⟩

/-! ### A write in place -/

theorem writeAt_length {r bs : List Byte} {p : Nat} (room : p + bs.length ≤ r.length) :
    (writeAt r p bs).length = r.length := by
  simp only [writeAt, List.length_append, List.length_take, List.length_drop]
  omega

/-- The bytes written stand at the cursor. -/
theorem writeAt_written {r bs : List Byte} {p : Nat} (start : p ≤ r.length) :
    ((writeAt r p bs).drop p).take bs.length = bs := by
  have before : (r.take p).length = p := List.length_take_of_le start
  rw [writeAt, List.append_assoc, List.drop_left' before, List.take_left]

/-- Every other byte is kept. -/
theorem writeAt_getElem?_outside {r bs : List Byte} {p j : Nat} (start : p ≤ r.length)
    (outside : j < p ∨ p + bs.length ≤ j) : (writeAt r p bs)[j]? = r[j]? := by
  have before : (r.take p).length = p := List.length_take_of_le start
  have written : (r.take p ++ bs).length = p + bs.length := by rw [List.length_append, before]
  unfold writeAt
  obtain below | above := outside
  · rw [List.append_assoc, List.getElem?_append_left (by omega), List.getElem?_take_of_lt below]
  · rw [List.getElem?_append_right (by omega), List.getElem?_drop, written, Nat.add_sub_cancel' above]

/-- VLQ_ENC in place, with room, writes its bytes into the reservation (R114). -/
theorem exec_vlqEnc_fits {s : State} {r : List Byte} {v : Word} {p : Nat} (reserved : s.reservation = some r)
    (room : p + vlqLen v ≤ r.length) :
    exec (.vlqEnc v (some p)) s =
      .next { s with reservation := some (writeAt r p (vlqEnc v)), result := .cursor (p + vlqLen v) } := by
  show execVlqEnc v (some p) s = _
  simp only [execVlqEnc, reserved, if_neg (Nat.not_lt.mpr room), State.outWrite, State.answer, Option.map_some]

/-- Settles O20: the call is one write at the cursor, and without room or a reservation it stops before it. -/
theorem vlqEncInPlace : Obligations.VlqEncInPlace := by
  unfold Obligations.VlqEncInPlace
  intro v p s
  refine ⟨fun r reserved room => ⟨writeAt r p (vlqEnc v), exec_vlqEnc_fits reserved room, ?_⟩,
    fun r reserved short => ?_, fun closed => ?_⟩
  · have start : p ≤ r.length := by omega
    rw [← vlqEnc_length] at room ⊢
    exact ⟨writeAt_length room, writeAt_written start, fun j => writeAt_getElem?_outside start⟩
  · show execVlqEnc v (some p) s = _
    simp only [execVlqEnc, reserved, if_pos short]
  · show execVlqEnc v (some p) s = _
    simp only [execVlqEnc, closed]

end Sys2Proof.Machine
end

section
/-! FRAME_RX, and POLL with it (O21 to O25, O44, O52, O57). The shape: one lemma says what FRAME_RX does with each kind of
input view (Laws/Flags), a POLL whose FRAME_RX returns none ends in the same state, an executed frame-layer form is a POLL
of the longer input, and an accepted frame is walked by commands that write no register. -/

namespace Sys2Proof.Machine

/-! ### Frames offered -/

/-- A frame offered to the transport touches no register and no input. -/
theorem State.offer_sameRegs (n : Nat) (f : List Byte) (s : State) : s.sameRegs (s.offer n f) := by
  unfold State.offer
  split_ifs <;> exact ⟨rfl, rfl, rfl, rfl⟩

theorem State.offer_output (n : Nat) (f : List Byte) (s : State) :
    (s.offer n f).output = s.output ++ if s.granted n then f else [] := by
  unfold State.offer
  split_ifs
  · rfl
  · exact (List.append_nil s.output).symm

/-- The registers of an accepted frame (R138, R140). -/
theorem State.accepted_regs (s : State) :
    s.accepted.nextSeq = nextSeqAfter (byteAt s.input 1) ∧ s.accepted.needSync = s.needSync
      ∧ s.accepted.needValid = false ∧ s.accepted.input = s.input :=
  State.offer_sameRegs 5 _ { s with needValid := false, nextSeq := nextSeqAfter (byteAt s.input 1) }

/-- What accepting a frame asks (R138, R139). -/
theorem State.accepts_iff (s : State) :
    s.accepts = true ↔
      s.needSync = false ∧ frameValid s.config.crc s.input = true ∧ byteAt s.input 1 = s.nextSeq := by
  simp [State.accepts, and_assoc]

/-! ### FRAME_RX returns none -/

/-- When FRAME_RX returns none, FRAME_RX and POLL end in the same state but for the result (R221). -/
theorem exec_of_frameRx_none {s t : State} (h : s.frameRx = (none, t)) :
    exec .frameRx s = .next (t.answer .noFrame) ∧ exec .poll s = .next (t.answer .none) := by
  refine ⟨?_, ?_⟩
  · show execFrameRx s = _
    rw [execFrameRx, h]
    rfl
  · show execPoll s = _
    rw [execPoll, State.pollOnce_none h]
    rfl

theorem viewWaits_iff (v : List Byte) :
    viewWaits v = true ↔
      v.length < 5 ∨ (lenOk v = true ∧ tagOk (byteAt v 1) = true ∧ v.length < (byteAt v 0).toNat) := by
  simp [viewWaits, and_assoc]

/-- Settles O21: such a view waits, and FRAME_RX leaves the state. -/
theorem frameRxWaitsForBytes : Obligations.FrameRxWaitsForBytes := by
  unfold Obligations.FrameRxWaitsForBytes
  intro s synced short
  exact exec_of_frameRx_none (State.frameRx_waits synced ((viewWaits_iff s.input).mpr short))

/-- A view led by SYNC is invalid, since no LEN is 0x7E (R133). -/
theorem viewInvalid_of_leading_sync (k : CrcKind) {v : List Byte} (enough : 5 ≤ v.length)
    (lead : byteAt v 0 = syncByte) : viewInvalid k v = true := by
  have badLen : lenOk v = false := by
    rw [lenOk, lead]
    decide
  simp [viewInvalid, enough, badLen]

/-- Settles O22: the view is invalid, and the fail path swallows its first byte. -/
theorem frameRxSwallowsLeadingSync : Obligations.FrameRxSwallowsLeadingSync := by
  unfold Obligations.FrameRxSwallowsLeadingSync
  intro s synced enough lead
  have swallows : s.frameRx = (none, s.inPop 1) := by
    rw [State.frameRx_invalid synced (viewInvalid_of_leading_sync _ enough lead), State.frameFail_eq, if_pos lead]
  exact exec_of_frameRx_none swallows

/-- A pending resync, and an invalid view not led by SYNC, take the same scan and the same latched NAK (R131, R143). -/
theorem State.frameRx_scans {s : State}
    (h : s.needSync = true ∨ (viewInvalid s.config.crc s.input = true ∧ byteAt s.input 0 ≠ syncByte)) :
    s.frameRx = (none, s.scanned.nakOnce) := by
  cases pending : s.needSync with
  | true => rw [State.frameRx_resync pending, State.resync_eq pending]
  | false =>
    obtain ⟨invalid, lead⟩ := h.resolve_left (by simp [pending])
    rw [State.frameRx_invalid pending invalid, State.frameFail_eq, if_neg lead]

/-- With the latch set nothing is sent (R145). -/
theorem State.nakOnce_latched {s : State} (h : s.needValid = true) : s.nakOnce = s := by
  rw [State.nakOnce_eq, if_pos h]

/-- With the latch clear it is set and one NAK is offered (R146). -/
theorem State.nakOnce_unlatched {s : State} (h : s.needValid = false) :
    s.nakOnce = State.offer 5 s.emptyFrame { s with needValid := true } := by
  rw [State.nakOnce_eq, if_neg (by simp [h])]

/-- Settles O23: one scan, then the latch decides about the NAK. -/
theorem frameRxResyncsAndNaksOnce : Obligations.FrameRxResyncsAndNaksOnce := by
  unfold Obligations.FrameRxResyncsAndNaksOnce
  intro s h
  have ends := exec_of_frameRx_none (State.frameRx_scans h)
  refine ⟨fun latched => ?_, fun unlatched => ?_⟩
  · rwa [State.nakOnce_latched (s := s.scanned) latched] at ends
  · rwa [State.nakOnce_unlatched (s := s.scanned) unlatched] at ends

/-- Settles O25: FRAME_RX discards the frame, and the NAK touches no register. -/
theorem frameRxDiscardsOutOfSequence : Obligations.FrameRxDiscardsOutOfSequence := by
  unfold Obligations.FrameRxDiscardsOutOfSequence
  rintro s synced valid other t rfl
  obtain ⟨rx, poll⟩ := exec_of_frameRx_none (State.frameRx_discards synced valid other)
  obtain ⟨number, -, -, -⟩ := State.offer_sameRegs 5 s.emptyFrame
    (State.inPop (byteAt s.input 0).toNat { s with needValid := false })
  exact ⟨rx, poll, number⟩

/-! ### A frame is accepted -/

/-- Settles O24: FRAME_RX ends in `accepted`, whose registers and output the offer of the ACK says. -/
theorem frameRxAcceptsExpectedFrame : Obligations.FrameRxAcceptsExpectedFrame := by
  unfold Obligations.FrameRxAcceptsExpectedFrame
  intro s synced valid expected
  obtain ⟨number, sync, latch, input⟩ := s.accepted_regs
  refine ⟨?_, number, latch, sync.trans synced, input, ?_⟩
  · show execFrameRx s = _
    rw [execFrameRx, State.frameRx_accepts (s.accepts_iff.mpr ⟨synced, valid, expected⟩)]
    rfl
  · rw [number]
    exact State.offer_output 5 _ { s with needValid := false, nextSeq := nextSeqAfter (byteAt s.input 1) }

/-- The events of commands hold no pop (R227). -/
theorem State.Handled.trace_no_pop {s t : State} (h : s.Handled t) :
    ∃ es, t.trace = s.trace ++ es ∧ ∀ e ∈ es, ∀ n, e ≠ .pop n := by
  obtain ⟨es, trace, -, allowed⟩ := h.trace
  refine ⟨es, trace, fun e mem n pop => ?_⟩
  subst pop
  exact allowed _ mem

/-- Settles O44: the walk begins in `accepted`, and the commands keep the registers and pop nothing, so the pop or the
shutdown at its end is the only one. -/
theorem pollAcknowledgesBeforeCommands : Obligations.PollAcknowledgesBeforeCommands := by
  unfold Obligations.PollAcknowledgesBeforeCommands
  intro s t accepts polled
  obtain ⟨-, sync, latch, input⟩ := s.accepted_regs
  have synced := sync.trans (s.accepts_iff.mp accepts).1
  have walked : (s.accepted.walkFrame s.input (byteAt s.input 0).toNat).outcome (fun _ => .none) = .next t := by
    rw [← State.pollOnce_accepts accepts]
    exact polled
  rcases s.accepted.walkFrame_cases s.input (byteAt s.input 0).toNat with
    ⟨u, handled, e⟩ | ⟨r, u, handled, e⟩ | ⟨f, e⟩ | ⟨r, e⟩ <;> rw [e] at walked <;> cases walked
  all_goals
    obtain ⟨es, trace, noPop⟩ := handled.trace_no_pop
    have kept := handled.input.trans input
    refine ⟨handled.nextSeq, handled.needSync.trans synced, handled.needValid.trans latch, es, noPop, ?_⟩
  · exact .inl ⟨congrArg (List.drop _) kept, rfl, congrArg (· ++ [_]) trace⟩
  · exact .inr ⟨r, kept, rfl, rfl, congrArg (· ++ [_]) trace⟩

/-! ### Bytes delivered by a form (O52) -/

/-- An executed frame-layer form is a POLL of the input with its bytes at the tail (log 14). -/
theorem exec_form_eq_poll {i : Instr} {f : Form} (form : i.form? = some f) (polls : pollsInput i = true) (s : State) :
    exec i s = exec .poll (s.arrive (encode i)) := by
  cases i with
  | frame | frameLen | frameSeq | frameCrc | frameSync | ackNakFrame => rfl
  | frameRx | poll => cases form
  | _ => cases polls

/-- A delivery that leaves the view short or incomplete (R132, R135). -/
theorem exec_poll_arrive_waits {s : State} {bs : List Byte} (synced : s.needSync = false)
    (waits : viewWaits (s.input ++ bs) = true) :
    exec .poll (s.arrive bs) = .next { s with input := s.input ++ bs, result := .none } :=
  (exec_of_frameRx_none (State.frameRx_waits (s := s.arrive bs) synced waits)).2

/-- The scan of a view whose only SYNC is its last byte pops all of it (R144). -/
theorem syncScan_append_sync {v : List Byte} (clean : syncByte ∉ v) : syncScan (v ++ [syncByte]) = v.length + 1 := by
  have passed : ∀ b ∈ v, (b != syncByte) = true := fun b mem => bne_iff_ne.mpr fun e => clean (e ▸ mem)
  simp [syncScan, List.takeWhile_append_of_pos passed]

theorem State.scanned_arrive_sync {s : State} (clean : syncByte ∉ s.input) :
    (s.arrive [syncByte]).scanned =
      { s with input := [], needSync := false, trace := s.trace ++ [.pop (s.input.length + 1)] } := by
  simp [State.scanned, State.arrive, syncScan_append_sync clean]

/-- Settles O52: every form is a POLL of the longer input, and a view that waits or a pending resync says what it does. -/
theorem frameFieldsEnterTheFifo : Obligations.FrameFieldsEnterTheFifo := by
  unfold Obligations.FrameFieldsEnterTheFifo
  refine ⟨fun s => ⟨fun synced => ?fields, fun pending latched clean => ?sync⟩,
    fun s i f form polls => exec_form_eq_poll form polls s, fun s f bs rest form w h => ?presented⟩
  case fields =>
    exact ⟨fun _ => exec_poll_arrive_waits synced, fun _ => exec_poll_arrive_waits synced,
      fun _ => exec_poll_arrive_waits synced, exec_poll_arrive_waits synced⟩
  case sync =>
    have scans := State.frameRx_scans (s := s.arrive [syncByte]) (.inl pending)
    rw [State.nakOnce_latched (s := (s.arrive [syncByte]).scanned) latched, State.scanned_arrive_sync clean] at scans
    exact (exec_of_frameRx_none scans).2
  case presented =>
    rw [step_reads w h]
    obtain rfl | rfl | rfl | rfl | rfl | rfl := form <;> rfl

/-! ### NEXT_SEQ (O57) -/

/-- The NAK latch sends at most a frame, which leaves NEXT_SEQ. -/
theorem State.nakOnce_nextSeq (s : State) : s.nakOnce.nextSeq = s.nextSeq := s.nakOnce_sent.nextSeq

/-- FRAME_RX advances NEXT_SEQ on a frame it accepts, and otherwise leaves it (R140, R141). -/
theorem State.frameRx_nextSeq (s : State) :
    s.frameRx.2.nextSeq = if s.accepts then nextSeqAfter s.nextSeq else s.nextSeq := by
  cases a : s.accepts with
  | true =>
    obtain ⟨-, -, expected⟩ := s.accepts_iff.mp a
    rw [State.frameRx_accepts a, if_pos rfl, ← expected]
    exact s.accepted_regs.1
  | false =>
    rw [if_neg (by decide)]
    rcases s.frameRx_cases with ⟨_, e⟩ | ⟨_, _, e⟩ | ⟨_, _, e⟩ | ⟨_, _, _, e⟩ | ⟨a', _⟩ | ⟨_, _, _, e⟩
    · exact e ▸ s.scanned.nakOnce_nextSeq
    · exact congrArg (fun r => r.2.nextSeq) e
    · exact congrArg (fun r => r.2.nextSeq) e
    · exact e ▸ s.scanned.nakOnce_nextSeq
    · exact absurd a' (by simp [a])
    · rw [e]
      exact (State.offer_sameRegs 5 _ _).1

/-- After FRAME_RX a POLL leaves NEXT_SEQ: it walks the commands and pops (R221 to R227). -/
theorem State.pollOnce_nextSeq (s : State) : s.pollOnce.Post fun u => u.nextSeq = s.frameRx.2.nextSeq := by
  unfold State.pollOnce
  obtain ⟨_ | msglen, v⟩ := s.frameRx
  · rfl
  · dsimp only
    rcases v.walkFrame_cases s.inPeek msglen with ⟨u, h, e⟩ | ⟨r, u, h, e⟩ | ⟨f, e⟩ | ⟨r, e⟩ <;> rw [e]
    · exact h.nextSeq
    · exact ⟨u, h.nextSeq, rfl⟩
    · trivial
    · trivial

theorem exec_poll_nextSeq {s t : State} (h : exec .poll s = .next t) : t.nextSeq = s.frameRx.2.nextSeq := by
  obtain ⟨u, _, number, rfl⟩ | ⟨u, r, number, rfl⟩ := s.pollOnce_nextSeq.outcome_next h <;> exact number

theorem State.arrive_nil (s : State) : s.arrive [] = s := by
  rw [State.arrive, List.append_nil]

/-- What gives the input to FRAME_RX leaves NEXT_SEQ as FRAME_RX does on the input with the delivered bytes. -/
theorem exec_pollsInput_nextSeq {i : Instr} {s t : State} (polls : pollsInput i = true) (h : exec i s = .next t) :
    t.nextSeq = (s.arrive (delivers i)).frameRx.2.nextSeq := by
  cases form : i.form? with
  | some f =>
    rw [exec_form_eq_poll form polls] at h
    rw [delivers, if_pos polls]
    exact exec_poll_nextSeq h
  | none =>
    cases i with
    | frameRx =>
      cases h
      show _ = (s.arrive []).frameRx.2.nextSeq
      rw [State.arrive_nil]
      rfl
    | poll =>
      show _ = (s.arrive []).frameRx.2.nextSeq
      rw [State.arrive_nil]
      exact exec_poll_nextSeq h
    | frame | frameLen | frameSeq | frameCrc | frameSync | ackNakFrame => cases form
    | _ => cases polls

/-- Settles O57: only FRAME_RX writes NEXT_SEQ, and only on a frame it accepts. -/
theorem nextSeqAdvancesOnlyForExpectedFrame : Obligations.NextSeqAdvancesOnlyForExpectedFrame := by
  unfold Obligations.NextSeqAdvancesOnlyForExpectedFrame
  intro i s t h
  cases polls : pollsInput i with
  | false =>
    have ends := exec_ends h
    rw [polls] at ends
    obtain ⟨number, -, -, -⟩ := ends.sameRegs
    exact number
  | true =>
    rw [Bool.true_and, exec_pollsInput_nextSeq polls h, State.frameRx_nextSeq]
    rfl

end Sys2Proof.Machine
end

section
/-! Every frame a step commits is one the device builds under the number it then expects (O55). The shape: a commit is a
frame built in the state the operation ends in (`State.Stamps`), since what is sent after FRAME_RX's own writes leaves
NEXT_SEQ; the inversions `frameRx_cases`, `exec_ends` and `step_cases` carry this to every step, and a built frame is
valid. -/

namespace Sys2Proof.Machine

/-! ### Built frames -/

/-- What a state builds depends on its number and its configuration only. -/
theorem State.Builds_congr {s t : State} (number : t.nextSeq = s.nextSeq) (config : t.config = s.config)
    {b : List Byte} (h : s.Builds b) : t.Builds b := by
  rwa [State.Builds, number, config]

/-- A frame the block builds is valid, as long as its LEN says, and stamped (R84, R164). -/
theorem State.Builds.valid {s : State} {b : List Byte} (h : s.Builds b) (w : s.config.wf = true)
    (tagged : s.seqTagged = true) :
    frameValid s.config.crc b = true ∧ b.length = (byteAt b 0).toNat ∧ b.length ≤ 64 ∧ byteAt b 1 = s.nextSeq := by
  obtain ⟨payload, built, bounded⟩ := h
  have short := bounded w
  rw [← List.append_nil (buildFrame _ _ _)] at built
  obtain ⟨len, seqAt, -, -, -, -, whole⟩ := frameBytes_fields built short
  refine ⟨?_, by rw [whole, len]; rfl, by rw [whole, List.length_nil]; omega, seqAt⟩
  rw [built]
  exact frameValid_buildFrame _ _ tagged short

/-- The part of the invariant a built frame needs (R32(a)). -/
theorem State.Inv.seqTagged {s : State} (inv : s.Inv = true) : s.seqTagged = true := by
  simp only [State.Inv, Bool.and_eq_true] at inv
  obtain ⟨⟨⟨tagged, -⟩, -⟩, -⟩ := inv
  exact tagged

/-! ### What an operation commits -/

/-- From `s` to `t` the trace has grown by some events, and every frame committed among them is one that `t` builds. -/
def State.Stamps (s t : State) : Prop :=
  ∃ es, t.trace = s.trace ++ es ∧ ∀ b, .commit b ∈ es → t.Builds b

theorem State.Stamps.of_eq {s t : State} (trace : t.trace = s.trace) : s.Stamps t :=
  ⟨[], by rw [trace, List.append_nil], fun _ mem => absurd mem List.not_mem_nil⟩

/-- A pop commits nothing and leaves the number (R45). -/
theorem State.Stamps.inPop {s t : State} (h : s.Stamps t) (n : Nat) : s.Stamps (t.inPop n) := by
  obtain ⟨es, trace, built⟩ := h
  refine ⟨es ++ [.pop n], by rw [State.inPop_trace, trace, List.append_assoc], fun b mem => ?_⟩
  obtain mem | mem := List.mem_append.mp mem
  · exact built b mem
  · simp at mem

/-- What commands, their sends and their handlers add is built under the number they all leave. -/
theorem State.Stamps.handled {s t u : State} (h : s.Stamps t) (k : t.Handled u) : s.Stamps u := by
  obtain ⟨es, trace, built⟩ := h
  obtain ⟨fs, added, -, allowed⟩ := k.trace
  refine ⟨es ++ fs, by rw [added, trace, List.append_assoc], fun b mem => State.Builds_congr k.nextSeq k.config ?_⟩
  obtain mem | mem := List.mem_append.mp mem
  · exact built b mem
  · exact allowed _ mem

/-- An answer adds no event and leaves the number. -/
theorem State.Stamps.answer {s t : State} (h : s.Stamps t) (r : Result) : s.Stamps (t.answer r) := h

theorem State.Handled.stamps {s t : State} (h : s.Handled t) : s.Stamps t := (State.Stamps.of_eq rfl).handled h

/-! ### FRAME_RX, instructions, moves -/

/-- An ACKNAK after FRAME_RX's own writes is stamped with the number they left. -/
theorem State.Stamps.offer_emptyFrame {s u : State} (h : s.Stamps u) : s.Stamps (u.offer 5 u.emptyFrame) := by
  rw [← State.ackNak_eq_offer]
  exact h.handled u.ackNak_sent.toHandled

theorem State.scanned_nakOnce_stamps (s : State) : s.Stamps s.scanned.nakOnce := by
  have scan : s.Stamps { s.scanned with needValid := true } :=
    State.Stamps.inPop (t := s) (.of_eq rfl) (syncScan s.input)
  exact scan.handled s.scanned.nakOnce_sent.toHandled

theorem State.frameRx_stamps (s : State) : s.Stamps s.frameRx.2 := by
  rcases s.frameRx_cases with ⟨_, e⟩ | ⟨_, _, e⟩ | ⟨_, _, e⟩ | ⟨_, _, _, e⟩ | ⟨_, e⟩ | ⟨_, _, _, e⟩ <;> rw [e]
  · exact s.scanned_nakOnce_stamps
  · exact .of_eq rfl
  · exact State.Stamps.inPop (.of_eq rfl) 1
  · exact s.scanned_nakOnce_stamps
  · exact State.Stamps.offer_emptyFrame (.of_eq rfl)
  · exact State.Stamps.offer_emptyFrame
      (State.Stamps.inPop (t := { s with needValid := false }) (.of_eq rfl) (byteAt s.input 0).toNat)

/-- FRAME_RX on the longer input: an arrival adds no event. -/
theorem State.arrive_frameRx_stamps (bs : List Byte) (s : State) : s.Stamps (s.arrive bs).frameRx.2 :=
  (s.arrive bs).frameRx_stamps

theorem State.Ends.stamps {s t : State} {polls runs : Bool} (h : s.Ends polls runs t) : s.Stamps t := by
  cases h with
  | sent keeps r => exact keeps.toHandled.stamps.answer r
  | handled keeps r => exact keeps.stamps.answer r
  | received r => exact s.frameRx_stamps.answer r
  | polled keeps r => exact ((s.arrive_frameRx_stamps _).handled keeps).answer r
  | popped keeps n r => exact (((s.arrive_frameRx_stamps _).handled keeps).inPop n).answer r

theorem State.Makes.stamps {s t : State} {m : Move} (h : s.Makes m t) : s.Stamps t := by
  cases h with
  | call ran => exact (exec_ends ran).stamps
  | decoded _ ran => exact (exec_ends ran).stamps
  | read ran =>
    obtain ⟨_, _, ends⟩ := State.readForm_ends ran
    exact ends.stamps
  | arrive | drain | setShutdown => exact .of_eq rfl
  | store wrote => exact (State.storeData_handled wrote).stamps
  | reserve n => exact (s.outReserve_sent n).toHandled.stamps

theorem step_stamps {s t : State} (h : step s = .next t) : s.Stamps t := by
  obtain ⟨-, ⟨-, polled⟩ | ⟨m, rest, -, made⟩⟩ := step_cases h
  · exact (exec_ends polled).stamps
  · exact made.stamps

/-- Settles O55: what a step commits is built in the state it ends in, where the invariant and the schema still hold. -/
theorem committedFramesAreValid : Obligations.CommittedFramesAreValid := by
  unfold Obligations.CommittedFramesAreValid
  intro s t inv h
  obtain ⟨w, -⟩ := step_cases h
  have config : t.config = s.config := (step_keepsSetup h).config
  have tagged : t.seqTagged = true := State.Inv.seqTagged (stepKeepsInvariant s t inv h)
  obtain ⟨es, trace, built⟩ := step_stamps h
  refine ⟨es, trace, fun b mem => ?_⟩
  rw [← config]
  exact (built b mem).valid (by rwa [config]) tagged

end Sys2Proof.Machine
end

section
/-! ACKNAK and FRAME_TX (O27 to O29, O31), and the calls outside the domain of their rules (O38). The shape: a refused
reservation is a drop, parameters that encode are one offered frame, and every stop is the stop of the pure loop the
call runs. -/

namespace Sys2Proof.Machine

/-! ### ACKNAK (O27) -/

/-- A built frame is its head and its trailer, the CRC taken over the head (R164, R165). -/
theorem buildFrame_eq_append {k : CrcKind} {payload h : List Byte} {seq : Byte}
    (head : h = BitVec.ofNat 8 (payload.length + 5) :: seq :: payload) :
    buildFrame k payload seq = h ++ [hiByte (crc16 k h), loByte (crc16 k h), syncByte] := by
  subst head
  rfl

/-- Settles O27: the empty frame is the five bytes, and ACKNAK offers it. -/
theorem ackNakSendsEmptyFrame : Obligations.AckNakSendsEmptyFrame := by
  unfold Obligations.AckNakSendsEmptyFrame
  intro s f five
  have built : f = buildFrame s.config.crc [] s.nextSeq := five.trans (buildFrame_eq_append (payload := []) rfl).symm
  have ends : exec .ackNak s = .next (s.ackNak.answer .none) := rfl
  refine ⟨fun granted => ?_, fun refused => ?_⟩
  · rw [ends, State.ackNak_granted granted, built]
    rfl
  · rw [ends, State.ackNak_refused refused]
    rfl

/-! ### FRAME_TX (O28, O29) -/

/-- A call of FRAME_TX that returns. -/
theorem exec_frameTx_ok {s t : State} {id : Nat} {args : List Word} (h : s.frameTx id args = .ok () t) :
    exec (.frameTx id args) s = .next (t.answer .none) := by
  show (s.frameTx id args).outcome _ = _
  rw [h]
  rfl

/-- A refused reservation drops the send before the arguments are looked at (R161). -/
theorem State.frameTx_refused {s : State} {id : Nat} {e : Encoder} (he : s.config.schema.commandEncoders[id]? = some e)
    (refused : s.granted (e.maxSize + 5) = false) (args : List Word) :
    s.frameTx id args = .ok () (s.useGrant.emit .drop) := by
  rw [State.frameTx, he]
  dsimp only
  rw [if_neg (by simp [refused]), State.outReserve_refused refused]

/-- Settles O28: the drop is the end of FRAME_TX. -/
theorem frameTxDropsWhenRefused : Obligations.FrameTxDropsWhenRefused := by
  unfold Obligations.FrameTxDropsWhenRefused
  intro s id e args he refused
  exact exec_frameTx_ok (State.frameTx_refused he refused args)

theorem State.offer_granted {n : Nat} {s : State} (h : s.granted n = true) (f : List Byte) :
    s.offer n f =
      { s.useGrant with reservation := none, output := s.output ++ f, trace := s.trace ++ [.commit f] } :=
  if_pos h

/-- Settles O29: FRAME_TX offers the built frame, and the parameters end below the capacity. -/
theorem frameTxCommitsOneFrame : Obligations.FrameTxCommitsOneFrame := by
  unfold Obligations.FrameTxCommitsOneFrame
  intro s id e args bs w he granted encoded h f head frame
  obtain ⟨low, high⟩ := Schema.encoder_bound w he
  have fits := encodeParams_fits (by omega) encoded
  have built : f = buildFrame s.config.crc (e.msgId :: bs) s.nextSeq := frame.trans (buildFrame_eq_append head).symm
  have long : f.length = bs.length + 6 := by simp [frame, head]
  refine ⟨?_, long, by omega, by omega, by omega⟩
  rw [exec_frameTx_ok (State.frameTx_encodes he low encoded), State.offer_granted granted, ← built]
  rfl

/-! ### Parameters that encode (O31) -/

/-- The word an integer parameter puts on the wire: whole, or masked to 16 bits (R201, R202). -/
def intArgWord (t : ArgType) (v : Word) : Word := if t = .uint32 ∨ t = .int32 then v else v &&& 0xFFFF#32

/-- A word masked to 16 bits takes at most three bytes (R202). -/
theorem vlqLen_mask_le (v : Word) : vlqLen (v &&& 0xFFFF#32) ≤ 3 := by
  have small : (v &&& 0xFFFF#32).toNat ≤ 0x17FFFF := by
    rw [BitVec.toNat_and]
    exact Nat.and_le_right.trans (by decide)
  rw [vlqLen_eq_vlqLenHex, vlqLenHex]
  split_ifs <;> omega

/-- R209(c) counts enough for every word. -/
theorem vlqLen_intArgWord_le {t : ArgType} (int : t.isInt = true) (v : Word) :
    vlqLen (intArgWord t v) ≤ intArgMax t := by
  cases t with
  | uint32 | int32 => exact vlqLen_le v
  | uint16 | int16 | byte => exact vlqLen_mask_le v
  | string | buffer | progmemBuffer | unknown => cases int

/-- One integer parameter in front of others that encode (R201, R202). -/
theorem Encodes.integer {d m : Memory} {cap p : Nat} {t : ArgType} {ts : List ArgType} {v : Word}
    {args left : List Word} {bs : List Byte} (int : t.isInt = true) (fits : p + vlqLen (intArgWord t v) ≤ cap)
    (rest : Encodes d m cap ts (p + vlqLen (intArgWord t v)) args bs left) :
    Encodes d m cap (t :: ts) p (v :: args) (vlqEnc (intArgWord t v) ++ bs) left := by
  cases t with
  | uint32 => exact .full (.inl rfl) fits rest
  | int32 => exact .full (.inr rfl) fits rest
  | uint16 => exact .short (.inl rfl) rfl fits rest
  | int16 => exact .short (.inr (.inl rfl)) rfl fits rest
  | byte => exact .short (.inr (.inr rfl)) rfl fits rest
  | string | buffer | progmemBuffer | unknown => cases int

/-- Integer parameters with the room R209(c) counts encode, each word's VLQ behind the one before it. -/
theorem Encodes.integers {d m : Memory} {cap : Nat} {ts : List ArgType} (int : ∀ t ∈ ts, t.isInt = true) :
    ∀ {p : Nat} {args : List Word}, ts.length ≤ args.length → p + (ts.map intArgMax).sum ≤ cap →
      Encodes d m cap ts p args (List.zipWith (fun t v => vlqEnc (intArgWord t v)) ts args).flatten
        (args.drop ts.length) := by
  induction ts with
  | nil => exact fun _ _ => .done _ _
  | cons t ts ih =>
    intro p args enough room
    obtain ⟨ht, hts⟩ := List.forall_mem_cons.mp int
    rw [List.map_cons, List.sum_cons] at room
    cases args with
    | nil => cases enough
    | cons v args =>
      have taken := vlqLen_intArgWord_le ht v
      exact .integer ht (by omega) (ih hts (Nat.le_of_succ_le_succ enough) (by omega))

/-- FRAME_TX of parameters that fit offers their frame (R163 to R168). -/
theorem exec_frameTx_encodes {s : State} {id : Nat} {e : Encoder} {args left : List Word} {bs : List Byte}
    (he : s.config.schema.commandEncoders[id]? = some e) (low : 1 ≤ e.maxSize)
    (h : Encodes s.data s.progmem (2 + e.maxSize) e.paramTypes 3 args bs left) :
    exec (.frameTx id args) s =
      .next ((State.offer (e.maxSize + 5) (buildFrame s.config.crc (e.msgId :: bs) s.nextSeq) s).answer .none) :=
  exec_frameTx_ok (State.frameTx_encodes he low (encodeParams_encodes h))

/-- Settles O31: parameters that fit are offered, and integers with the room of R209(c) fit. -/
theorem frameTxSizedEncoderCompletes : Obligations.FrameTxSizedEncoderCompletes := by
  unfold Obligations.FrameTxSizedEncoderCompletes
  refine ⟨fun s id e args left bs w he fits => exec_frameTx_encodes he (Schema.encoder_bound w he).1 fits,
    fun s id e args he int enough sized => ?_⟩
  exact exec_frameTx_encodes he (by omega) (Encodes.integers int enough (by omega))

/-! ### Calls outside their domain (O38) -/

/-- An encoder id the schema lacks (R170). -/
theorem exec_frameTx_noSuchEncoder {s : State} {id : Nat} (h : s.config.schema.commandEncoders.length ≤ id)
    (args : List Word) : exec (.frameTx id args) s = .refused .noSuchEncoder := by
  show (s.frameTx id args).outcome _ = _
  rw [State.frameTx, List.getElem?_eq_none h]
  rfl

theorem exec_encodeArg_noReservation {s : State} (h : s.reservation = none) (t : ArgType) (args : List Word)
    (p cap : Nat) : exec (.encodeArg t args p cap) s = .refused .noReservation := by
  show execEncodeArg t args p cap s = _
  rw [execEncodeArg, h]

theorem exec_encodeArg_outsideReservation {s : State} {r bs : List Byte} {t : ArgType} {args ws : List Word}
    {p cap : Nat} (reserved : s.reservation = some r)
    (encoded : encodeParam s.data s.progmem t args p cap = .ok (bs, ws)) (past : r.length < p + bs.length) :
    exec (.encodeArg t args p cap) s = .refused .outsideReservation := by
  show execEncodeArg t args p cap s = _
  simp only [execEncodeArg, reserved, encoded, if_pos past]

/-- ENCODE on the open reservation, where its pure part stops. -/
theorem exec_encodeArg_stop {s : State} {r : List Byte} {t : ArgType} {args : List Word} {p cap : Nat} {k : Stop}
    (reserved : s.reservation = some r) (stop : encodeParam s.data s.progmem t args p cap = .error k) :
    exec (.encodeArg t args p cap) s = (Ran.ofStop s k : Ran Unit).outcome fun _ => .none := by
  show execEncodeArg t args p cap s = _
  simp only [execEncodeArg, reserved, stop]

/-- Every defined type takes a word first (R207). -/
theorem encodeParam_noArgument {t : ArgType} (defined : ∀ c, t ≠ .unknown c) (d m : Memory) (p cap : Nat) :
    encodeParam d m t [] p cap = .error (.refused .argumentMissing) := by
  cases t with
  | unknown c => exact absurd rfl (defined c)
  | _ => rfl

theorem Memory.read_inside {m : Memory} {x : Nat} (h : x < 2 ^ 32) : m.read x = some (Memory.get m x) := if_pos h

theorem Memory.read_outside {m : Memory} {x : Nat} (h : 2 ^ 32 ≤ x) : m.read x = none := if_neg (Nat.not_lt.mpr h)

/-- A string whose characters reach the end of the space, with room for one more (R203, log 10). -/
theorem readString_outside {m : Memory} {n room a : Nat} (more : n < room) (last : a + n = 2 ^ 32)
    (chars : ∀ j, j < n → Memory.get m (a + j) ≠ 0) :
    readString m room a = .error (.fault .addressOutsideSpace) := by
  induction n generalizing room a with
  | zero =>
    obtain ⟨room, rfl⟩ := Nat.exists_eq_add_one.mpr more
    rw [readString, Memory.read_outside (by omega)]
  | succ n ih =>
    obtain ⟨room, rfl⟩ := Nat.exists_eq_add_one.mpr (Nat.zero_lt_of_lt more)
    have nonNul : Memory.get m a ≠ 0 := chars 0 n.succ_pos
    have tail := ih (room := room) (a := a + 1) (by omega) (by omega) fun j hj => by
      rw [Nat.add_assoc, Nat.add_comm 1]
      exact chars (j + 1) (by omega)
    rw [readString, Memory.read_inside (by omega)]
    simp only [if_neg nonNul, tail]

/-- Bytes that run past the end of the space (R204, log 10). -/
theorem readBytes_outside {m : Memory} {n a : Nat} (start : a ≤ 2 ^ 32) (past : 2 ^ 32 < a + n) :
    readBytes m n a = .error (.fault .addressOutsideSpace) := by
  induction n generalizing a with
  | zero => omega
  | succ n ih =>
    by_cases inside : a < 2 ^ 32
    · rw [readBytes, Memory.read_inside inside, ih (by omega) (by omega)]
    · rw [readBytes, Memory.read_outside (by omega)]

theorem encodeParam_string_outside {d m : Memory} {a : Word} {ws : List Word} {p cap n : Nat}
    (more : n < cap - (p + 1)) (last : a.toNat + n = 2 ^ 32) (chars : ∀ j, j < n → Memory.get d (a.toNat + j) ≠ 0) :
    encodeParam d m .string (a :: ws) p cap = .error (.fault .addressOutsideSpace) := by
  have room : ¬ cap < p + 1 := by omega
  simp only [encodeParam, encodeString, takeWord, if_neg room, readString_outside more last chars]

theorem encodeParam_buffer_outside {d m : Memory} {t : ArgType} {n a : Word} {ws : List Word} {p cap : Nat}
    (type : t = .buffer ∨ t = .progmemBuffer) (short : n.toNat ≤ 255) (start : p < cap)
    (past : 2 ^ 32 < a.toNat + min n.toNat (cap - (p + 1))) :
    encodeParam d m t (n :: a :: ws) p cap = .error (.fault .addressOutsideSpace) := by
  have length : ¬ 255 < n.toNat := by omega
  have room : ¬ cap < p + 1 := by omega
  have outside (mem : Memory) := readBytes_outside (m := mem) a.isLt.le past
  obtain rfl | rfl := type <;> simp only [encodeParam, encodeBuffer, takeWord, if_neg length, if_neg room, outside]

/-- An argument whose VLQ bytes or length byte are not all there (R111, R185). -/
theorem parseParams_starved {t : ArgType} {after : List Byte}
    (cut : (t.isInt = true ∧ ∀ b ∈ after, b.msb = true) ∨ (t = .buffer ∧ after = [])) (more : List ArgType)
    (p missing : Nat) : parseParams (t :: more) p missing after = .error (pastEnd missing) := by
  obtain ⟨int, unended⟩ | ⟨rfl, rfl⟩ := cut
  · simp only [parseParams, int, if_true, vlqDec_none unended]
  · rfl

/-- PARSE called alone, its last byte read past the view and below the bound, after arguments that parse (R41). -/
theorem exec_parse_readPastView {s : State} {p stop : Nat} {parser : Parser} {ts more : List ArgType} {t : ArgType}
    {bs after : List Byte} {args : List Word} {inline : List (Nat × List Byte)}
    (allowed : s.shutdown = true → parser.inShutdown = true) (types : parser.paramTypes = ts ++ t :: more)
    (view : window s.input p stop = bs ++ after) (parsed : Parses ts p bs args inline)
    (cut : (t.isInt = true ∧ ∀ b ∈ after, b.msb = true) ∨ (t = .buffer ∧ after = []))
    (short : s.input.length < stop) (start : p < stop) : exec (.parse p stop parser) s = .refused .readPastView := by
  have missing : beyond s.input p stop ≠ 0 := by
    unfold beyond
    omega
  have stops := parseParams_append parsed (parseParams_starved cut more (p + bs.length) (beyond s.input p stop))
  show (s.parse s.input p stop parser).outcome _ = _
  rw [State.parse, State.not_guarded allowed, types, view, stops, pastEnd, if_neg missing]
  rfl

/-- Settles O38: each call, where its pure loop stops. -/
theorem callsOutsideTheirDomainStop : Obligations.CallsOutsideTheirDomainStop := by
  unfold Obligations.CallsOutsideTheirDomainStop
  refine ⟨fun s id args => (exec_frameTx_noSuchEncoder · args), fun s t args p cap => ⟨?closed, ?past, ?starved⟩,
    ?string, ?buffer, ?parse, ?form⟩
  case closed => exact fun closed => exec_encodeArg_noReservation closed t args p cap
  case past => exact fun r bs ws => exec_encodeArg_outsideReservation
  case starved =>
    intro r reserved defined
    exact exec_encodeArg_stop reserved (encodeParam_noArgument defined _ _ p cap)
  case string =>
    intro s r a ws p cap n reserved more last chars
    exact exec_encodeArg_stop reserved (encodeParam_string_outside more last chars)
  case buffer =>
    intro s r t n a ws p cap type reserved short start past
    exact exec_encodeArg_stop reserved (encodeParam_buffer_outside type short start past)
  case parse =>
    intro s p stop parser ts more t bs after args inline allowed types view parsed cut short start
    exact exec_parse_readPastView allowed types view parsed cut short start
  case form =>
    intro s f rest w h form
    rw [step_reads w h]
    obtain rfl | rfl | rfl := form <;> rfl

end Sys2Proof.Machine
end

section
/-! PARSE called alone and the bad command in a POLL (O39, O40, O41, O51). The shape: a call of PARSE is the outcome of the
shared operation on the input view, whose ways to end are lemmas; POLL runs up to the turn that ends it. -/

namespace Sys2Proof.Machine

/-- PARSE called alone (R180 to R190). -/
theorem exec_parse (p stop : Nat) (parser : Parser) (s : State) :
    exec (.parse p stop parser) s = (s.parse s.input p stop parser).outcome parseResult := rfl

/-! ### The arguments (O39) -/

/-- PARSE of a command that the mode allows is its parameter loop (R181, R182). -/
theorem State.parse_allowed {s : State} {view : List Byte} {p stop : Nat} {parser : Parser} {r : Parsed}
    (allowed : s.shutdown = true → parser.inShutdown = true)
    (read : parseParams parser.paramTypes p (beyond view p stop) (window view p stop) = .ok r) :
    s.parse view p stop parser = .ok (some r) s := by
  rw [State.parse, State.not_guarded allowed, read]
  rfl

/-- The argument vector has the words of its types (R27, R188). -/
theorem Parses.args_length {ts : List ArgType} {p : Nat} {bs : List Byte} {args : List Word}
    {inline : List (Nat × List Byte)} (h : Parses ts p bs args inline) :
    args.length = (ts.map ArgType.argWords).sum := by
  induction h with
  | done p => rfl
  | integer int _ _ ih => simp [ArgType.argWords, int, ih, Nat.add_comm]
  | buffer _ _ ih =>
    have two : ArgType.buffer.argWords = 2 := rfl
    simp only [List.length_cons, List.map_cons, List.sum_cons, two, ih]
    omega

/-- A window with room begins with the byte at the cursor, and the window behind it is what the view still has. -/
theorem window_cons {view : List Byte} {p stop : Nat} (inView : p < view.length) (below : p < stop) :
    ∃ rest, window view p stop = byteAt view p :: rest ∧ rest.length = min stop view.length - (p + 1) := by
  have inTake : p < (view.take stop).length := by
    rw [List.length_take]
    omega
  have first : (view.take stop)[p] = byteAt view p := by
    rw [List.getElem_take, byteAt, List.getD_eq_getElem _ _ inView]
  refine ⟨(view.take stop).drop (p + 1), ?_, ?_⟩
  · rw [window, List.drop_eq_getElem_cons inTake, first]
  · rw [List.length_drop, List.length_take]

/-- A lone buffer is read from its length byte: its inline bytes need only lie below the bound, not in the view (R184). -/
theorem parseParams_buffer_unread {view : List Byte} {p stop : Nat} (inView : p < view.length)
    (bound : p + 1 + (byteAt view p).toNat ≤ stop) :
    ∃ inline, parseParams [.buffer] p (beyond view p stop) (window view p stop) = .ok
      { cursor := p + 1 + (byteAt view p).toNat
        args := [BitVec.ofNat 32 (byteAt view p).toNat, BitVec.ofNat 32 (p + 1)]
        inline := inline } := by
  obtain ⟨rest, split, len⟩ := window_cons (stop := stop) inView (by omega)
  have room : ¬ rest.length + beyond view p stop < (byteAt view p).toNat := by
    rw [beyond]
    omega
  refine ⟨[(p + 1, rest.take (byteAt view p).toNat)], ?_⟩
  simp only [parseParams, split, ArgType.isInt, room]
  rfl

/-- Settles O39: the parameter loop reads what parses, and of a buffer only the length byte. -/
theorem parseReadsArguments : Obligations.ParseReadsArguments := by
  unfold Obligations.ParseReadsArguments
  refine fun s p stop parser allowed => ⟨fun bs after args inline split parsed => ⟨?words, fun wf => ?count⟩, ?unread⟩
  case words =>
    have read := parseParams_parses parsed (beyond s.input p stop) after
    rw [← split] at read
    rw [exec_parse, State.parse_allowed allowed read]
    rfl
  case count =>
    obtain ⟨words, -⟩ := (Parser.wf_iff parser).mp wf
    rw [parsed.args_length, sum_argWords, words]
  case unread =>
    rintro n types inView rfl bound
    obtain ⟨inline, read⟩ := parseParams_buffer_unread inView bound
    rw [← types] at read
    rw [exec_parse, State.parse_allowed allowed read]
    rfl

/-! ### Bytes that do not parse (O40) -/

/-- A bound at or before the cursor leaves nothing to read. -/
theorem window_eq_nil {p stop : Nat} (h : stop ≤ p) (view : List Byte) : window view p stop = [] := by
  simp [window, h]

/-- Where a bound at or before the cursor stands makes no difference to PARSE. -/
theorem State.parse_bound_le_cursor {p stop : Nat} (h : stop ≤ p) (s : State) (view : List Byte) (parser : Parser) :
    s.parse view p stop parser = s.parse view p 0 parser := by
  have missing : beyond view p stop = beyond view p 0 := by
    unfold beyond
    omega
  rw [State.parse, State.parse, window_eq_nil h, window_eq_nil p.zero_le, missing]

/-- PARSE called alone on bytes that are not its arguments (R185, R187). -/
theorem exec_parse_parserError {s : State} {p stop : Nat} {parser : Parser}
    (allowed : s.shutdown = true → parser.inShutdown = true) (within : stop ≤ s.input.length ∨ stop ≤ p)
    (bad : ∀ bs after args inline, window s.input p stop = bs ++ after → ¬ Parses parser.paramTypes p bs args inline) :
    exec (.parse p stop parser) s = .next ((s.raiseShutdown .parserError).answer (.shutdown .parserError)) := by
  have raised : s.parse s.input p stop parser = .ended .parserError (s.raiseShutdown .parserError) := by
    obtain inside | empty := within
    · exact State.parse_parserError allowed inside bad
    · rw [State.parse_bound_le_cursor empty]
      refine State.parse_parserError allowed (Nat.zero_le _) ?_
      rwa [window_eq_nil p.zero_le, ← window_eq_nil empty]
  rw [exec_parse, raised]
  rfl

/-- POLL of a frame of commands whose handlers do nothing, then one whose turn a shutdown ends: POLL ends there, the frame
not popped (R246, R249). -/
theorem exec_poll_turnEnded {s t : State} {before more after : List Byte} {id : Byte} {es : List Event}
    {hs : List (List HandlerAction)} {r : Reason} (synced : s.needSync = false) (tagged : s.seqTagged = true)
    (short : (before ++ id :: more).length ≤ 59)
    (hin : s.input = buildFrame s.config.crc (before ++ id :: more) s.nextSeq ++ after)
    (commands : Commands s.config.schema s.shutdown 2 before es)
    (runs : s.handlerRuns = List.replicate es.length [] ++ hs)
    (ended : ∀ live, (s.accepted.dispatched es hs).commandTurn s.input live (2 + before.length)
      ((before ++ id :: more).length + 2) = .ended r t) :
    exec .poll s = .next (t.answer (.shutdown r)) := by
  obtain ⟨fuel, live, turns, loop⟩ := State.commandLoop_frame short hin commands runs
  obtain ⟨len, -, -, -⟩ := buildFrame_view hin short
  have below : 2 + before.length < (before ++ id :: more).length + 2 := by
    simp only [List.length_append, List.length_cons]
    omega
  have fuelled : 0 < fuel := Nat.lt_of_lt_of_le (Nat.succ_pos _) turns
  have stops := loop.trans (State.commandLoop_ended below fuelled (ended live))
  have bound : (byteAt s.input 0).toNat - 3 = (before ++ id :: more).length + 2 := by omega
  have start : (byteAt s.input 0).toNat - 5 = (before ++ id :: more).length := by omega
  show s.pollOnce.outcome _ = _
  rw [State.pollOnce_accepts (State.accepts_buildFrame synced tagged short hin), State.walkFrame, bound, start, stops]
  rfl

/-- A command in a built frame: its id, its bytes up to the bound, and the bound inside the view (R70, R222). -/
theorem buildFrame_command {k : CrcKind} {view before more after : List Byte} {id seq : Byte}
    (hin : view = buildFrame k (before ++ id :: more) seq ++ after) (short : (before ++ id :: more).length ≤ 59) :
    byteAt view (2 + before.length) = id
      ∧ window view (2 + before.length + 1) ((before ++ id :: more).length + 2) = more
      ∧ (before ++ id :: more).length + 2 ≤ view.length := by
  obtain ⟨-, -, payload, -⟩ := buildFrame_view hin short
  have command := window_add payload
  refine ⟨byteAt_of_window command, window_add (bs := [id]) command, ?_⟩
  rw [hin]
  simp [buildFrame, frameBytes]

/-- Settles O40: PARSE raises alone, and in a POLL it ends the turn of its command. -/
theorem parseRaisesParserError : Obligations.ParseRaisesParserError := by
  unfold Obligations.ParseRaisesParserError
  refine ⟨fun s p stop parser allowed within bad => ?alone,
    fun s before bad after id parser es hs synced tagged short hin commands runs entry allowed unparsed => ?polled⟩
  case alone => exact ⟨_, exec_parse_parserError allowed within bad, s.raiseShutdown_trapped .parserError⟩
  case polled =>
    obtain ⟨config, shutdown, -, -, -⟩ := s.accepted_keeps
    obtain ⟨idAt, behind, inside⟩ := buildFrame_command hin short
    have cursor : 2 + before.length + 1 = 3 + before.length := by omega
    refine ⟨_, exec_poll_turnEnded synced tagged short hin commands runs fun live => ?_,
      State.raiseShutdown_trapped _ .parserError⟩
    refine State.commandTurn_parseEnded idAt (parser := parser) ?_ (State.parse_parserError ?_ inside ?_)
    · rw [State.dispatched_config, config]
      exact Schema.parserOf_some entry
    · rwa [State.dispatched_shutdown, shutdown]
    · rwa [behind, cursor]

/-! ### The guard (O41) -/

/-- Settles O41: a guarded command is PARSE's Skip, or the trap of its reply. -/
theorem parseGuardSkips : Obligations.ParseGuardSkips := by
  unfold Obligations.ParseGuardSkips
  refine fun s p stop parser e v w he on closed hv => ⟨fun fits => ?_, fun long granted => ?_⟩
  · rw [exec_parse, State.parse_skips w he on closed hv fits]
    rfl
  · rw [exec_parse, State.parse_replyTooLong w he on closed hv long granted]
    exact ⟨_, rfl, s.useGrant.raiseShutdown_trapped .encodeError⟩

/-! ### The forms that are only encoded (O51) -/

/-- Settles O51: the parameter loop has no action for either type. -/
theorem argEncodeOnlyFormsRaise : Obligations.ArgEncodeOnlyFormsRaise := by
  unfold Obligations.ArgEncodeOnlyFormsRaise
  exact fun d s => ⟨s.readArg_raises (t := .string) (bs := lengthPrefixed d) rfl,
    s.readArg_raises (t := .progmemBuffer) (bs := lengthPrefixed d) rfl⟩

end Sys2Proof.Machine
end

section
/-! ENCODE called alone (O32 to O37). The shape: a parameter that encodes is one write at the cursor, and one that finds
no room is the trap; each type's rule is then its constructor of `Encodes` and of `NoRoom`. -/

namespace Sys2Proof.Machine

/-! ### The call -/

/-- ENCODE of a parameter that encodes, on a reservation that holds it, is one write at the cursor (R207). -/
theorem exec_encodeArg_ok {s : State} {r bs : List Byte} {t : ArgType} {args ws : List Word} {p cap : Nat}
    (reserved : s.reservation = some r) (encoded : encodeParam s.data s.progmem t args p cap = .ok (bs, ws))
    (held : p + bs.length ≤ r.length) :
    exec (.encodeArg t args p cap) s =
      .next { s with reservation := some (writeAt r p bs), result := .cursor (p + bs.length) } := by
  show execEncodeArg t args p cap s = _
  simp only [execEncodeArg, reserved, encoded, if_neg (Nat.not_lt.mpr held), State.outWrite, State.answer,
    Option.map_some]

/-- The parameter loop over one type is that type's ENCODE, its words dropped (R163). -/
theorem encodeParam_of_encodeParams_singleton {d m : Memory} {t : ArgType} {args : List Word} {p cap : Nat}
    {bs : List Byte} (h : encodeParams d m [t] args p cap = .ok bs) :
    ∃ ws, encodeParam d m t args p cap = .ok (bs, ws) := by
  rw [encodeParams] at h
  cases encoded : encodeParam d m t args p cap with
  | error e =>
    rw [encoded] at h
    cases h
  | ok written =>
    rw [encoded] at h
    obtain ⟨bs', ws⟩ := written
    obtain rfl : bs' = bs := by simpa [encodeParams] using h
    exact ⟨ws, rfl⟩

/-- ENCODE of a parameter that the rules encode writes its bytes and changes nothing else (R200 to R205). -/
theorem exec_encodeArg_encodes {s : State} {r bs : List Byte} {t : ArgType} {args left : List Word} {p cap : Nat}
    (reserved : s.reservation = some r) (encodes : Encodes s.data s.progmem cap [t] p args bs left)
    (held : p + bs.length ≤ r.length) :
    exec (.encodeArg t args p cap) s =
      .next { s with reservation := some (writeAt r p bs), result := .cursor (p + bs.length) } := by
  obtain ⟨ws, encoded⟩ := encodeParam_of_encodeParams_singleton (encodeParams_encodes encodes)
  exact exec_encodeArg_ok reserved encoded held

/-- ENCODE of a parameter without room raises "Message encode error" and writes nothing (R200, R206). -/
theorem exec_encodeArg_noRoom {s : State} {r : List Byte} {t : ArgType} {args : List Word} {p cap : Nat}
    (reserved : s.reservation = some r) (no : NoRoom cap t p args) :
    ∃ u, exec (.encodeArg t args p cap) s = .next u ∧ State.Trapped s .encodeError u :=
  ⟨_, exec_encodeArg_stop reserved (encodeParam_noRoom no), s.raiseShutdown_trapped .encodeError⟩

/-! ### Integers (O32, O33) -/

/-- ENCODE of an integer type whose word fits writes the word's VLQ (R201, R202). -/
theorem exec_encodeArg_integer {s : State} {r : List Byte} {t : ArgType} {v : Word} {ws : List Word} {p cap : Nat}
    (int : t.isInt = true) (reserved : s.reservation = some r) (fits : p + vlqLen (intArgWord t v) ≤ cap)
    (held : p + vlqLen (intArgWord t v) ≤ r.length) :
    exec (.encodeArg t (v :: ws) p cap) s =
      .next { s with
        reservation := some (writeAt r p (vlqEnc (intArgWord t v)))
        result := .cursor (p + vlqLen (intArgWord t v)) } := by
  have encodes := Encodes.integer (d := s.data) (m := s.progmem) (args := ws) int fits (.done _ _)
  rw [List.append_nil] at encodes
  rw [← vlqEnc_length] at held ⊢
  exact exec_encodeArg_encodes reserved encodes held

/-- Settles O32: the whole word fits, or the type finds no room. -/
theorem encodeFullWordIntegers : Obligations.EncodeFullWordIntegers := by
  unfold Obligations.EncodeFullWordIntegers
  refine fun s r t v ws p cap type reserved =>
    ⟨fun fits held => ?fits, fun exceeds => exec_encodeArg_noRoom reserved (.full type exceeds)⟩
  have whole : intArgWord t v = v := if_pos type
  have int : t.isInt = true := by obtain rfl | rfl := type <;> rfl
  rw [← whole] at fits held
  simpa only [whole] using exec_encodeArg_integer int reserved fits held

/-- The ranges of R202 for a word of 16 bits. -/
theorem vlqLen_mask_eq (v : Word) :
    vlqLen (v &&& 0xFFFF#32) =
      if (v &&& 0xFFFF#32).toNat ≤ 95 then 1 else if (v &&& 0xFFFF#32).toNat ≤ 12287 then 2 else 3 := by
  have small : (v &&& 0xFFFF#32).toNat ≤ 0xFFFF := by
    rw [BitVec.toNat_and]
    exact Nat.and_le_right
  rw [vlqLen_eq_vlqLenHex, vlqLenHex]
  split_ifs <;> omega

/-- Settles O33: the masked word fits, or the type finds no room; its length is its unsigned range. -/
theorem encodeShortIntegers : Obligations.EncodeShortIntegers := by
  unfold Obligations.EncodeShortIntegers
  rintro s r t v w ws p cap type reserved rfl
  refine ⟨fun fits held => ?fits, fun exceeds => exec_encodeArg_noRoom reserved (.short type exceeds),
    vlqLen_mask_eq v⟩
  have masked : intArgWord t v = v &&& 0xFFFF#32 := by obtain rfl | rfl | rfl := type <;> rfl
  have int : t.isInt = true := by obtain rfl | rfl | rfl := type <;> rfl
  rw [← masked] at fits held
  simpa only [masked] using exec_encodeArg_integer int reserved fits held

/-! ### Strings and buffers (O34, O35) -/

/-- A length byte and the bytes behind it, written in place (R203, R204). -/
theorem exec_encodeArg_counted {s : State} {r : List Byte} {t : ArgType} {m : Memory} {args left : List Word}
    {p cap a n : Nat} (reserved : s.reservation = some r)
    (encodes : Encodes s.data s.progmem cap [t] p args (BitVec.ofNat 8 n :: (Memory.bytes m a n ++ [])) left)
    (held : p + 1 + n ≤ r.length) :
    exec (.encodeArg t args p cap) s =
      .next { s with
        reservation := some (writeAt r p (BitVec.ofNat 8 n :: Memory.bytes m a n))
        result := .cursor (p + 1 + n) } := by
  have long : p + (BitVec.ofNat 8 n :: Memory.bytes m a n).length = p + 1 + n := by
    rw [List.length_cons, Memory.bytes_length]
    omega
  rw [List.append_nil] at encodes
  rw [← long] at held ⊢
  exact exec_encodeArg_encodes reserved encodes held

/-- Settles O34: up to the NUL or the room left, and a well-formed encoder leaves room for 57 characters. -/
theorem encodeStringToNulOrCapacity : Obligations.EncodeStringToNulOrCapacity := by
  unfold Obligations.EncodeStringToNulOrCapacity
  refine fun s r a ws p cap n reserved =>
    ⟨fun room _ fits held space chars ends => ⟨?written, fun e he w capacity start => ?short⟩,
      fun exceeds => exec_encodeArg_noRoom reserved (.string exceeds)⟩
  case written => exact exec_encodeArg_counted reserved (.string room fits space chars ends (.done _ ws)) held
  case short =>
    obtain ⟨id, at_id⟩ := List.getElem?_of_mem he
    have bound := (Schema.encoder_bound w at_id).2
    omega

/-- A buffer whose length its one byte cannot say (U7). -/
theorem encodeParam_buffer_tooLong {d m : Memory} {t : ArgType} {n a : Word} {ws : List Word} {p cap : Nat}
    (type : t = .buffer ∨ t = .progmemBuffer) (long : 255 < n.toNat) :
    encodeParam d m t (n :: a :: ws) p cap = .error (.refused .bufferTooLong) := by
  obtain rfl | rfl := type <;> simp only [encodeParam, encodeBuffer, takeWord, if_pos long]

/-- Settles O35: the clamped length and its bytes from the memory of the type; no room; too long. -/
theorem encodeBufferClamped : Obligations.EncodeBufferClamped := by
  unfold Obligations.EncodeBufferClamped
  intro s r t m n a ws p cap k source reserved clamped
  have type : t = .buffer ∨ t = .progmemBuffer := source.imp And.left And.left
  refine ⟨fun short room held space => ?written, fun short exceeds => ?noRoom, fun long => ?tooLong⟩
  case written => exact exec_encodeArg_counted reserved (.buffer source short room clamped space (.done _ ws)) held
  case noRoom => exact exec_encodeArg_noRoom reserved (.buffer type short exceeds)
  case tooLong => exact exec_encodeArg_stop reserved (encodeParam_buffer_tooLong type long)

/-! ### Every type (O36, O37) -/

/-- Settles O36: no room is ever found for an undefined type. -/
theorem encodeUnknownTypeRaises : Obligations.EncodeUnknownTypeRaises := by
  unfold Obligations.EncodeUnknownTypeRaises
  exact fun s r c args p cap reserved => exec_encodeArg_noRoom reserved (.unknown c p args)

/-- Settles O37: the call is one write at the cursor, of bytes that end at or below the capacity. -/
theorem encodeWritesOnlyItsBytes : Obligations.EncodeWritesOnlyItsBytes := by
  unfold Obligations.EncodeWritesOnlyItsBytes
  intro s r bs t args ws p cap reserved encoded held
  have start : p ≤ r.length := by omega
  obtain ⟨below, some_byte⟩ := encodeParam_fits encoded
  exact ⟨writeAt r p bs, exec_encodeArg_ok reserved encoded held, encodeParam_encodes encoded, writeAt_length held,
    some_byte, below, writeAt_written start, fun j => writeAt_getElem?_outside start⟩

end Sys2Proof.Machine
end

section
/-! The dispatcher (O42, O45, O46, O49). A POLL of an accepted frame is its command loop: a loop that comes to its end
pops the frame, a loop that a shutdown ends is the POLL's end. What the loop does is said by `Commands` and `Served` up to
the command a statement is about, and there by the turn of that command. -/

namespace Sys2Proof.Machine

/-! ### A POLL is its command loop -/

/-- The loop over a built frame comes to its end: the frame is popped, once (R227). -/
theorem exec_poll_loop_ok {s t : State} {payload after : List Byte} (synced : s.needSync = false)
    (tagged : s.seqTagged = true) (short : payload.length ≤ 59)
    (hin : s.input = buildFrame s.config.crc payload s.nextSeq ++ after)
    (loop : State.commandLoop s.input (payload.length + 2) payload.length 2 [] s.accepted = .ok () t)
    (kept : t.input = s.input) :
    exec .poll s = .next { t with
      input := after
      trace := t.trace ++ [.pop (payload.length + 5)]
      result := .none } := by
  obtain ⟨len, -, -, behind⟩ := buildFrame_view hin short
  have bound : payload.length + 5 - 3 = payload.length + 2 := by omega
  show s.pollOnce.outcome _ = _
  rw [State.pollOnce_accepts (State.accepts_buildFrame synced tagged short hin), State.walkFrame, len, bound,
    Nat.add_sub_cancel, loop]
  dsimp only
  rw [State.inPop, kept, behind]
  rfl

/-- A shutdown ends the loop over an accepted frame: it ends the POLL, and nothing is popped (R246). -/
theorem exec_poll_loop_ended {s t : State} {r : Reason} (accepts : s.accepts = true)
    (loop : State.commandLoop s.input ((byteAt s.input 0).toNat - 3) ((byteAt s.input 0).toNat - 5) 2 [] s.accepted =
      .ended r t) :
    exec .poll s = .next (t.answer (.shutdown r)) := by
  show s.pollOnce.outcome _ = _
  rw [State.pollOnce_accepts accepts, State.walkFrame, loop]
  rfl

/-! ### Commands served in wire order (O42) -/

/-- At the bound the loop is over, whatever fuel is left (R222). -/
theorem State.commandLoop_bound {view : List Byte} {p stop : Nat} (h : stop ≤ p) (fuel : Nat)
    (live : List (Nat × List Byte)) (s : State) : State.commandLoop view stop fuel p live s = .ok () s := by
  cases fuel with
  | zero => rfl
  | succ fuel => rw [State.commandLoop, if_neg (by omega)]

/-- Behind the commands before it, the cursor of a command is below the bound of its frame (R222). -/
theorem cursor_below_bound (before more : List Byte) (id : Byte) :
    2 + before.length < (before ++ id :: more).length + 2 := by
  simp only [List.length_append, List.length_cons]
  omega

/-- POLL of a frame of commands whose handlers run: they are served in wire order, then the frame is popped
(R222 to R227). -/
theorem exec_poll_served {s t : State} {payload after : List Byte} {live : List (Nat × List Byte)}
    (synced : s.needSync = false) (tagged : s.seqTagged = true) (short : payload.length ≤ 59)
    (hin : s.input = buildFrame s.config.crc payload s.nextSeq ++ after) (served : Served 2 payload [] s.accepted live t) :
    exec .poll s = .next { t with
      input := after
      trace := t.trace ++ [.pop (payload.length + 5)]
      result := .none } := by
  have whole : payload ++ [] = payload := List.append_nil payload
  obtain ⟨-, fuel, -, loop⟩ := State.commandLoop_frame_served (rest := []) (by rwa [whole]) (by rwa [whole]) served
  rw [whole] at loop
  obtain ⟨-, -, -, -, input⟩ := s.accepted_keeps
  exact exec_poll_loop_ok synced tagged short hin (loop.trans (State.commandLoop_bound (Nat.add_comm _ _).le fuel live t))
    (served.handled.input.trans input)

/-- Settles O42: the loop dispatches the commands of the payload, and at its end the frame is popped. -/
theorem pollRunsCommandsInWireOrder : Obligations.PollRunsCommandsInWireOrder := by
  unfold Obligations.PollRunsCommandsInWireOrder
  intro s payload after synced tagged short hin
  refine ⟨fun es hs commands runs => ?_, fun live t served => exec_poll_served synced tagged short hin served⟩
  show s.pollOnce.outcome _ = _
  rw [State.pollOnce_commands synced tagged short hin commands runs]
  rfl

/-! ### Unknown commands (O45) -/

/-- Settles O45: the turn of an unknown command is the trap, and it ends the command alone, the loop and the POLL. -/
theorem unknownCommandRaises : Obligations.UnknownCommandRaises := by
  unfold Obligations.UnknownCommandRaises
  intro s
  obtain ⟨config, -, -, -, -⟩ := s.accepted_keeps
  refine ⟨fun id args unknown => ⟨_, ?alone, s.raiseShutdown_trapped _⟩,
    fun accepts nonempty unknown => ⟨_, ?first, s.accepted.raiseShutdown_trapped _⟩,
    fun before more after id es hs synced tagged short hin commands runs unknown =>
      ⟨_, ?later, State.raiseShutdown_trapped _ _⟩⟩
  case alone =>
    show (State.commandTurn _ _ _ _ _).outcome _ = _
    rw [State.commandTurn_unknown (Schema.parserOf_none unknown)]
    rfl
  case first =>
    refine exec_poll_loop_ended accepts (State.commandLoop_ended (by omega) (by omega) (State.commandTurn_unknown ?_))
    rw [config]
    exact Schema.parserOf_none unknown
  case later =>
    obtain ⟨idAt, -, -⟩ := buildFrame_command hin short
    refine exec_poll_turnEnded synced tagged short hin commands runs fun live => State.commandTurn_unknown ?_
    rw [State.dispatched_config, config, idAt]
    exact Schema.parserOf_none unknown

/-! ### The skip in shutdown (O46) -/

/-- Settles O46: the turn of the command without the flag is a skip, which leaves the loop, and the frame is popped. -/
theorem pollSkipsInShutdown : Obligations.PollSkipsInShutdown := by
  unfold Obligations.PollSkipsInShutdown
  intro s u before more after id es hs parser e v w synced tagged short hin on commands runs entry closed he hv fits hu
  obtain ⟨config, shutdown, reason, -, input⟩ := s.accepted_keeps
  obtain ⟨idAt, -, -⟩ := buildFrame_command hin short
  have skip : ∀ live, (s.accepted.dispatched es hs).commandTurn s.input live (2 + before.length)
      ((before ++ id :: more).length + 2) = .ok none u := fun live => by
    rw [hu, ← config]
    refine State.commandTurn_parseSkip idAt (parser := parser) ?_ (State.parse_skips ?_ ?_ ?_ closed ?_ fits _ _ _)
    · rw [State.dispatched_config, config]
      exact Schema.parserOf_some entry
    · rwa [State.dispatched_config, config]
    · rwa [State.dispatched_config, config]
    · rwa [State.dispatched_shutdown, shutdown]
    · rwa [State.dispatched_shutdownReason, reason]
  obtain ⟨fuel, live, turns, loop⟩ := State.commandLoop_frame short hin (on ▸ commands) runs
  have below := cursor_below_bound before more id
  have fuelled : 0 < fuel := Nat.lt_of_lt_of_le (Nat.succ_pos _) turns
  refine exec_poll_loop_ok synced tagged short hin (loop.trans (State.commandLoop_skip below fuelled (skip live))) ?_
  obtain ⟨-, -, -, offered⟩ := State.offer_sameRegs (e.maxSize + 5)
    (buildFrame s.config.crc (e.msgId :: vlqEnc v) s.accepted.nextSeq) (s.accepted.dispatched es hs)
  rw [hu, offered, State.dispatched_input, input]

/-! ### How one action of a handler ends its run -/

/-- A send that a shutdown ends, ends the run (R246). -/
theorem State.runHandler_send_ended {s t : State} {id : Nat} {args : List Word} {r : Reason}
    (ended : s.frameTx id args = .ended r t) (view : List Byte) (live : List (Nat × List Byte))
    (more : List HandlerAction) : State.runHandler view live (.send id args :: more) s = .ended r t := by
  rw [State.runHandler, ended]

/-- A store past the space faults (log 10). -/
theorem State.runHandler_store_outside {s : State} {a : Word} {bs : List Byte} (outside : 2 ^ 32 < a.toNat + bs.length)
    (view : List Byte) (live : List (Nat × List Byte)) (more : List HandlerAction) :
    State.runHandler view live (.store a bs :: more) s = .fault .addressOutsideSpace := by
  rw [State.runHandler, State.storeData, Memory.write_outside outside]

/-- A read outside the bytes of every pointer word faults (log 26). -/
theorem State.runHandler_copyIn_uncovered {live : List (Nat × List Byte)} {src n : Nat}
    (uncovered : inlineCovers live src n = false) (view : List Byte) (a : Word) (more : List HandlerAction) (s : State) :
    State.runHandler view live (.copyIn a src n :: more) s = .fault .pointerOutsideInline := by
  rw [State.runHandler, uncovered]
  rfl

/-- One pointer word covers no byte before or behind its own. -/
theorem inlineCovers_outside {q src n : Nat} {d : List Byte} (h : src < q ∨ q + d.length < src + n) :
    inlineCovers [(q, d)] src n = false := by
  have none_inside : ¬ (q ≤ src ∧ src + n ≤ q + d.length) := by omega
  simpa [inlineCovers] using none_inside

/-! ### What a store leaves in DATA -/

/-- A write inside the space succeeds; its bytes are read back and no other changes (R43). -/
theorem Memory.write_reads {m : Memory} {x : Nat} {bs : List Byte} (canonical : Memory.wf m = true)
    (inside : x + bs.length ≤ 2 ^ 32) :
    ∃ m', Memory.write m x bs = some m' ∧ (∀ j, j < bs.length → Memory.get m' (x + j) = byteAt bs j)
      ∧ ∀ y, y < x ∨ x + bs.length ≤ y → Memory.get m' y = Memory.get m y := by
  obtain ⟨m', wrote⟩ := Memory.write_inside inside
  refine ⟨m', wrote, fun j hj => ?_, fun y hy => ?_⟩
  · rw [Memory.write_get canonical wrote, if_pos (by omega), Nat.add_sub_cancel_left, byteAt]
  · rw [Memory.write_get canonical wrote, if_neg (by omega)]

/-- The bytes of a part of a list. -/
theorem byteAt_take_drop {d : List Byte} {src n j : Nat} (h : j < n) :
    byteAt ((d.drop src).take n) j = byteAt d (src + j) := by
  simp [byteAt, h]

/-- The same for a copy of inline bytes (R225). -/
theorem Memory.write_copy_reads {m : Memory} {x src n : Nat} {d : List Byte} (canonical : Memory.wf m = true)
    (covered : src + n ≤ d.length) (inside : x + n ≤ 2 ^ 32) :
    ∃ m', Memory.write m x ((d.drop src).take n) = some m' ∧ (∀ j, j < n → Memory.get m' (x + j) = byteAt d (src + j))
      ∧ ∀ y, y < x ∨ x + n ≤ y → Memory.get m' y = Memory.get m y := by
  have len : ((d.drop src).take n).length = n := by
    rw [List.length_take, List.length_drop]
    omega
  obtain ⟨m', wrote, reads, keeps⟩ := Memory.write_reads (bs := (d.drop src).take n) canonical (by rwa [len])
  rw [len] at reads keeps
  exact ⟨m', wrote, fun j hj => (reads j hj).trans (byteAt_take_drop hj), keeps⟩

/-! ### A command alone whose handler runs (log 15) -/

/-- The pointer word of a command alone with one buffer names the buffer's bytes. -/
theorem commandView_pointsInto (seq id : Byte) (bs : List Byte) :
    PointsInto (commandView seq (id :: lengthPrefixed bs)) [(4, bs)] := by
  intro q d m
  obtain ⟨rfl, rfl⟩ := Prod.mk.inj (List.mem_singleton.mp m)
  exact List.take_length

/-- A command with one buffer, alone, is what its handler does after the actions already done (R225). -/
theorem exec_command_buffer {s u : State} {id : Byte} {parser : Parser} {acts more : List HandlerAction}
    {hs : List (List HandlerAction)} {bs : List Byte}
    (entry : s.config.schema.commandIndex[id.toNat]? = some (some parser))
    (allowed : s.shutdown = true → parser.inShutdown = true) (types : parser.paramTypes = [.buffer])
    (short : bs.length ≤ 255) (runs : s.handlerRuns = (acts ++ more) :: hs)
    (ran : HandlerRan [(4, bs)] acts (s.dispatched [.dispatch id [BitVec.ofNat 32 bs.length, 4#32] [bs]] hs) u) :
    exec (.command id (lengthPrefixed bs)) s =
      (State.runHandler (commandView s.nextSeq (id :: lengthPrefixed bs)) [(4, bs)] more u).outcome
        fun _ => .cursor (4 + bs.length) := by
  have parsed : Parses parser.paramTypes 3 (lengthPrefixed bs) [BitVec.ofNat 32 bs.length, 4#32] [(4, bs)] :=
    types ▸ Parses.one_buffer 3 short
  have view : window (commandView s.nextSeq (id :: lengthPrefixed bs)) (2 + 1) ((lengthPrefixed bs).length + 3) =
      lengthPrefixed bs ++ [] := by
    rw [List.append_nil]
    exact window_commandView s.nextSeq id (lengthPrefixed bs)
  have cursor : 3 + (lengthPrefixed bs).length = 4 + bs.length := by
    rw [lengthPrefixed, List.length_cons]
    omega
  show (State.commandTurn _ _ _ _ _).outcome _ = _
  rw [State.commandTurn_parses (id := id) rfl (Schema.parserOf_some entry) allowed view parsed,
    State.dispatch_scripted runs]
  dsimp only [List.nil_append, List.map]
  rw [State.runHandler_then ran (commandView_pointsInto s.nextSeq id bs), ← cursor]
  cases State.runHandler (commandView s.nextSeq (id :: lengthPrefixed bs)) [(4, bs)] more u <;> rfl

/-! ### A command in a POLL whose handler a shutdown ends -/

/-- Behind commands that were served, a handler's run that a shutdown ends, ends the POLL, the frame not popped
(R229, R246). -/
theorem exec_poll_handlerEnded {s u v t : State} {before bs rest after : List Byte} {id : Byte} {parser : Parser}
    {args : List Word} {inline live : List (Nat × List Byte)} {acts more : List HandlerAction}
    {hs : List (List HandlerAction)} {r : Reason} (synced : s.needSync = false) (tagged : s.seqTagged = true)
    (short : (before ++ id :: (bs ++ rest)).length ≤ 59)
    (hin : s.input = buildFrame s.config.crc (before ++ id :: (bs ++ rest)) s.nextSeq ++ after)
    (served : Served 2 before [] s.accepted live u)
    (entry : s.config.schema.commandIndex[id.toNat]? = some (some parser))
    (allowed : u.shutdown = true → parser.inShutdown = true)
    (parsed : Parses parser.paramTypes (3 + before.length) bs args inline)
    (runs : u.handlerRuns = (acts ++ more) :: hs)
    (ran : HandlerRan (live ++ inline) acts (u.dispatched [.dispatch id args (inline.map Prod.snd)] hs) v)
    (ends : State.runHandler s.input (live ++ inline) more v = .ended r t) :
    exec .poll s = .next (t.answer (.shutdown r)) := by
  obtain ⟨config, -, -, -, -⟩ := s.accepted_keeps
  obtain ⟨len, -, -, -⟩ := buildFrame_view hin short
  obtain ⟨idAt, behind, -⟩ := buildFrame_command hin short
  obtain ⟨pointers, fuel, turns, loop⟩ := State.commandLoop_frame_served short hin served
  have known : Schema.parserOf u.config.schema id = some parser := by
    rw [served.handled.config, config]
    exact Schema.parserOf_some entry
  have cursor : 3 + before.length = 2 + before.length + 1 := by omega
  have turn := State.commandTurn_handlerEnded idAt known allowed behind (cursor ▸ parsed) pointers runs ran ends
  have below := cursor_below_bound before (bs ++ rest) id
  have fuelled : 0 < fuel := Nat.lt_of_lt_of_le (Nat.succ_pos _) turns
  refine exec_poll_loop_ended (State.accepts_buildFrame synced tagged short hin) ?_
  rw [len]
  exact loop.trans (State.commandLoop_ended below fuelled turn)

/-! ### A later command reads the bytes of an earlier one -/

/-- An accepted frame leaves the callers' memory as it was (R140). -/
theorem State.accepted_data (s : State) : s.accepted.data = s.data := by
  unfold State.accepted State.offer
  split_ifs <;> rfl

/-- A command with one buffer, then one without arguments whose handler copies bytes of that buffer: its pointer word is
still live (R29(c), R61). -/
theorem Served.buffer_then_copy {s : State} {first second : Byte} {buffered plain : Parser} {d : List Byte} {a : Word}
    {src n : Nat} {hs : List (List HandlerAction)} {m : Memory}
    (one : Schema.parserOf s.config.schema first = some buffered)
    (two : Schema.parserOf s.config.schema second = some plain)
    (allowed : s.shutdown = true → buffered.inShutdown = true ∧ plain.inShutdown = true)
    (buffer : buffered.paramTypes = [.buffer]) (empty : plain.paramTypes = []) (short : d.length ≤ 255)
    (runs : s.handlerRuns = [] :: [.copyIn a (4 + src) n] :: hs) (covered : src + n ≤ d.length)
    (wrote : Memory.write s.data a.toNat ((d.drop src).take n) = some m) :
    Served 2 (first :: (lengthPrefixed d ++ [second])) [] s [(4, d)] { s with
      data := m
      handlerRuns := hs
      trace := s.trace ++ [.dispatch first [BitVec.ofNat 32 d.length, 4#32] [d]] ++ [.dispatch second [] []] } := by
  have parsed : Parses buffered.paramTypes 3 (lengthPrefixed d) [BitVec.ofNat 32 d.length, 4#32] [(4, d)] :=
    buffer ▸ .one_buffer 3 short
  have wordless (p : Nat) : Parses plain.paramTypes p [] [] [] := empty ▸ .done p
  have pointed : Memory.write s.data a.toNat ((d.drop (4 + src - 4)).take n) = some m := by
    rwa [Nat.add_sub_cancel_left]
  refine .command one (fun on => (allowed on).1) parsed runs (.done _) ?_
  refine .command (bs := []) two (fun on => (allowed on).2) (wordless _) rfl ?_ (.done _ _ _)
  exact .copyIn (List.mem_singleton_self _) (by omega) (by omega) pointed (.done _)

/-! ### What a handler does (O49) -/

/-- Settles O49: alone the command is the handler's run, action by action; in a POLL the run is part of what is served,
or it ends the POLL. -/
theorem handlerActionsTakeEffect : Obligations.HandlerActionsTakeEffect := by
  unfold Obligations.HandlerActionsTakeEffect
  refine ⟨fun s u id parser before more act hs bs entry allowed types short runs ran => ?alone,
    fun s first second buffered plain d after a src n hs synced tagged short hin one two allowed buffer empty runs covered
      canonical inside => ?later,
    fun s u v before bs rest after id parser args inline live acts more act hs synced tagged short hin served entry allowed
      parsed runs ran => ?polled⟩
  case alone =>
    have command := exec_command_buffer entry allowed types short runs ran
    have whole : ∀ t, HandlerRan [(4, bs)] (act :: more) u t →
        exec (.command id (lengthPrefixed bs)) s = .next { t with result := .cursor (4 + bs.length) } := fun t done => by
      rw [command, State.runHandler_ran done (commandView_pointsInto s.nextSeq id bs)]
      rfl
    refine ⟨?raise, ?send, ?sendEnded, ?store, ?copyIn, ?uncovered, ?outside⟩
    case raise =>
      rintro r rfl
      exact ⟨_, command, u.raiseShutdown_trapped r⟩
    case send =>
      rintro e args v t rfl sent returned done
      exact whole t (.send sent returned done)
    case sendEnded =>
      rintro e args v r rfl sent ended
      obtain ⟨t, raised, rfl⟩ := State.frameTx_of_exec_shutdown sent ended
      rw [command, State.runHandler_send_ended raised]
      rfl
    case store =>
      rintro a xs rfl canonical inside
      obtain ⟨m, wrote, reads, keeps⟩ := Memory.write_reads canonical inside
      exact ⟨m, fun t done => whole t (.store wrote done), reads, keeps⟩
    case copyIn =>
      rintro a src n rfl covered canonical inside
      obtain ⟨m, wrote, reads, keeps⟩ := Memory.write_copy_reads canonical covered inside
      refine ⟨m, fun t done => whole t (.copyIn (q := 4) (d := bs) (List.mem_singleton_self _) (by omega) (by omega) ?_ done),
        reads, keeps⟩
      rwa [Nat.add_sub_cancel_left]
    case uncovered =>
      rintro a src n rfl outside
      rw [command, State.runHandler_copyIn_uncovered (inlineCovers_outside outside)]
      rfl
    case outside =>
      rintro a xs rfl outside
      rw [command, State.runHandler_store_outside outside]
      rfl
  case later =>
    obtain ⟨config, shutdown, -, script, -⟩ := s.accepted_keeps
    obtain ⟨m, wrote, reads, keeps⟩ := Memory.write_copy_reads canonical covered inside
    have served := Served.buffer_then_copy (s := s.accepted) (config ▸ Schema.parserOf_some one)
      (config ▸ Schema.parserOf_some two) (shutdown ▸ allowed) buffer empty (by omega) (script.trans runs) covered
      (s.accepted_data.symm ▸ wrote)
    have length : (first :: (lengthPrefixed d ++ [second])).length = d.length + 3 := by simp [lengthPrefixed]
    refine ⟨m, (exec_poll_served synced tagged (by omega) hin served).trans ?_, reads, keeps⟩
    rw [length, List.append_assoc, List.append_assoc]
    rfl
  case polled =>
    refine ⟨?raise, ?sendEnded⟩
    case raise =>
      rintro r rfl
      exact ⟨_, exec_poll_handlerEnded synced tagged short hin served entry allowed parsed runs ran rfl,
        v.raiseShutdown_trapped r⟩
    case sendEnded =>
      rintro e ws w r rfl sent ended
      obtain ⟨t, raised, rfl⟩ := State.frameTx_of_exec_shutdown sent ended
      exact exec_poll_handlerEnded synced tagged short hin served entry allowed parsed runs ran
        (State.runHandler_send_ended raised _ _ _)

end Sys2Proof.Machine
end

section
/-! Reset, the shutdown mode and the quiescent states (O1, O26, O30, O47, O58, O60). The shape: the frame layer commutes
with a change of the shutdown mode made from outside, so it neither reads the mode nor writes it; a raise only ever sets
the flag; and a frame whose POLL a shutdown ended meets the next FRAME_RX out of sequence. -/

namespace Sys2Proof.Machine

/-- Settles O1: the reset state is a literal. -/
theorem resetRegistersAndFlags : Obligations.ResetRegistersAndFlags := by
  unfold Obligations.ResetRegistersAndFlags
  exact ⟨rfl, rfl, rfl, rfl⟩

/-! ### The frame layer and the shutdown mode (O26) -/

/-- `IgnoresMode f`: `f` does the same under any other shutdown flag and reason, and hands them on (R256, R258). -/
def IgnoresMode (f : State → State) : Prop :=
  ∀ (s : State) (on : Bool) (r : Half), f (s.setShutdown on r) = (f s).setShutdown on r

/-- What ignores the mode leaves it as it is: to set the mode a state already has changes nothing. -/
theorem IgnoresMode.keeps {f : State → State} (h : IgnoresMode f) (s : State) :
    (f s).shutdown = s.shutdown ∧ (f s).shutdownReason = s.shutdownReason := by
  have same : f s = (f s).setShutdown s.shutdown s.shutdownReason := h s s.shutdown s.shutdownReason
  rw [same]
  exact ⟨rfl, rfl⟩

/-- The transport's answer does not depend on the mode (R46). -/
theorem State.offer_ignoresMode (n : Nat) (f : List Byte) : IgnoresMode (State.offer n f) := by
  intro s on r
  have answer : (s.setShutdown on r).granted n = s.granted n := rfl
  unfold State.offer
  rw [answer]
  split_ifs <;> rfl

theorem State.ackNak_ignoresMode : IgnoresMode State.ackNak := by
  intro s on r
  rw [State.ackNak_eq_offer, State.ackNak_eq_offer]
  exact State.offer_ignoresMode 5 s.emptyFrame s on r

theorem State.nakOnce_ignoresMode : IgnoresMode State.nakOnce := by
  intro s on r
  cases latch : s.needValid with
  | true => rw [State.nakOnce_latched latch, State.nakOnce_latched (s := s.setShutdown on r) latch]
  | false =>
    rw [State.nakOnce_unlatched latch, State.nakOnce_unlatched (s := s.setShutdown on r) latch]
    exact State.offer_ignoresMode 5 s.emptyFrame { s with needValid := true } on r

theorem State.accepted_ignoresMode : IgnoresMode State.accepted := by
  intro s on r
  unfold State.accepted
  rw [← State.ackNak_eq_offer, ← State.ackNak_eq_offer]
  exact State.ackNak_ignoresMode { s with needValid := false, nextSeq := nextSeqAfter (byteAt s.input 1) } on r

/-- FRAME_RX does the same in both modes, whatever the input view is: it scans, waits, swallows a SYNC, accepts or
discards (R256). -/
theorem State.frameRx_setShutdown (s : State) (on : Bool) (r : Half) :
    (s.setShutdown on r).frameRx = (s.frameRx.1, s.frameRx.2.setShutdown on r) := by
  have scans := State.nakOnce_ignoresMode s.scanned on r
  rcases Bool.eq_false_or_eq_true s.needSync with pending | synced
  · rw [State.frameRx_scans (.inl pending), State.frameRx_scans (s := s.setShutdown on r) (.inl pending)]
    exact congrArg (Prod.mk none) scans
  · rcases view_cases s.config.crc s.input with waits | invalid | valid
    · rw [State.frameRx_waits synced waits, State.frameRx_waits (s := s.setShutdown on r) synced waits]
    · rw [State.frameRx_invalid synced invalid, State.frameRx_invalid (s := s.setShutdown on r) synced invalid,
        State.frameFail_eq, State.frameFail_eq, State.setShutdown_input]
      split_ifs
      · rfl
      · exact congrArg (Prod.mk none) scans
    · by_cases expected : byteAt s.input 1 = s.nextSeq
      · have accepts := s.accepts_iff.mpr ⟨synced, valid, expected⟩
        rw [State.frameRx_accepts accepts, State.frameRx_accepts (s := s.setShutdown on r) accepts]
        exact congrArg (Prod.mk _) (s.accepted_ignoresMode on r)
      · rw [State.frameRx_discards synced valid expected,
          State.frameRx_discards (s := s.setShutdown on r) synced valid expected]
        exact congrArg (Prod.mk none) (State.offer_ignoresMode 5 s.emptyFrame
          (State.inPop (byteAt s.input 0).toNat { s with needValid := false }) on r)

theorem State.frameRx_ignoresMode : IgnoresMode fun s => s.frameRx.2 := fun s on r =>
  congrArg Prod.snd (s.frameRx_setShutdown on r)

/-- Settles O26: FRAME_RX and ACKNAK ignore the mode, hence keep it. -/
theorem frameLayerIgnoresShutdownMode : Obligations.FrameLayerIgnoresShutdownMode := by
  unfold Obligations.FrameLayerIgnoresShutdownMode
  intro s on r
  refine ⟨⟨_, rfl, ?rx, State.frameRx_ignoresMode.keeps s⟩, ⟨_, rfl, ?ackNak, State.ackNak_ignoresMode.keeps s⟩⟩
  case rx =>
    show execFrameRx (s.setShutdown on r) = _
    rw [execFrameRx, State.frameRx_setShutdown]
    rfl
  case ackNak =>
    show execAckNak (s.setShutdown on r) = _
    rw [execAckNak, State.ackNak_ignoresMode]
    rfl

/-! ### An encode error in FRAME_TX (O30) -/

/-- Settles O30: in both cases the parameter loop ends in the encode error, and FRAME_TX then raises from the state whose
only change is the transport's used answer. -/
theorem frameTxEncodeErrorCommitsNothing : Obligations.FrameTxEncodeErrorCommitsNothing := by
  unfold Obligations.FrameTxEncodeErrorCommitsNothing
  intro s id e args he granted cause
  have stops : encodeParams s.data s.progmem e.paramTypes args 3 (2 + e.maxSize) = .error (.shutdown .encodeError) := by
    rcases cause with stops | ⟨before, more, t, bs, left, types, fits, noRoom⟩
    · exact stops
    · rw [types]
      exact encodeParams_noRoom fits noRoom
  refine ⟨_, ?_, s.useGrant.raiseShutdown_trapped .encodeError⟩
  show (s.frameTx id args).outcome _ = _
  rw [State.frameTx_raises he granted stops]
  rfl

/-! ### The frame a shutdown left behind (O47) -/

/-- The number after a frame's own is another one (R140). -/
theorem nextSeqAfter_ne (b : Byte) : nextSeqAfter b ≠ b := by
  revert b
  decide

/-- Settles O47: the shutdown popped nothing, so the same valid frame is met again, and NEXT_SEQ has advanced past it. -/
theorem frameSurvivesShutdown : Obligations.FrameSurvivesShutdown := by
  unfold Obligations.FrameSurvivesShutdown
  intro s t r accepts polled ended
  obtain ⟨-, valid, -⟩ := s.accepts_iff.mp accepts
  obtain ⟨number, synced, -, es, -, ends⟩ := pollAcknowledgesBeforeCommands s t accepts polled
  obtain ⟨-, returned, -⟩ | ⟨_, kept, -, -, -⟩ := ends
  · rw [returned] at ended
    cases ended
  · have again : frameValid t.config.crc t.input = true := by
      rwa [(exec_keepsSetup polled).config, kept]
    have passed : byteAt t.input 1 ≠ t.nextSeq := by
      rw [kept, number, s.accepted_regs.1]
      exact (nextSeqAfter_ne _).symm
    have discards := (exec_of_frameRx_none (State.frameRx_discards synced again passed)).2
    rw [State.inPop, kept] at discards
    exact ⟨kept, discards⟩

/-! ### The shutdown flag (O58) -/

/-- However an instruction ends, a set flag stays set: FRAME_RX keeps the mode, and commands and handlers only raise. -/
theorem State.Ends.shutdown {s t : State} {polls runs : Bool} (h : s.Ends polls runs t) (on : s.shutdown = true) :
    t.shutdown = true := by
  have received : ∀ u : State, u.frameRx.2.shutdown = u.shutdown := fun u => (State.frameRx_ignoresMode.keeps u).1
  cases h with
  | sent keeps r => exact keeps.shutdown on
  | handled keeps r => exact keeps.shutdown on
  | received r => exact (received s).trans on
  | polled keeps r => exact keeps.shutdown ((received _).trans on)
  | popped keeps n r => exact keeps.shutdown ((received _).trans on)

/-- Of all moves only the environment's change of the mode clears the flag (R57(c), R257). -/
theorem State.Makes.shutdown {s t : State} {m : Move} (h : s.Makes m t) (on : s.shutdown = true) :
    t.shutdown = true ∨ ∃ r, m = .setShutdown false r := by
  cases h with
  | call ran => exact .inl ((exec_ends ran).shutdown on)
  | decoded _ ran => exact .inl ((exec_ends ran).shutdown on)
  | read ran =>
    obtain ⟨_, _, ends⟩ := State.readForm_ends ran
    exact .inl (ends.shutdown on)
  | arrive | drain => exact .inl on
  | setShutdown flag r =>
    cases flag with
    | true => exact .inl rfl
    | false => exact .inr ⟨r, rfl⟩
  | store wrote => exact .inl ((State.storeData_handled wrote).shutdown on)
  | reserve n => exact .inl ((s.outReserve_sent n).shutdown on)

/-- Settles O58: no way an instruction ends clears the flag, and a step is a POLL or one move. -/
theorem shutdownIsNeverCleared : Obligations.ShutdownIsNeverCleared := by
  unfold Obligations.ShutdownIsNeverCleared
  refine ⟨fun i s t h on => (exec_ends h).shutdown on, fun s t h on => ?_⟩
  obtain ⟨-, ⟨-, polled⟩ | ⟨m, rest, agenda, made⟩⟩ := step_cases h
  · exact .inl ((exec_ends polled).shutdown on)
  · obtain kept | ⟨r, rfl⟩ := made.shutdown on
    · exact .inl kept
    · exact .inr ⟨r, rest, agenda⟩

/-! ### Quiescent states (O60) -/

/-- The scan of an empty input pops no byte and finds no SYNC (R144). -/
theorem State.scanned_empty {s : State} (pending : s.needSync = true) (empty : s.input = []) :
    s.scanned = { s with trace := s.trace ++ [.pop 0] } := by
  simp [State.scanned, empty, pending, syncScan]

/-- Settles O60: with a resync pending the scan finds nothing and the latch holds the NAK back; else the view waits. -/
theorem quiescentPollChangesNothing : Obligations.QuiescentPollChangesNothing := by
  unfold Obligations.QuiescentPollChangesNothing
  intro s quiet
  unfold State.quiescent at quiet
  rcases Bool.eq_false_or_eq_true s.needSync with pending | synced
  · obtain ⟨empty, latched⟩ : s.input = [] ∧ s.needValid = true := by simpa [pending] using quiet
    have scans := State.frameRx_scans (.inl pending)
    rw [State.nakOnce_latched (s := s.scanned) latched, State.scanned_empty pending empty] at scans
    rw [if_pos pending]
    exact (exec_of_frameRx_none scans).2
  · have waits : viewWaits s.input = true := by simpa [synced] using quiet
    rw [if_neg (by simp [synced]), List.append_nil]
    exact (exec_of_frameRx_none (State.frameRx_waits synced waits)).2

end Sys2Proof.Machine
end
